-- ==== Sys2Proof/Word.lean ====
section
/-! DEFINITION. The word types of CCSE and their plainest arithmetic (spec/00_scope.md R9, R10). -/

namespace Sys2Proof

/-- A byte of BUF or a MATRIX cell. -/
abbrev Byte := BitVec 8

/-- A 16-bit sample pattern (R65, R68). -/
abbrev Half := BitVec 16

/-- A 32-bit register or command word (R8, R22). -/
abbrev Word := BitVec 32

/-- `ceil_div(a, b) = (a + b - 1) div b` on unbounded integers (R10). -/
def ceilDiv (a b : Nat) : Nat := (a + b - 1) / b

/-- The 32-bit pattern of a count (`trunc_32`, R9). -/
abbrev word (n : Nat) : Word := BitVec.ofNat 32 n

end Sys2Proof
end

