-- ==== Sys2Proof/Config.lean ====
section
/-! DEFINITION. The fixed constants of the hardware (spec/00_scope.md R8) and the free values: constants with no body, one for
each value the spec leaves open. BUF_BYTES is the state's field `bufLog` (log 2). -/

namespace Sys2Proof.Config

/-- The value of register ID (R21). -/
def idValue : Word := 0x43430007#32

/-- MERGE_FROM, the letter `J` (R8). -/
def mergeFrom : Byte := 0x4A#8

/-- MERGE_TO, the letter `I` (R8). -/
def mergeTo : Byte := 0x49#8

/-- FILL, the letter `X` (R8). -/
def fill : Byte := 0x58#8

/-- The float scale (R8, R163). -/
def floatScale : Nat := 32767

/-- The 25 letters of the grid in code order: `A`..`Z` without MERGE_FROM (R8, R111). -/
def alphabet : List Byte :=
  ((List.range 26).map fun i => BitVec.ofNat 8 (0x41 + i)).filter (· ≠ mergeFrom)

/-- The aperture's size in bytes (R61). -/
def apertureBytes : Nat := 0x02000000

/-- The aperture offset of BUF offset 0 (R61). -/
def windowBase : Nat := 0x00010000

/-- FREE VALUE: what BUF offset `offset` holds after reset number `resets` until something writes it. R82: "an
unconstrained draw". Log 1. -/
opaque bufDraw : (resets offset : Nat) → Byte

/-- FREE VALUE: CONV_F2I on the patterns R163 leaves open (inexact products, out of range, infinities, NaNs). A function of
the 32-bit pattern alone, as R163 (1) says. Log 3. -/
opaque convOpen : Word → Half

/-- FREE VALUE: the position of a byte that is in no cell of MATRIX, which R37 calls undefined. Log 4. -/
opaque undefinedPos : Byte → Nat × Nat

end Sys2Proof.Config
end

