-- ==== Sys2Proof/Syntax.lean ====
section
/-! DEFINITION. The commands of CCSE (`Instr`, one constructor per row of spec/opcode_table.json, R92), the registers (R22), the
host's bus accesses (R62, R63), the events of the outside world, and the host-program lines (R97, R98). -/

namespace Sys2Proof

/-- The ten commands of R92. `raw` is CMD.RAW, which only LSB.EXTRACT and PIPE.DEC may set (R93). -/
inductive Instr where
  /-- NOP, R190. -/
  | nop
  /-- SUB.KEY, R117. -/
  | subKey
  /-- SUB.ENC, R118. -/
  | subEnc
  /-- SUB.DEC, R119. -/
  | subDec
  /-- ZZ.ENC, R145. -/
  | zzEnc
  /-- ZZ.DEC, R146. -/
  | zzDec
  /-- LSB.EMBED, R168. -/
  | lsbEmbed
  /-- LSB.EXTRACT, R169. -/
  | lsbExtract (raw : Bool)
  /-- PIPE.ENC, R191. -/
  | pipeEnc
  /-- PIPE.DEC, R192. -/
  | pipeDec (raw : Bool)
deriving DecidableEq, Repr

/-- The registers of R22. `matrix k` is MATRIXk, the readback word of cells 4k to 4k+3 (R36). -/
inductive Reg where
  | id | cmd | status | irqEn | errInfo
  | keyAddr | keyLen | srcAddr | srcLen | dstAddr | dstCap
  | smpSrc | smpDst | smpCount | cfg | rails
  | resultLen | frameLen | bitCount | samplesUsed | bufSize
  | matrix (k : Fin 7)
deriving DecidableEq, Repr

/-- The three access widths of the bus (R62, R63). -/
inductive Width where
  | w8 | w16 | w32
deriving DecidableEq, Repr

/-- One host bus access at an aperture offset (R61 to R63). A write carries its value in the low bits. -/
inductive Access where
  | read (offset : Word) (width : Width)
  | write (offset : Word) (width : Width) (value : Word)
deriving DecidableEq, Repr

/-- What happens next outside the engine's own control: the host issues an access (R77), the running command's latency ends
(R251), the platform asserts reset (R240), or the host is in the loop of `wait` (R98): it reads STATUS until bit 0 is 0, and the
command outlasts `more` reads that see bit 0 = 1 after the first. -/
inductive Event where
  | host (a : Access)
  | completion
  | reset
  | pollIdle (more : Nat)
deriving DecidableEq, Repr

/-- A line of a host program (R97) or a pseudo-instruction (R98). `polls` says how many reads of STATUS a running command outlasts
before its completion: the latency is open (R251). The loop of `wait` itself ends at the first read that sees bit 0 = 0.
`elapse` is the model's own and no bus operation: it says that a running command's latency ends between the lines around it (log 16). -/
inductive HostLine where
  | wr (r : Reg) (v : Word)
  | rd (r : Reg)
  | wrb (a : Nat) (bs : List Byte)
  | wrh (a : Nat) (hs : List Half)
  | wrw (a : Nat) (ws : List Word)
  | rdb (a n : Nat)
  | rdh (a n : Nat)
  | cmd (i : Instr)
  | wrs (a : Nat) (text : List Char)
  | wait (polls : Nat)
  | run (i : Instr) (polls : Nat)
  | clr
  | cfg (depth : BitVec 4) (sfmt : BitVec 2)
  | elapse
deriving DecidableEq, Repr

end Sys2Proof
end

