-- ==== Sys2Proof/WellFormed.lean ====
section
/-! DEFINITION. Well-formedness. Every `Instr` is well formed: `raw` exists only where R93 allows it, and a command has no other
operand field (R91). The checks are on host accesses (R61 to R63) and on host-program lines (R97). -/

namespace Sys2Proof

/-- Every command is well formed (R92, R93): an ill-formed one cannot be written. -/
def Instr.wf : Instr → Bool
  | .nop | .subKey | .subEnc | .subDec | .zzEnc | .zzDec | .lsbEmbed | .pipeEnc => true
  | .lsbExtract _ | .pipeDec _ => true

/-- A width in bytes. -/
def Width.bytes : Width → Nat
  | .w8 => 1
  | .w16 => 2
  | .w32 => 4

/-- The aperture offset an access names. -/
def Access.offset : Access → Nat
  | .read o _ => o.toNat
  | .write o _ _ => o.toNat

/-- The width of an access. -/
def Access.width : Access → Width
  | .read _ w => w
  | .write _ w _ => w

/-- The access is inside the aperture (R61). -/
def Access.inAperture (a : Access) : Bool := a.offset < Config.apertureBytes

/-- The access has a width and an alignment that its part of the aperture takes: 32-bit at a multiple of 4 below the BUF window
(R62), naturally aligned at and above it (R63). -/
def Access.aligned (a : Access) : Bool :=
  if a.offset < Config.windowBase then a.width == .w32 && a.offset % 4 == 0
  else a.offset % a.width.bytes == 0

/-- A well-formed access: one that R61 to R63 give a successful outcome. -/
def Access.wf (a : Access) : Bool := a.inAperture && a.aligned

/-- R97's side conditions on a line: BUF offsets of halfword and word lines are aligned. -/
def HostLine.wf : HostLine → Bool
  | .wrh a _ | .rdh a _ => a % 2 == 0
  | .wrw a _ => a % 4 == 0
  | .wr _ _ | .rd _ | .wrb _ _ | .rdb _ _ | .cmd _ | .wrs _ _ | .wait _ | .run _ _ | .clr | .cfg _ _ | .elapse => true

end Sys2Proof
end

