-- ==== Sys2Proof/Decode.lean ====
section
/-! DEFINITION. The command word (spec/30_encoding.md R90 to R96): the decoder, total on any word and on any bytes, and after it
the encoder; the register map's offsets (spec/10_state.md R22). -/

namespace Sys2Proof

/-- Why a command word is illegal: the three cases of R94, and a byte string that is no 32-bit word (R90, R96). -/
inductive DecodeError where
  /-- RSV, bits 31:9, is not 0. -/
  | reservedBits
  /-- OP is in 0x0A..0xFF. -/
  | unknownOpcode
  /-- RAW = 1 with an OP other than 0x07 and 0x09. -/
  | rawNotAllowed
  /-- Not four bytes: every command is exactly one 32-bit word. -/
  | notOneWord
deriving DecidableEq, Repr

/-- Field OP, bits 7:0 (R90). -/
def opField (w : Word) : Nat := w.toNat % 256

/-- Field RAW, bit 8 (R90). -/
def rawField (w : Word) : Bool := w.getLsbD 8

/-- Field RSV, bits 31:9 (R90). -/
def rsvField (w : Word) : Nat := w.toNat / 512

/-- The opcode map of R92: the command an OP value selects, given the RAW bit. -/
def opcodeRow (op : Nat) (raw : Bool) : Except DecodeError Instr :=
  match op with
  | 0x00 => noRaw .nop
  | 0x01 => noRaw .subKey
  | 0x02 => noRaw .subEnc
  | 0x03 => noRaw .subDec
  | 0x04 => noRaw .zzEnc
  | 0x05 => noRaw .zzDec
  | 0x06 => noRaw .lsbEmbed
  | 0x07 => .ok (.lsbExtract raw)
  | 0x08 => noRaw .pipeEnc
  | 0x09 => .ok (.pipeDec raw)
  | _ => .error .unknownOpcode
where
  /-- RAW must be 0 on a row that does not allow it (R92, R94). -/
  noRaw (i : Instr) : Except DecodeError Instr := if raw then .error .rawNotAllowed else .ok i

/-- Decode a command word: one row of R92 with its RAW value, or illegal, by name (R94, R95). -/
def decode (w : Word) : Except DecodeError Instr :=
  if rsvField w ≠ 0 then .error .reservedBits else opcodeRow (opField w) (rawField w)

/-- Decode the bytes of a command word, least significant byte at the lowest offset (R64). -/
def decodeBytes : List Byte → Except DecodeError Instr
  | [b0, b1, b2, b3] => decode (b3 ++ b2 ++ b1 ++ b0)
  | _ => .error .notOneWord

/-- The four bytes of a word in ascending offsets (R64). -/
def wordBytes (w : Word) : List Byte :=
  [w.extractLsb' 0 8, w.extractLsb' 8 8, w.extractLsb' 16 8, w.extractLsb' 24 8]

/-- The word whose low `nbits` bits are `w`'s, the bits above them 0. -/
def tableWord (nbits w : Nat) : Word := BitVec.ofNat 32 (w % 2 ^ nbits)

/-- The instruction the decoder reads from an opcode table row's bits, laid out as the hardware stores them. -/
def decodeTableWord (nbits w : Nat) : Option Instr :=
  match decodeBytes (wordBytes (tableWord nbits w)) with
  | .ok i => some i
  | .error _ => none

/-- The OP value of a command (R92). -/
def opcode : Instr → Nat
  | .nop => 0x00
  | .subKey => 0x01
  | .subEnc => 0x02
  | .subDec => 0x03
  | .zzEnc => 0x04
  | .zzDec => 0x05
  | .lsbEmbed => 0x06
  | .lsbExtract _ => 0x07
  | .pipeEnc => 0x08
  | .pipeDec _ => 0x09

/-- The RAW bit of a command (R93). -/
def rawBit : Instr → Bool
  | .lsbExtract raw | .pipeDec raw => raw
  | .nop | .subKey | .subEnc | .subDec | .zzEnc | .zzDec | .lsbEmbed | .pipeEnc => false

/-- The command word of a command (R90): OP, RAW and zero reserved bits. -/
def encode (i : Instr) : Word := BitVec.ofNat 32 (opcode i + if rawBit i then 0x100 else 0)

/-- The aperture offset of a register (R22). -/
def Reg.offset : Reg → Nat
  | .id => 0x000
  | .cmd => 0x004
  | .status => 0x008
  | .irqEn => 0x00C
  | .errInfo => 0x010
  | .keyAddr => 0x014
  | .keyLen => 0x018
  | .srcAddr => 0x01C
  | .srcLen => 0x020
  | .dstAddr => 0x024
  | .dstCap => 0x028
  | .smpSrc => 0x02C
  | .smpDst => 0x030
  | .smpCount => 0x034
  | .cfg => 0x038
  | .rails => 0x03C
  | .resultLen => 0x040
  | .frameLen => 0x044
  | .bitCount => 0x048
  | .samplesUsed => 0x04C
  | .bufSize => 0x050
  | .matrix k => 0x080 + 4 * k.val

/-- Every register of R22, in the table's order. -/
def Reg.all : List Reg :=
  [.id, .cmd, .status, .irqEn, .errInfo, .keyAddr, .keyLen, .srcAddr, .srcLen, .dstAddr, .dstCap, .smpSrc, .smpDst,
   .smpCount, .cfg, .rails, .resultLen, .frameLen, .bitCount, .samplesUsed, .bufSize,
   .matrix 0, .matrix 1, .matrix 2, .matrix 3, .matrix 4, .matrix 5, .matrix 6]

/-- The register at an aperture offset; none for an offset R22 does not list (R48). -/
def regAt (offset : Nat) : Option Reg := Reg.all.find? fun r => r.offset == offset

end Sys2Proof
end

