-- ==== Sys2Proof/Machine/Memory.lean ====
section
/-! DEFINITION. The memory BUF as plain data (spec/20_memory.md R60, R82): the list of the bytes written since reset, as
(offset, byte) cells in one canonical form, offsets strictly rising. An offset that is not listed holds no written byte. -/

namespace Sys2Proof.Machine

/-- The bytes of BUF written since reset. -/
abbrev Memory := List Host.Cell

/-- The canonical form: offsets strictly rising. An unlisted offset stands for "not written since reset", which no listed byte
equals, so equal memories are equal lists. -/
abbrev Memory.wf (m : Memory) : Prop := m.Pairwise fun x y => x.1 < y.1

/-- Every listed offset is below `n`. -/
abbrev Memory.below (n : Nat) (m : Memory) : Prop := ∀ c ∈ m, c.1 < n

/-- The byte written at an offset, none where nothing has been written since reset. -/
def memFind : Memory → Nat → Option Byte
  | [], _ => none
  | (x, b) :: m, a => if x = a then some b else memFind m a

/-- Write one byte, keeping the canonical form. -/
def memWrite : Memory → Nat → Byte → Memory
  | [], a, b => [(a, b)]
  | (x, c) :: m, a, b =>
    if a < x then (a, b) :: (x, c) :: m
    else if a = x then (a, b) :: m
    else (x, c) :: memWrite m a b

/-- Write a byte string at consecutive offsets from `a` (`WriteBytes`, R11). -/
def memWriteBytes : Memory → Nat → List Byte → Memory
  | m, _, [] => m
  | m, a, b :: bs => memWriteBytes (memWrite m a b) (a + 1) bs

/-- The little-endian value of a byte string (R11, R64). -/
def leValue : List Byte → Nat
  | [] => 0
  | b :: bs => b.toNat + 256 * leValue bs

/-- The `n` little-endian bytes of `trunc_(8n)(v)` (R11, R64). -/
def leBytes : Nat → Nat → List Byte
  | 0, _ => []
  | n + 1, v => BitVec.ofNat 8 v :: leBytes n (v / 256)

end Sys2Proof.Machine
end

