-- ==== Sys2Proof/Machine/State.lean ====
section
/-! DEFINITION. The state of CCSE (spec/10_state.md, spec/70_reset_and_hazards.md R241) as plain data, the reasons an access or a
step can stop, and the state after reset. -/

namespace Sys2Proof.Machine

/-- Why a host access or a step ends in a fault. -/
inductive Fault where
  /-- A bus error response: a host access of a wrong width or alignment (R62, R63, R231). Raised by `busAccess`; the machine's
  step records it as the access's reply and goes on with no state changed (log 7). Safe. -/
  | busError
  /-- A host access at an offset outside the 0x02000000-byte aperture (R61): no access to CCSE. Raised by `busAccess`, ends the
  step (log 8). Safe. -/
  | outsideAperture
deriving DecidableEq, Repr

/-- Why a step gives no meaning. -/
inductive Refusal where
  /-- The command of this mnemonic has no meaning yet. No arm of `exec` raises it. Safe. -/
  | notModelled (mnemonic : String)
deriving DecidableEq, Repr

/-- The engine phase (R41); STATUS.BUSY = 1 exactly when it is `busy`. -/
inductive Phase where
  | idle | busy
deriving DecidableEq, Repr

/-- The error codes of R210; codes 0x0E..0xFF are never written. -/
inductive ErrorCode where
  | none | badCmd | invalidKey | noKey | param | unsupportedFormat | align | range | overlap
  | inputOdd | inputChar | capacity | frame | dstCap
deriving DecidableEq, Repr

/-- The stored fields of STATUS (R24). BUSY is `State.phase`; the reserved bits read 0 and have no storage (R43). -/
structure Status where
  /-- Bit 1, R26. -/
  done : Bool
  /-- Bit 2, R27. -/
  err : Bool
  /-- Bit 3, R28. -/
  keyValid : Bool
  /-- Bit 4, R29. -/
  utf8Drop : Bool
  /-- Bit 5, R30. -/
  hostColl : Bool
  /-- Bits 15:8, R31. -/
  errCode : ErrorCode
deriving DecidableEq, Repr

/-- The two enables of IRQ_EN (R32). -/
structure IrqEn where
  doneIe : Bool
  errIe : Bool
deriving DecidableEq, Repr

/-- The parameter registers (R34) and the two fields of CFG (R38). -/
structure Params where
  keyAddr : Word
  keyLen : Word
  srcAddr : Word
  srcLen : Word
  dstAddr : Word
  dstCap : Word
  smpSrc : Word
  smpDst : Word
  smpCount : Word
  rails : Word
  depth : BitVec 4
  sfmt : BitVec 2
deriving DecidableEq, Repr

/-- The result registers (R39). -/
structure Results where
  resultLen : Word
  frameLen : Word
  bitCount : Word
  samplesUsed : Word
deriving DecidableEq, Repr

/-- What a host access answered. -/
inductive Reply where
  /-- A read's value, zero-extended from the access width. -/
  | data (value : Word)
  /-- A write was taken; an ignored or refused write answers the same (R43, R44, R75). -/
  | written
  /-- The access faulted. -/
  | fault (f : Fault)
deriving DecidableEq, Repr

/-- The machine. -/
structure State where
  /-- PHASE, R41. -/
  phase : Phase
  /-- CMD, R23. -/
  cmd : Word
  /-- STATUS, R24. -/
  status : Status
  /-- IRQ_EN, R32. -/
  irqEn : IrqEn
  /-- ERRINFO, R33. -/
  errInfo : Word
  /-- KEY_ADDR .. RAILS and CFG, R34, R38. -/
  params : Params
  /-- RESULT_LEN .. SAMPLES_USED, R39. -/
  results : Results
  /-- MATRIX, row-major, R35. -/
  matrix : Vector Byte 25
  /-- The parameter BUF_BYTES = 2^(8 + bufLog), 256 to 2^24 (R7, R40). No step changes it (log 2). -/
  bufLog : Fin 17
  /-- BUF: the bytes written since reset (R60, R82). -/
  buf : Memory
  /-- MODEL's own: how many platform resets there have been, the index of `Config.bufDraw` (log 1). -/
  resets : Nat
  /-- MODEL's own: what happens next outside the engine's control (log 5, log 9). -/
  events : List Event
  /-- MODEL's own: what the host's accesses answered, newest first (log 9). -/
  replies : List Reply
deriving DecidableEq, Repr

/-- The state after reset of a machine with BUF_BYTES = 2^(8 + bufLog): the table of R241. -/
def State.resetOf (bufLog : Fin 17) : State where
  phase := .idle
  cmd := 0
  status := { done := false, err := false, keyValid := false, utf8Drop := false, hostColl := false, errCode := .none }
  irqEn := { doneIe := false, errIe := false }
  errInfo := 0
  params :=
    { keyAddr := 0, keyLen := 0, srcAddr := 0, srcLen := 0, dstAddr := 0, dstCap := 0, smpSrc := 0, smpDst := 0,
      smpCount := 0, rails := 0, depth := 0, sfmt := 0 }
  results := { resultLen := 0, frameLen := 0, bitCount := 0, samplesUsed := 0 }
  matrix := Vector.replicate 25 0
  bufLog := bufLog
  buf := []
  resets := 0
  events := []
  replies := []

/-- The state after reset. DESIGN CHOICE (log 2): BUF_BYTES is open (R7); this machine has 4096, the size of the spec's own
programs (spec/95_test_vectors.md section 3). -/
def State.reset : State := State.resetOf 4

end Sys2Proof.Machine
end

