-- ==== Sys2Proof/Machine/Flags.lean ====
section
/-! DEFINITION. STATUS, IRQ_EN and the interrupt line (spec/10_state.md R24 to R32, R46; spec/60_exceptions.md R210, R219): every
event that changes a flag, as one operation each, and the words the host reads. -/

namespace Sys2Proof.Machine

/-- The code of R210. -/
def ErrorCode.code : ErrorCode → Byte
  | .none => 0x00
  | .badCmd => 0x01
  | .invalidKey => 0x02
  | .noKey => 0x03
  | .param => 0x04
  | .unsupportedFormat => 0x05
  | .align => 0x06
  | .range => 0x07
  | .overlap => 0x08
  | .inputOdd => 0x09
  | .inputChar => 0x0A
  | .capacity => 0x0B
  | .frame => 0x0C
  | .dstCap => 0x0D

/-- PHASE = BUSY (R41). -/
def busy (s : State) : Bool := s.phase == .busy

/-- The word a read of STATUS returns (R24): BUSY, DONE, ERR, KEY_VALID, UTF8_DROP, HOSTCOLL, ERRCODE at 15:8, reserved bits 0. -/
def statusWord (s : State) : Word :=
  0#16 ++ s.status.errCode.code ++ 0#2 ++ BitVec.ofBool s.status.hostColl ++ BitVec.ofBool s.status.utf8Drop ++
    BitVec.ofBool s.status.keyValid ++ BitVec.ofBool s.status.err ++ BitVec.ofBool s.status.done ++
    BitVec.ofBool (busy s)

/-- The word a read of IRQ_EN returns (R32). -/
def irqEnWord (e : IrqEn) : Word := 0#30 ++ BitVec.ofBool e.errIe ++ BitVec.ofBool e.doneIe

/-- What a write of IRQ_EN stores (R32). -/
def irqEnOf (v : Word) : IrqEn := { doneIe := v.getLsbD 0, errIe := v.getLsbD 1 }

/-- IRQ = (DONE and DONE_IE) or (ERR and ERR_IE) (R219). -/
def irq (s : State) : Bool := (s.status.done && s.irqEn.doneIe) || (s.status.err && s.irqEn.errIe)

/-- A write of STATUS clears each W1C bit whose written bit is 1 and changes nothing else (R24). -/
def clearW1C (v : Word) (f : Status) : Status :=
  { f with
    done := f.done && !v.getLsbD 1
    err := f.err && !v.getLsbD 2
    utf8Drop := f.utf8Drop && !v.getLsbD 4
    hostColl := f.hostColl && !v.getLsbD 5 }

/-- Acceptance clears DONE, ERR, ERRCODE and UTF8_DROP (R216). -/
def acceptFlags (f : Status) : Status := { f with done := false, err := false, utf8Drop := false, errCode := .none }

/-- A successful completion sets DONE (R218). -/
def doneFlags (f : Status) : Status := { f with done := true }

/-- An error completion sets DONE, ERR and ERRCODE (R215). -/
def errorFlags (code : ErrorCode) (f : Status) : Status := { f with done := true, err := true, errCode := code }

/-- A refused host access sets HOSTCOLL (R30). -/
def collide (s : State) : State := { s with status := { s.status with hostColl := true } }

end Sys2Proof.Machine
end

