-- ==== Sys2Proof/Machine/Ops.lean ====
section
/-! DEFINITION. The shared operations: reading BUF (spec/00_scope.md R11), acceptance (R216), the error completion "raise" (R215:
CCSE's only exception) and its return (R225), the commit of a successful completion (R218, R223), and the platform reset (R240). -/

namespace Sys2Proof.Machine

/-- BUF_BYTES (R7, R40). -/
def bufBytes (s : State) : Nat := 2 ^ (8 + s.bufLog.val)

/-- `BUF[a]`: the byte written last at offset `a`, and an unconstrained draw where nothing has been written since reset
(R11, R82; log 1). -/
def bufByte (s : State) (a : Nat) : Byte := (memFind s.buf a).getD (Config.bufDraw s.resets a)

/-- `Bytes(a, n)` (R11). -/
def bufSlice (s : State) (a n : Nat) : List Byte := (List.range n).map fun i => bufByte s (a + i)

/-- `MemRead(a, n)` (R11, R64). -/
def memRead (s : State) (a n : Nat) : Nat := leValue (bufSlice s a n)

/-- `WriteBytes(a, bytes)` (R11). -/
def writeBuf (a : Nat) (bytes : List Byte) (s : State) : State := { s with buf := memWriteBytes s.buf a bytes }

/-- The command word the engine runs (R41, R80: there is no instruction fetch; the accepted word stands in CMD). -/
def fetch (s : State) : Word := s.cmd

/-- Acceptance of command word `v` (R216). -/
def accept (v : Word) (s : State) : State :=
  { s with cmd := v, phase := .busy, status := acceptFlags s.status, errInfo := 0 }

/-- An error a command rule ends with: `raise Error(code, info)` (R11). -/
structure Raised where
  code : ErrorCode
  info : Word
deriving DecidableEq, Repr

/-- The writes of a successful command (R218). A part that is absent leaves its state unchanged. -/
structure Commit where
  /-- BUF offset and bytes written. -/
  store : Option (Nat × List Byte)
  /-- The new MATRIX; writing it sets KEY_VALID (R28). -/
  matrix : Option (Vector Byte 25)
  /-- The new UTF8_DROP. -/
  utf8Drop : Option Bool
  /-- The four result registers. -/
  results : Option Results
deriving DecidableEq, Repr

/-- TAKING AN EXCEPTION: the error completion of R215. STATUS and ERRINFO hold the report, CMD keeps the failing word, the engine
returns to IDLE, nothing else changes (R224). -/
def raise (e : Raised) (s : State) : State :=
  { s with phase := .idle, status := errorFlags e.code s.status, errInfo := e.info }

/-- RETURNING FROM AN EXCEPTION (R225, R220): the host's write of 1s to STATUS bits 1 and 2, `0x06`, which clears DONE and ERR. -/
def acknowledge (s : State) : State := { s with status := clearW1C 0x06 s.status }

/-- BUF after the write of a commit. -/
def storedBuf (store : Option (Nat × List Byte)) (m : Memory) : Memory :=
  match store with
  | some (a, bytes) => memWriteBytes m a bytes
  | none => m

/-- STATUS after a commit: KEY_VALID is set with a new MATRIX (R28), UTF8_DROP as written (R29), DONE set (R218). -/
def commitFlags (c : Commit) (f : Status) : Status :=
  doneFlags { f with keyValid := f.keyValid || c.matrix.isSome, utf8Drop := c.utf8Drop.getD f.utf8Drop }

/-- A successful completion: all of a command's writes at once, BUSY cleared, DONE set (R218, R223). -/
def commit (c : Commit) (s : State) : State :=
  { s with
    phase := .idle
    status := commitFlags c s.status
    results := c.results.getD s.results
    matrix := c.matrix.getD s.matrix
    buf := storedBuf c.store s.buf }

/-- The completion of a command whose rule gave `r` on the snapshot (R218): an error completion or a commit. -/
def complete (r : Except Raised Commit) (s : State) : State :=
  match r with
  | .error e => raise e s
  | .ok c => commit c s

/-- The platform reset (R240, R241): every piece of the spec's state at its reset value, whatever the engine was doing; BUF is
a fresh draw. What the host still has to do and what it has read are not the machine's to lose. -/
def platformReset (s : State) : State :=
  { State.resetOf s.bufLog with resets := s.resets + 1, events := s.events, replies := s.replies }

end Sys2Proof.Machine
end

