-- ==== Sys2Proof/Machine/Bus.lean ====
section
/-! DEFINITION. The host's bus (spec/10_state.md R21 to R48, spec/20_memory.md R61 to R64, R75, R76): register reads and writes,
the BUF window, blocking while BUSY, bus errors. -/

namespace Sys2Proof.Machine

/-- MATRIXk (R36): cells 4k to 4k+3, little-endian; a cell index above 24 reads 0x00. -/
def matrixWord (m : Vector Byte 25) (k : Nat) : Word :=
  word (leValue ((List.range 4).map fun i => m.toList.getD (4 * k + i) 0))

/-- CFG as read (R38): DEPTH at 3:0, SFMT at 5:4, reserved bits 0. -/
def cfgWord (p : Params) : Word := 0#26 ++ p.sfmt ++ p.depth

/-- The value of a register as the host reads it, also while BUSY (R22, R45). -/
def readReg (s : State) : Reg → Word
  | .id => Config.idValue
  | .cmd => s.cmd
  | .status => statusWord s
  | .irqEn => irqEnWord s.irqEn
  | .errInfo => s.errInfo
  | .keyAddr => s.params.keyAddr
  | .keyLen => s.params.keyLen
  | .srcAddr => s.params.srcAddr
  | .srcLen => s.params.srcLen
  | .dstAddr => s.params.dstAddr
  | .dstCap => s.params.dstCap
  | .smpSrc => s.params.smpSrc
  | .smpDst => s.params.smpDst
  | .smpCount => s.params.smpCount
  | .cfg => cfgWord s.params
  | .rails => s.params.rails
  | .resultLen => s.results.resultLen
  | .frameLen => s.results.frameLen
  | .bitCount => s.results.bitCount
  | .samplesUsed => s.results.samplesUsed
  | .bufSize => word (bufBytes s)
  | .matrix k => matrixWord s.matrix k.val

/-- A write that is refused while BUSY and then sets HOSTCOLL (R30, R44, R217); else it is performed. -/
def unlessBusy (s : State) (performed : State) : State := if busy s then collide s else performed

/-- A parameter-register write (R34, R44). -/
def writeParams (s : State) (p : Params) : State := unlessBusy s { s with params := p }

/-- A host write of a register (R22 to R24, R32, R34, R38, R43, R44): CMD starts a command or collides (R216, R217), STATUS
clears W1C bits, read-only registers ignore it. -/
def writeReg (s : State) (v : Word) : Reg → State
  | .cmd => unlessBusy s (accept v s)
  | .status => { s with status := clearW1C v s.status }
  | .irqEn => { s with irqEn := irqEnOf v }
  | .keyAddr => writeParams s { s.params with keyAddr := v }
  | .keyLen => writeParams s { s.params with keyLen := v }
  | .srcAddr => writeParams s { s.params with srcAddr := v }
  | .srcLen => writeParams s { s.params with srcLen := v }
  | .dstAddr => writeParams s { s.params with dstAddr := v }
  | .dstCap => writeParams s { s.params with dstCap := v }
  | .smpSrc => writeParams s { s.params with smpSrc := v }
  | .smpDst => writeParams s { s.params with smpDst := v }
  | .smpCount => writeParams s { s.params with smpCount := v }
  | .cfg => writeParams s { s.params with depth := v.extractLsb' 0 4, sfmt := v.extractLsb' 4 2 }
  | .rails => writeParams s { s.params with rails := v }
  | .id | .errInfo | .resultLen | .frameLen | .bitCount | .samplesUsed | .bufSize | .matrix _ => s

/-- An access below the BUF window: a register, or an unlisted offset, which reads 0 and ignores writes (R48, R61). -/
def regAccess (s : State) : Access → State × Reply
  | .read o _ =>
    match regAt o.toNat with
    | some r => (s, .data (readReg s r))
    | none => (s, .data 0)
  | .write o _ v =>
    match regAt o.toNat with
    | some r => (writeReg s v r, .written)
    | none => (s, .written)

/-- An access to BUF offset `a` through the window (R63); refused while BUSY: a read returns 0, a write is discarded, HOSTCOLL is
set (R75). -/
def bufAccess (s : State) (a : Nat) : Access → State × Reply
  | .read _ w => if busy s then (collide s, .data 0) else (s, .data (word (memRead s a w.bytes)))
  | .write _ w v => (unlessBusy s (writeBuf a (leBytes w.bytes v.toNat) s), .written)

/-- An access to the unused range above BUF: reads 0, writes ignored (R61). -/
def unusedAccess (s : State) : Access → State × Reply
  | .read _ _ => (s, .data 0)
  | .write _ _ _ => (s, .written)

/-- One host access: a fault with nothing changed (R62, R63, R231), or the state after it and what the host is answered. -/
def busAccess (s : State) (a : Access) : Except Fault (State × Reply) :=
  if !a.inAperture then .error .outsideAperture
  else if !a.aligned then .error .busError
  else if a.offset < Config.windowBase then .ok (regAccess s a)
  else if a.offset < Config.windowBase + bufBytes s then .ok (bufAccess s (a.offset - Config.windowBase) a)
  else .ok (unusedAccess s a)

end Sys2Proof.Machine
end

