-- ==== Sys2Proof/Machine/Operands.lean ====
section
/-! DEFINITION. Operand assembly (spec/30_encoding.md R91), the regions of BUF (spec/20_memory.md R70) and the checks every command
shares, in the order of spec/60_exceptions.md R214, steps 2 to 7. -/

namespace Sys2Proof.Machine

/-- The five regions of R70. -/
inductive Region where
  | key | src | dst | smpi | smpo
deriving DecidableEq, Repr

/-- The region id of R70. -/
def Region.id : Region → Nat
  | .key => 0
  | .src => 1
  | .dst => 2
  | .smpi => 3
  | .smpo => 4

/-- The region is written (R70). -/
def Region.written : Region → Bool
  | .key | .src | .smpi => false
  | .dst | .smpo => true

/-- E, the bytes of an input sample: 2 when SFMT = 0, 4 when SFMT = 1 (R70). -/
def sampleBytes (s : State) : Nat := if s.params.sfmt = 0 then 2 else 4

/-- A region's base (R70). -/
def regionBase (s : State) : Region → Nat
  | .key => s.params.keyAddr.toNat
  | .src => s.params.srcAddr.toNat
  | .dst => s.params.dstAddr.toNat
  | .smpi => s.params.smpSrc.toNat
  | .smpo => s.params.smpDst.toNat

/-- A region's length in bytes (R70). -/
def regionLen (s : State) : Region → Nat
  | .key => s.params.keyLen.toNat
  | .src => s.params.srcLen.toNat
  | .dst => s.params.dstCap.toNat
  | .smpi => sampleBytes s * s.params.smpCount.toNat
  | .smpo => 2 * s.params.smpCount.toNat

/-- What a command uses (R70, R91): its regions in increasing id order, CFG, RAILS. -/
structure Uses where
  regions : List Region
  cfg : Bool
  rails : Bool
deriving DecidableEq, Repr

/-- The command uses of R70 and R91. -/
def uses : Instr → Uses
  | .nop => { regions := [], cfg := false, rails := false }
  | .subKey => { regions := [.key], cfg := false, rails := false }
  | .subEnc => { regions := [.src, .dst], cfg := false, rails := false }
  | .subDec => { regions := [.src, .dst], cfg := false, rails := false }
  | .zzEnc => { regions := [.src, .dst], cfg := false, rails := true }
  | .zzDec => { regions := [.src, .dst], cfg := false, rails := true }
  | .lsbEmbed => { regions := [.src, .smpi, .smpo], cfg := true, rails := false }
  | .lsbExtract _ => { regions := [.dst, .smpi], cfg := true, rails := false }
  | .pipeEnc => { regions := [.key, .src, .smpi, .smpo], cfg := true, rails := true }
  | .pipeDec _ => { regions := [.key, .dst, .smpi], cfg := true, rails := true }

/-- CFG.DEPTH is legal (R38). -/
def depthLegal (s : State) : Bool := 1 ≤ s.params.depth.toNat && s.params.depth.toNat ≤ 8

/-- A used region is in range (R71): a region of length 0 always is. -/
def inRange (s : State) (r : Region) : Bool := regionLen s r == 0 || regionBase s r + regionLen s r ≤ bufBytes s

/-- Two intervals of non-zero length intersect (R72). -/
def intersects (s : State) (a b : Region) : Bool :=
  0 < regionLen s a && 0 < regionLen s b &&
    regionBase s a < regionBase s b + regionLen s b && regionBase s b < regionBase s a + regionLen s a

/-- The one exempt pair: in-place processing of 16-bit samples (R72, R249). -/
def inPlace (s : State) (a b : Region) : Bool :=
  a == .smpi && b == .smpo && s.params.smpSrc == s.params.smpDst && s.params.sfmt == 0

/-- The pair raises OVERLAP (R72). -/
def overlaps (s : State) (p : Region × Region) : Bool :=
  (p.1.written || p.2.written) && intersects s p.1 p.2 && !inPlace s p.1 p.2

/-- The pairs of a list in lexicographic order of their positions (R72). -/
def orderedPairs : List Region → List (Region × Region)
  | [] => []
  | r :: rs => rs.map (fun q => (r, q)) ++ orderedPairs rs

/-- Step 2: UNSUPPORTED_FORMAT (R214). -/
def checkFormat (u : Uses) (s : State) : Option Raised :=
  if u.cfg && decide (1 < s.params.sfmt.toNat) then some ⟨.unsupportedFormat, word s.params.sfmt.toNat⟩ else none

/-- Step 3: PARAM (R214). -/
def checkDepth (u : Uses) (s : State) : Option Raised :=
  if u.cfg && !depthLegal s then some ⟨.param, word s.params.depth.toNat⟩ else none

/-- Step 4: INVALID_KEY 2 (R214). -/
def checkRails (u : Uses) (s : State) : Option Raised :=
  if u.rails && s.params.rails == 0 then some ⟨.invalidKey, 2⟩ else none

/-- Step 5, SMP_SRC: ALIGN (R73, R214). -/
def checkAlignSrc (u : Uses) (s : State) : Option Raised :=
  if u.regions.contains .smpi && s.params.smpSrc.toNat % sampleBytes s != 0 then some ⟨.align, s.params.smpSrc⟩ else none

/-- Step 5, SMP_DST: ALIGN (R73, R214). -/
def checkAlignDst (u : Uses) (s : State) : Option Raised :=
  if u.regions.contains .smpo && s.params.smpDst.toNat % 2 != 0 then some ⟨.align, s.params.smpDst⟩ else none

/-- Step 6: RANGE, the used regions in increasing id order (R71, R214). -/
def checkRange (u : Uses) (s : State) : Option Raised :=
  (u.regions.find? fun r => !inRange s r).map fun r => ⟨.range, word r.id⟩

/-- Step 7: OVERLAP, the pairs in lexicographic order (R72, R214); the detail is `i | (j << 4)`. -/
def checkOverlap (u : Uses) (s : State) : Option Raised :=
  ((orderedPairs u.regions).find? (overlaps s)).map fun p => ⟨.overlap, word (p.1.id ||| (p.2.id <<< 4))⟩

/-- Steps 2 to 7 of R214: the first check that fails. They read only parameter registers. -/
def preCheck (u : Uses) (s : State) : Option Raised :=
  [checkFormat u s, checkDepth u s, checkRails u s, checkAlignSrc u s, checkAlignDst u s, checkRange u s,
    checkOverlap u s].findSome? id

/-- A command rule after its shared checks: the first failed check of steps 2 to 7, else what `body` gives. The body is evaluated
only then: no BUF byte is read from an illegal region (R214). -/
def afterChecks (i : Instr) (s : State) (body : Unit → Except Raised Commit) : Except Raised Commit :=
  match preCheck (uses i) s with
  | some e => .error e
  | none => body ()

/-- DSTCAP, last of all checks (R214): the output must fit; else the commit stores it at DST_ADDR, exactly its bytes (R69). -/
def dstCommit (s : State) (out : List Byte) (matrix : Option (Vector Byte 25)) (utf8Drop : Option Bool)
    (results : Results) : Except Raised Commit :=
  if s.params.dstCap.toNat < out.length then .error ⟨.dstCap, word out.length⟩
  else .ok { store := some (s.params.dstAddr.toNat, out), matrix, utf8Drop, results := some results }

/-- The results of a command that has only a length (R117 to R119, R145, R146). -/
def lengthResults (n : Nat) : Results := { resultLen := word n, frameLen := 0, bitCount := 0, samplesUsed := 0 }

/-- `Bytes(KEY_ADDR, KEY_LEN)`. -/
def keyBytes (s : State) : List Byte := bufSlice s s.params.keyAddr.toNat s.params.keyLen.toNat

/-- `Bytes(SRC_ADDR, SRC_LEN)`. -/
def srcBytes (s : State) : List Byte := bufSlice s s.params.srcAddr.toNat s.params.srcLen.toNat

end Sys2Proof.Machine
end

