-- ==== Sys2Proof/Machine/Lsb.lean ====
section
/-! DEFINITION. The LSB unit (spec/42_lsb_codec.md): carrier normalisation, the frame, packing and unpacking, the lossy UTF-8
filter, and the commands LSB.EMBED and LSB.EXTRACT. -/

namespace Sys2Proof.Machine

/-- The exact product of a binary32 pattern's value and 32767, when the value is finite and the product is an integer (R163).
The value is (-1)^sign * m * 2^(e - 150), the format's sign, 8-bit exponent and 23-bit fraction (R67). -/
def scaledProduct (x : Word) : Option Int :=
  let sign := x.getLsbD 31
  let e := (x.extractLsb' 23 8).toNat
  let f := (x.extractLsb' 0 23).toNat
  let m := (if e = 0 then f else 2 ^ 23 + f) * Config.floatScale
  let e := if e = 0 then 1 else e
  let signed (n : Nat) : Int := if sign then -(n : Int) else n
  if e = 255 then none
  else if 150 ≤ e then some (signed (m * 2 ^ (e - 150)))
  else if m % 2 ^ (150 - e) = 0 then some (signed (m / 2 ^ (150 - e)))
  else none

/-- CONV_F2I (R163): `trunc_16(v)` when the exact product is an integer v in -32768..32767, else the free value (log 3). -/
def convF2I (x : Word) : Half :=
  match scaledProduct x with
  | some v => if -32768 ≤ v ∧ v ≤ 32767 then BitVec.ofInt 16 v else Config.convOpen x
  | none => Config.convOpen x

/-- Carrier(i) (R160). -/
def carrier (s : State) (i : Nat) : Half :=
  if s.params.sfmt = 0 then BitVec.ofNat 16 (memRead s (s.params.smpSrc.toNat + 2 * i) 2)
  else convF2I (word (memRead s (s.params.smpSrc.toNat + 4 * i) 4))

/-- Carrier(0) .. Carrier(n-1). -/
def carriers (s : State) (n : Nat) : List Half := (List.range n).map (carrier s)

/-- The `n` bits of a number, most significant first. -/
def bitsOf : (n : Nat) → (v : Nat) → List Bool
  | 0, _ => []
  | n + 1, v => v.testBit n :: bitsOf n v

/-- The number a bit string spells, most significant bit first. -/
def valueOf (bits : List Bool) : Nat := bits.foldl (fun acc b => 2 * acc + b.toNat) 0

/-- Bitstream (R161): each byte's 8 bits, most significant first. -/
def bitstream (m : List Byte) : List Bool := m.flatMap fun b => bitsOf 8 b.toNat

/-- Frame (R162): the 32-bit big-endian payload bit count, then the bitstream. -/
def frameBits (m : List Byte) : List Bool := bitsOf 32 (8 * m.length) ++ bitstream m

/-- The required sample count K of a frame of `32 + L` bits at depth `d` (R164). -/
def samplesFor (L d : Nat) : Nat := ceilDiv (32 + L) d

/-- chunk(s) (R164): the next `d` frame bits, the last chunk right-padded with zero bits. -/
def chunk (F : List Bool) (d i : Nat) : Nat := valueOf ((List.range d).map fun b => F.getD (i * d + b) false)

/-- The 16-bit mask of the low `d` bits (R164). -/
def lowMask (d : Nat) : Half := BitVec.ofNat 16 (2 ^ d - 1)

/-- One packed sample (R165). -/
def packSample (d : Nat) (x : Half) (c : Nat) : Half := (x &&& ~~~(lowMask d)) ||| BitVec.ofNat 16 c

/-- Output sample i (R165, R173): packed below K, untouched from K on. -/
def outSample (F : List Bool) (d K : Nat) (x : Half) (i : Nat) : Half :=
  if i < K then packSample d x (chunk F d i) else x

/-- The output samples of an embed over a carrier (R168). -/
def embedSamples (m : List Byte) (d : Nat) (xs : List Half) : List Half :=
  xs.zipIdx.map fun p => outSample (frameBits m) d (samplesFor (8 * m.length) d) p.1 p.2

/-- The BUF bytes of 16-bit samples (R68). -/
def sampleBytesOf (xs : List Half) : List Byte := xs.flatMap fun x => leBytes 2 x.toNat

/-- The low `d` bits of a sample, most significant first (R166). -/
def lowBits (d : Nat) (x : Half) : List Bool := bitsOf d (x &&& lowMask d).toNat

/-- Stream (R166) of a list of samples. -/
def streamBits (d : Nat) (xs : List Half) : List Bool := xs.flatMap (lowBits d)

/-- The payload length L a stream's first 32 bits state (R169). -/
def prefixLength (S : List Bool) : Nat := valueOf (S.take 32)

/-- The payload bytes of a stream: bits 32 to 31 + L, in bytes (R169). -/
def payloadBytes (S : List Bool) (L : Nat) : List Byte :=
  (List.range (L / 8)).map fun k => BitVec.ofNat 8 (valueOf ((S.drop (32 + 8 * k)).take 8))

/-- The table of well-formed UTF-8 sequences (R167): for each row the range of each byte. -/
def utf8Rows : List (List (Byte × Byte)) :=
  [ [(0x00, 0x7F)],
    [(0xC2, 0xDF), (0x80, 0xBF)],
    [(0xE0, 0xE0), (0xA0, 0xBF), (0x80, 0xBF)],
    [(0xE1, 0xEC), (0x80, 0xBF), (0x80, 0xBF)],
    [(0xED, 0xED), (0x80, 0x9F), (0x80, 0xBF)],
    [(0xEE, 0xEF), (0x80, 0xBF), (0x80, 0xBF)],
    [(0xF0, 0xF0), (0x90, 0xBF), (0x80, 0xBF), (0x80, 0xBF)],
    [(0xF1, 0xF3), (0x80, 0xBF), (0x80, 0xBF), (0x80, 0xBF)],
    [(0xF4, 0xF4), (0x80, 0x8F), (0x80, 0xBF), (0x80, 0xBF)] ]

/-- A row matches at the head of a byte string (R167). -/
def rowMatches : List (Byte × Byte) → List Byte → Bool
  | [], _ => true
  | _ :: _, [] => false
  | r :: rs, b :: bs => decide (r.1 ≤ b) && decide (b ≤ r.2) && rowMatches rs bs

/-- The length of the well-formed sequence at the head of a byte string, 0 if there is none (R167). -/
def utf8Length (p : List Byte) : Nat :=
  match utf8Rows.find? fun r => rowMatches r p with
  | some r => r.length
  | none => 0

/-- The scan of UTF8Filter; `pending` bytes of the sequence just matched are still to be kept (R167). -/
def utf8Scan : (pending : Nat) → List Byte → List Byte
  | _, [] => []
  | n + 1, b :: p => b :: utf8Scan n p
  | 0, b :: p =>
    match utf8Length (b :: p) with
    | 0 => utf8Scan 0 p
    | n + 1 => b :: utf8Scan n p

/-- UTF8Filter (R167): keep exactly the bytes of well-formed sequences. -/
def utf8Filter (p : List Byte) : List Byte := utf8Scan 0 p

/-- What an extract writes of the payload: filtered with RAW = 0, as extracted with RAW = 1 (R93, R169). -/
def payloadText (raw : Bool) (p : List Byte) : List Byte := if raw then p else utf8Filter p

/-- UTF8_DROP's new value (R29, R169). -/
def dropped (raw : Bool) (p : List Byte) : Bool := !raw && decide ((utf8Filter p).length < p.length)

/-- The results of a frame of payload length L (R168, R169). -/
def frameResults (len L K : Nat) : Results :=
  { resultLen := word len, frameLen := word L, bitCount := word (32 + L), samplesUsed := word K }

/-- The capacity check and the commit of an embed of message `m` (R168, R191): CAPACITY with the samples required, else the N
output samples at SMP_DST. -/
def embedCommit (s : State) (m : List Byte) (matrix : Option (Vector Byte 25)) : Except Raised Commit :=
  let d := s.params.depth.toNat
  let N := s.params.smpCount.toNat
  let K := samplesFor (8 * m.length) d
  if N < K then .error ⟨.capacity, word K⟩
  else
    .ok { store := some (s.params.smpDst.toNat, sampleBytesOf (embedSamples m d (carriers s N))), matrix, utf8Drop := none,
          results := some (frameResults m.length (8 * m.length) K) }

/-- A frame read back from a carrier: the payload, its length L in bits and the frame's sample count K (R169). -/
structure Extracted where
  payload : List Byte
  bits : Nat
  samples : Nat
deriving DecidableEq, Repr

/-- Reading a frame back (R169, R192): no room for the prefix, a length that is no whole number of bytes, a frame longer than
the carrier, else the payload. -/
def extractFrame (s : State) : Except Raised Extracted :=
  let d := s.params.depth.toNat
  let N := s.params.smpCount.toNat
  let H := ceilDiv 32 d
  if N < H then .error ⟨.capacity, word H⟩
  else
    let L := prefixLength (streamBits d (carriers s H))
    if L % 8 ≠ 0 then .error ⟨.frame, word L⟩
    else
      let K := samplesFor L d
      if N < K then .error ⟨.capacity, word (min K 0xFFFFFFFF)⟩
      else .ok { payload := payloadBytes (streamBits d (carriers s K)) L, bits := L, samples := K }

/-- The rule of LSB.EMBED (R168). -/
def lsbEmbedRule (s : State) : Except Raised Commit :=
  afterChecks .lsbEmbed s <| fun _ => embedCommit s (srcBytes s) none

/-- The rule of LSB.EXTRACT (R169). -/
def lsbExtractRule (raw : Bool) (s : State) : Except Raised Commit :=
  afterChecks (.lsbExtract raw) s <| fun _ =>
    match extractFrame s with
    | .error e => .error e
    | .ok x =>
      let q := payloadText raw x.payload
      dstCommit s q none (some (dropped raw x.payload)) (frameResults q.length x.bits x.samples)

/-- LSB.EMBED (R168): frame a message and pack it into the carrier. -/
def execLsbEmbed (s : State) : Host.Outcome State Fault Refusal := .next (complete (lsbEmbedRule s) s)

/-- LSB.EXTRACT (R169): read a frame back from the carrier. -/
def execLsbExtract (raw : Bool) (s : State) : Host.Outcome State Fault Refusal :=
  .next (complete (lsbExtractRule raw s) s)

end Sys2Proof.Machine
end

