-- ==== Sys2Proof/Machine/Sub.lean ====
section
/-! DEFINITION. The SUB unit (spec/40_substitution.md): normalisation, the CipherMatrix, digraphs, the pair rules, and the
commands SUB.KEY, SUB.ENC and SUB.DEC. -/

namespace Sys2Proof.Machine

/-- One byte of Normalise (R110): uppercase it, fold `J` into `I`, drop what is no letter. -/
def normByte (b : Byte) : Option Byte :=
  let u := if 0x61#8 ≤ b ∧ b ≤ 0x7A#8 then b - 0x20#8 else b
  if 0x41#8 ≤ u ∧ u ≤ 0x5A#8 then some (if u = Config.mergeFrom then Config.mergeTo else u) else none

/-- Normalise (R110). -/
def normalise (s : List Byte) : List Byte := s.filterMap normByte

/-- Append the bytes of `bs` that have not occurred yet, in order of first occurrence (R111). -/
def appendNew (seq bs : List Byte) : List Byte :=
  bs.foldl (fun acc b => if b ∈ acc then acc else acc ++ [b]) seq

/-- The key letters of BuildMatrix: deduplicated, in order (R111). -/
def keyLetters (k : List Byte) : List Byte := appendNew [] k

/-- BuildMatrix's `seq`: the key letters, then the rest of the alphabet in order (R111). -/
def buildSeq (k : List Byte) : List Byte := appendNew (keyLetters k) Config.alphabet

/-- The register file MATRIX that holds a sequence row-major (R35). `buildSeq` gives exactly 25 bytes (R112); log 10. -/
def matrixOf (seq : List Byte) : Vector Byte 25 := ⟨⟨(List.range 25).map fun k => seq.getD k 0⟩, by simp⟩

/-- BuildMatrix (R111): the matrix. -/
def buildMatrix (k : List Byte) : Vector Byte 25 := matrixOf (buildSeq k)

/-- POS (R37, R113): row and column of a letter; a free value for a byte in no cell (log 4). -/
def pos (m : Vector Byte 25) (l : Byte) : Nat × Nat :=
  match m.toList.findIdx? (· == l) with
  | some k => (k / 5, k % 5)
  | none => Config.undefinedPos l

/-- CELL (R113): the wrap at 5 is `mod 5`. -/
def cell (m : Vector Byte 25) (r c : Nat) : Byte := m[5 * (r % 5) + c % 5]'(by omega)

/-- Digraphs (R114). -/
def digraphs : List Byte → List (Byte × Byte)
  | [] => []
  | [a] => [(a, Config.fill)]
  | a :: b :: t => if b = a then (a, Config.fill) :: digraphs (b :: t) else (a, b) :: digraphs t

/-- The shift of R115 (`by = 1`) and R116 (`by = 4`): same row, then same column, then rectangle. -/
def shiftPair (m : Vector Byte 25) (step : Nat) (p : Byte × Byte) : Byte × Byte :=
  let (r1, c1) := pos m p.1
  let (r2, c2) := pos m p.2
  if r1 = r2 then (cell m r1 (c1 + step), cell m r2 (c2 + step))
  else if c1 = c2 then (cell m (r1 + step) c1, cell m (r2 + step) c2)
  else (cell m r1 c2, cell m r2 c1)

/-- EncPair (R115): one to the right, one down. -/
def encPair (m : Vector Byte 25) (p : Byte × Byte) : Byte × Byte := shiftPair m 1 p

/-- DecPair (R116): one to the left, one up, which is `+ 4 mod 5`. -/
def decPair (m : Vector Byte 25) (p : Byte × Byte) : Byte × Byte := shiftPair m 4 p

/-- The concatenation of pairs in order. -/
def concatPairs (ps : List (Byte × Byte)) : List Byte := ps.flatMap fun p => [p.1, p.2]

/-- Substitution encrypt of a text under a matrix (R118): normalise, split, encrypt each digraph. -/
def subEncrypt (m : Vector Byte 25) (text : List Byte) : List Byte :=
  concatPairs ((digraphs (normalise text)).map (encPair m))

/-- The fixed-width pairs of an even-length text (R119). -/
def fixedPairs : List Byte → List (Byte × Byte)
  | a :: b :: t => (a, b) :: fixedPairs t
  | _ => []

/-- Substitution decrypt of an even-length text of matrix letters (R119). -/
def subDecrypt (m : Vector Byte 25) (c : List Byte) : List Byte := concatPairs ((fixedPairs c).map (decPair m))

/-- The offset of the first byte that is in no cell (R119). -/
def firstForeign (m : Vector Byte 25) (c : List Byte) : Option Nat := c.findIdx? fun b => !m.toList.contains b

/-- The input checks of substitution decrypt (R119, R214 step 9): INPUT_ODD, then INPUT_CHAR at the lowest offset. -/
def checkCipherText (m : Vector Byte 25) (c : List Byte) : Option Raised :=
  if c.length % 2 = 1 then some ⟨.inputOdd, word c.length⟩
  else (firstForeign m c).map fun i => ⟨.inputChar, word i⟩

/-- The key checks of R214 step 8 and R117, then what `body` does with the normalised key: INVALID_KEY 0 for an empty
passphrase, INVALID_KEY 1 for one with no letter. -/
def withKey (s : State) (body : List Byte → Except Raised Commit) : Except Raised Commit :=
  if s.params.keyLen = 0 then .error ⟨.invalidKey, 0⟩
  else if normalise (keyBytes s) = [] then .error ⟨.invalidKey, 1⟩
  else body (normalise (keyBytes s))

/-- The rule of SUB.KEY (R117). -/
def subKeyRule (s : State) : Except Raised Commit :=
  afterChecks .subKey s <| fun _ => withKey s fun k =>
    .ok { store := none, matrix := some (buildMatrix k), utf8Drop := none,
          results := some (lengthResults (keyLetters k).length) }

/-- The rule of SUB.ENC (R118). -/
def subEncRule (s : State) : Except Raised Commit :=
  afterChecks .subEnc s <| fun _ =>
    if !s.status.keyValid then .error ⟨.noKey, 0⟩
    else
      let out := subEncrypt s.matrix (srcBytes s)
      dstCommit s out none none (lengthResults out.length)

/-- The rule of SUB.DEC (R119). -/
def subDecRule (s : State) : Except Raised Commit :=
  afterChecks .subDec s <| fun _ =>
    if !s.status.keyValid then .error ⟨.noKey, 0⟩
    else
      match checkCipherText s.matrix (srcBytes s) with
      | some e => .error e
      | none =>
        let out := subDecrypt s.matrix (srcBytes s)
        dstCommit s out none none (lengthResults out.length)

/-- SUB.KEY (R117): build the CipherMatrix from the passphrase. -/
def execSubKey (s : State) : Host.Outcome State Fault Refusal := .next (complete (subKeyRule s) s)

/-- SUB.ENC (R118): substitution-encrypt a text with the current matrix. -/
def execSubEnc (s : State) : Host.Outcome State Fault Refusal := .next (complete (subEncRule s) s)

/-- SUB.DEC (R119): substitution-decrypt a ciphertext with the current matrix. -/
def execSubDec (s : State) : Host.Outcome State Fault Refusal := .next (complete (subDecRule s) s)

end Sys2Proof.Machine
end

