-- ==== Sys2Proof/Machine/Zz.lean ====
section
/-! DEFINITION. The ZZ unit (spec/41_transposition.md): the rail pointer, the zig-zag readout and its inverse, and the commands
ZZ.ENC and ZZ.DEC. -/

namespace Sys2Proof.Machine

/-- The direction bit DIR (R140). -/
inductive Dir where
  | down | up
deriving DecidableEq, Repr

/-- The flip of DIR. -/
def Dir.flip : Dir → Dir
  | .down => .up
  | .up => .down

/-- The rail pointer of R140 over `n` positions from RAIL and DIR: flip at rail 0 and rail R - 1, place, move. With R = 1 it
never flips or moves. -/
def railWalk (R : Nat) : (rail : Nat) → (dir : Dir) → (n : Nat) → List Nat
  | _, _, 0 => []
  | rail, dir, n + 1 =>
    let dir := if 2 ≤ R ∧ (rail = 0 ∨ rail = R - 1) then dir.flip else dir
    let next := if 2 ≤ R then (match dir with | .down => rail + 1 | .up => rail - 1) else rail
    rail :: railWalk R next dir n

/-- The rail sequence `rail(0) .. rail(n-1)`: from rail 0 with DIR = UP (R140). -/
def railSeq (R n : Nat) : List Nat := railWalk R 0 .up n

/-- The entries of `xs` whose positions are on rail `r`, in order. -/
def onRail (rails : List Nat) (r : Nat) (xs : List α) : List α :=
  (rails.zip xs).filterMap fun p => if p.1 = r then some p.2 else none

/-- Read out a sequence rail by rail. Only rails below min(R, n) hold slots (R142), so only those are read (log 11). -/
def railMajor (R : Nat) (xs : List α) : List α :=
  (List.range (min R xs.length)).flatMap fun r => onRail (railSeq R xs.length) r xs

/-- ZZEnc (R143). -/
def zzEncrypt (t : List Byte) (R : Nat) : List Byte := railMajor R t

/-- ZZDec (R144): mark each position's rail, fill the marked slots rail-major with the cipher bytes, read in position order. -/
def zzDecrypt (c : List Byte) (R : Nat) : List Byte :=
  let slots := (railMajor R (List.range c.length)).zip c
  (List.range c.length).filterMap fun i => slots.lookup i

/-- The rule of ZZ.ENC (R145). -/
def zzEncRule (s : State) : Except Raised Commit :=
  afterChecks .zzEnc s <| fun _ =>
    let out := zzEncrypt (srcBytes s) s.params.rails.toNat
    dstCommit s out none none (lengthResults out.length)

/-- The rule of ZZ.DEC (R146). -/
def zzDecRule (s : State) : Except Raised Commit :=
  afterChecks .zzDec s <| fun _ =>
    let out := zzDecrypt (srcBytes s) s.params.rails.toNat
    dstCommit s out none none (lengthResults out.length)

/-- ZZ.ENC (R145): zig-zag encrypt a byte string. -/
def execZzEnc (s : State) : Host.Outcome State Fault Refusal := .next (complete (zzEncRule s) s)

/-- ZZ.DEC (R146): zig-zag decrypt a byte string. -/
def execZzDec (s : State) : Host.Outcome State Fault Refusal := .next (complete (zzDecRule s) s)

end Sys2Proof.Machine
end

