-- ==== Sys2Proof/Machine/Pipe.lean ====
section
/-! DEFINITION. NOP and the composite commands PIPE.ENC and PIPE.DEC (spec/43_pipeline.md). -/

namespace Sys2Proof.Machine

/-- The rule of NOP (R190): no check applies and nothing is written. -/
def nopRule (_ : State) : Except Raised Commit :=
  .ok { store := none, matrix := none, utf8Drop := none, results := none }

/-- The ciphertext PIPE.ENC embeds: substitution, then transposition, under the working matrix (R191). -/
def pipeCipher (m : Vector Byte 25) (text : List Byte) (R : Nat) : List Byte := zzEncrypt (subEncrypt m text) R

/-- The rule of PIPE.ENC (R191). -/
def pipeEncRule (s : State) : Except Raised Commit :=
  afterChecks .pipeEnc s <| fun _ => withKey s fun k =>
    embedCommit s (pipeCipher (buildMatrix k) (srcBytes s) s.params.rails.toNat) (some (buildMatrix k))

/-- The rule of PIPE.DEC (R192). -/
def pipeDecRule (raw : Bool) (s : State) : Except Raised Commit :=
  afterChecks (.pipeDec raw) s <| fun _ => withKey s fun k =>
    match extractFrame s with
    | .error e => .error e
    | .ok x =>
      let c := zzDecrypt (payloadText raw x.payload) s.params.rails.toNat
      match checkCipherText (buildMatrix k) c with
      | some e => .error e
      | none =>
        let out := subDecrypt (buildMatrix k) c
        dstCommit s out (some (buildMatrix k)) (some (dropped raw x.payload))
          (frameResults out.length x.bits x.samples)

/-- NOP (R190): complete at once and change nothing. -/
def execNop (s : State) : Host.Outcome State Fault Refusal := .next (complete (nopRule s) s)

/-- PIPE.ENC (R191): build the key, substitution-encrypt, zig-zag-encrypt, embed. -/
def execPipeEnc (s : State) : Host.Outcome State Fault Refusal := .next (complete (pipeEncRule s) s)

/-- PIPE.DEC (R192): build the key, extract, zig-zag-decrypt, substitution-decrypt. -/
def execPipeDec (raw : Bool) (s : State) : Host.Outcome State Fault Refusal :=
  .next (complete (pipeDecRule raw s) s)

end Sys2Proof.Machine
end

