-- ==== Sys2Proof/Machine/Dispatch.lean ====
section
/-! DEFINITION. One arm per command: its meaning, the completion of the command on the state at acceptance (R218, R222). -/

namespace Sys2Proof.Machine

def exec (i : Instr) (s : State) : Host.Outcome State Fault Refusal :=
  match i with
  | .nop => Sys2Proof.Machine.execNop s
  | .subKey => Sys2Proof.Machine.execSubKey s
  | .subEnc => Sys2Proof.Machine.execSubEnc s
  | .subDec => Sys2Proof.Machine.execSubDec s
  | .zzEnc => Sys2Proof.Machine.execZzEnc s
  | .zzDec => Sys2Proof.Machine.execZzDec s
  | .lsbEmbed => Sys2Proof.Machine.execLsbEmbed s
  | .lsbExtract raw => Sys2Proof.Machine.execLsbExtract raw s
  | .pipeEnc => Sys2Proof.Machine.execPipeEnc s
  | .pipeDec raw => Sys2Proof.Machine.execPipeDec raw s

end Sys2Proof.Machine
end

