-- ==== Sys2Proof/Machine/Engine.lean ====
section
/-! DEFINITION. What one step does: the engine's completion (spec/60_exceptions.md R218), the delivery of the next event, and how
an instruction is placed where the engine runs it next. -/

namespace Sys2Proof.Machine

/-- The error of an illegal command word: BADCMD with the whole word (R94, R213). -/
def badCommand (w : Word) : Raised := ⟨.badCmd, w⟩

/-- The completion of the command in CMD (R218): decode, run, or BADCMD for an illegal word (R94, R214 step 1). -/
def engineStep (s : State) : Host.Outcome State Fault Refusal :=
  match decode (fetch s) with
  | .ok i => exec i s
  | .error _ => .next (raise (badCommand (fetch s)) s)

/-- Time passes: a running command completes; an IDLE engine waits (R41, R241). -/
def engineTurn (s : State) : Host.Outcome State Fault Refusal :=
  match s.phase with
  | .busy => engineStep s
  | .idle => .next s

/-- Record what an access answered. -/
def reply (r : Reply) (s : State) : State := { s with replies := r :: s.replies }

/-- The host issues one access (R77). A bus error changes nothing and does not disturb the engine (R231, R232): the fault is the
access's reply (log 7). An access outside the aperture ends the step (log 8). -/
def hostTurn (a : Access) (s : State) : Host.Outcome State Fault Refusal :=
  match busAccess s a with
  | .ok (s', r) => .next (reply r s')
  | .error .busError => .next (reply (.fault .busError) s)
  | .error .outsideAperture => .fault .outsideAperture

/-- The host's read of STATUS in the loop of `wait` (R98). -/
def statusRead : Access := .read (word (Reg.offset .status)) .w32

/-- What the loop of `wait` still does after a read of STATUS that gave `v` (R98): nothing when bit 0 is 0, else the next read,
before which a command that outlasts no more reads completes (R251). -/
def pollRest (v : Word) (more : Nat) : List Event :=
  if v.getLsbD 0 then
    match more with
    | 0 => [.completion, .pollIdle 0]
    | n + 1 => [.pollIdle n]
  else []

/-- One round of the loop of `wait`: a host read of STATUS, and what its value leaves of the loop (R98). -/
def pollTurn (more : Nat) (s : State) : Host.Outcome State Fault Refusal :=
  hostTurn statusRead { s with events := pollRest (statusWord s) more ++ s.events }

/-- Deliver one event (R77, R98, R240, R251). -/
def deliver (e : Event) (s : State) : Host.Outcome State Fault Refusal :=
  match e with
  | .host a => hostTurn a s
  | .completion => engineTurn s
  | .reset => .next (platformReset s)
  | .pollIdle more => pollTurn more s

/-- One step: the next event; with none left a running command completes, since its latency is finite (R251), and an IDLE engine
waits. -/
def nextStep (s : State) : Host.Outcome State Fault Refusal :=
  match s.events with
  | [] => engineTurn s
  | e :: es => deliver e { s with events := es }

/-- The state in which command word `w` has been accepted and completes in the very next step (log 9). -/
def placeCommand (w : Word) (s : State) : State := { accept w s with events := .completion :: s.events }

end Sys2Proof.Machine
end

