-- ==== Sys2Proof/Safety.lean ====
section
/-! DEFINITION. What the claims speak of: the invariant of the machine, the conditions under which a command succeeds, the tables of
which errors and operands a command has, written from the spec's rules and not from the machine's own checks. -/

namespace Sys2Proof.Safety

open Sys2Proof.Machine

/-- 25 distinct uppercase letters, none MERGE_FROM (R35, R112). -/
abbrev MatrixOk (m : Vector Byte 25) : Prop :=
  m.toList.Nodup ∧ ∀ b ∈ m.toList, 0x41#8 ≤ b ∧ b ≤ 0x5A#8 ∧ b ≠ 0x4A#8

/-- MATRIX holds a CipherMatrix when KEY_VALID = 1 and only 0x00 when KEY_VALID = 0 (R35). -/
abbrev MatrixInv (s : State) : Prop :=
  if s.status.keyValid then MatrixOk s.matrix else s.matrix = Vector.replicate 25 0

/-- While a command runs, the report of the last one is cleared (R45). -/
abbrev BusyInv (s : State) : Prop :=
  s.phase = .busy →
    s.status.done = false ∧ s.status.err = false ∧ s.status.utf8Drop = false ∧ s.status.errCode = .none ∧ s.errInfo = 0

/-- No error code, no error detail and no ERR (R27, R31, R33). -/
abbrev ReportInv (s : State) : Prop :=
  s.status.errCode = .none → s.status.err = false ∧ s.errInfo = 0

/-- The result registers hold no frame, or a frame of whole bytes with BITCOUNT = 32 + L of at most 2^26 bits (R39). -/
abbrev ResultsInv (s : State) : Prop :=
  (s.results.frameLen = 0 ∧ s.results.bitCount = 0 ∧ s.results.samplesUsed = 0) ∨
  (s.results.bitCount.toNat = 32 + s.results.frameLen.toNat ∧ s.results.frameLen.toNat % 8 = 0 ∧
    s.results.bitCount.toNat ≤ 2 ^ 26 ∧ 0 < s.results.samplesUsed.toNat)

/-- The invariant that every step keeps: BUF is in canonical form and inside BUF_BYTES, and the four register invariants. -/
abbrev Inv (s : State) : Prop :=
  Memory.wf s.buf ∧ Memory.below (bufBytes s) s.buf ∧ MatrixInv s ∧ BusyInv s ∧ ReportInv s ∧ ResultsInv s

/-- A region `[base, base + len)` is in range (R71). -/
abbrev InRange (s : State) (base len : Nat) : Prop := len = 0 ∨ base + len ≤ bufBytes s

/-- Two regions do not overlap (R72). -/
abbrev Apart (b1 l1 b2 l2 : Nat) : Prop := l1 = 0 ∨ l2 = 0 ∨ b1 + l1 ≤ b2 ∨ b2 + l2 ≤ b1

/-- KEY is in range (R71). -/
abbrev KeyInRange (s : State) : Prop := InRange s s.params.keyAddr.toNat s.params.keyLen.toNat

/-- SRC is in range (R71). -/
abbrev SrcInRange (s : State) : Prop := InRange s s.params.srcAddr.toNat s.params.srcLen.toNat

/-- DST is in range (R71). -/
abbrev DstInRange (s : State) : Prop := InRange s s.params.dstAddr.toNat s.params.dstCap.toNat

/-- SRC and DST do not overlap (R72). -/
abbrev SrcDstApart (s : State) : Prop :=
  Apart s.params.srcAddr.toNat s.params.srcLen.toNat s.params.dstAddr.toNat s.params.dstCap.toNat

/-- The text commands' register checks all pass (R214 steps 6 and 7). -/
abbrev TextReady (s : State) : Prop := SrcInRange s ∧ DstInRange s ∧ SrcDstApart s

/-- E (R70). -/
abbrev sampleWidth (s : State) : Nat := if s.params.sfmt = 0 then 2 else 4

/-- CFG is legal (R38). -/
abbrev CfgLegal (s : State) : Prop :=
  s.params.sfmt.toNat ≤ 1 ∧ 1 ≤ s.params.depth.toNat ∧ s.params.depth.toNat ≤ 8

/-- SMPI is aligned and in range (R71, R73). -/
abbrev SmpiReady (s : State) : Prop :=
  s.params.smpSrc.toNat % sampleWidth s = 0 ∧
  InRange s s.params.smpSrc.toNat (sampleWidth s * s.params.smpCount.toNat)

/-- SMPO is aligned and in range (R71, R73). -/
abbrev SmpoReady (s : State) : Prop :=
  s.params.smpDst.toNat % 2 = 0 ∧ InRange s s.params.smpDst.toNat (2 * s.params.smpCount.toNat)

/-- SMPO overlaps neither SMPI, but in place with SFMT = 0, nor a read region `[base, base + len)` (R72). -/
abbrev SmpoApartFrom (s : State) (base len : Nat) : Prop :=
  Apart base len s.params.smpDst.toNat (2 * s.params.smpCount.toNat)

/-- SMPI and SMPO do not raise OVERLAP (R72). -/
abbrev SmpiSmpoApart (s : State) : Prop :=
  SmpoApartFrom s s.params.smpSrc.toNat (sampleWidth s * s.params.smpCount.toNat) ∨
  (s.params.smpSrc = s.params.smpDst ∧ s.params.sfmt = 0)

/-- The register checks of LSB.EMBED all pass (R168, R214 steps 2 to 7). -/
abbrev EmbedReady (s : State) : Prop :=
  CfgLegal s ∧ SmpiReady s ∧ SmpoReady s ∧ SrcInRange s ∧
  SmpoApartFrom s s.params.srcAddr.toNat s.params.srcLen.toNat ∧ SmpiSmpoApart s

/-- The register checks of LSB.EXTRACT all pass (R169, R214 steps 2 to 7). -/
abbrev ExtractReady (s : State) : Prop :=
  CfgLegal s ∧ SmpiReady s ∧ DstInRange s ∧
  Apart s.params.dstAddr.toNat s.params.dstCap.toNat s.params.smpSrc.toNat (sampleWidth s * s.params.smpCount.toNat)

/-- The passphrase holds a letter (R117). -/
abbrev KeyHasLetter (s : State) : Prop := normalise (keyBytes s) ≠ []

/-- The register and key checks of PIPE.ENC all pass (R191, R214 steps 2 to 8). -/
abbrev PipeEncReady (s : State) : Prop :=
  EmbedReady s ∧ s.params.rails ≠ 0 ∧ KeyInRange s ∧
  SmpoApartFrom s s.params.keyAddr.toNat s.params.keyLen.toNat ∧ KeyHasLetter s

/-- The register and key checks of PIPE.DEC all pass (R192, R214 steps 2 to 8). -/
abbrev PipeDecReady (s : State) : Prop :=
  ExtractReady s ∧ s.params.rails ≠ 0 ∧ KeyInRange s ∧
  Apart s.params.keyAddr.toNat s.params.keyLen.toNat s.params.dstAddr.toNat s.params.dstCap.toNat ∧ KeyHasLetter s

/-- What a success leaves: the engine IDLE, DONE set, `out` stored at `base` and no other byte changed, `results` in the result
registers, MATRIX and KEY_VALID as given, UTF8_DROP as given, and everything else as in `s` (R218). -/
abbrev Succeeds (s t : State) (base : Nat) (out : List Byte) (results : Results) (matrix : Vector Byte 25)
    (keyValid utf8Drop : Bool) : Prop :=
  t = { s with
        phase := .idle
        status := { s.status with done := true, keyValid := keyValid, utf8Drop := utf8Drop }
        results := results
        matrix := matrix
        buf := t.buf } ∧
  (∀ j (h : j < out.length), bufByte t (base + j) = out[j]) ∧
  (∀ a, a < base ∨ base + out.length ≤ a → bufByte t a = bufByte s a)

/-- What an error leaves: the report of R215 and everything else as in `s`. -/
abbrev Fails (s t : State) (code : ErrorCode) (info : Nat) : Prop :=
  t = { s with
        phase := .idle
        status := { s.status with done := true, err := true, errCode := code }
        errInfo := BitVec.ofNat 32 info }

/-- The first entry whose condition holds (R214). -/
def firstError : List (Bool × ErrorCode × Nat) → Option (ErrorCode × Nat)
  | [] => none
  | (true, e) :: _ => some e
  | (false, _) :: rest => firstError rest

/-- d, the bit depth (R38). -/
abbrev depth (s : State) : Nat := s.params.depth.toNat

/-- N (R65). -/
abbrev samples (s : State) : Nat := s.params.smpCount.toNat

/-- The samples that hold a prefix and `L` payload bits (R164): ceil((32 + L) / d). -/
abbrev frameSamples (s : State) (L : Nat) : Nat := (32 + L + depth s - 1) / depth s

/-- The errors of SUB.KEY in the order of R214 (R117). -/
def subKeyErrors (s : State) : List (Bool × ErrorCode × Nat) :=
  [(decide (¬ KeyInRange s), .range, 0), (decide (s.params.keyLen = 0), .invalidKey, 0),
    (decide (normalise (keyBytes s) = []), .invalidKey, 1)]

/-- The errors of SUB.ENC (R118). -/
def subEncErrors (s : State) : List (Bool × ErrorCode × Nat) :=
  let out := subEncrypt s.matrix (srcBytes s)
  [(decide (¬ SrcInRange s), .range, 1), (decide (¬ DstInRange s), .range, 2), (decide (¬ SrcDstApart s), .overlap, 0x21),
    (!s.status.keyValid, .noKey, 0), (decide (s.params.dstCap.toNat < out.length), .dstCap, out.length)]

/-- Every byte of `ct` before offset `j` is a letter of `m`. -/
abbrev LettersBefore (j : Nat) (ct : List Byte) (m : Vector Byte 25) : Prop := ∀ b ∈ ct.take j, b ∈ m.toList

/-- The input errors of substitution decrypt, where no byte before offset `j` is foreign (R119). -/
def cipherErrors (ct : List Byte) (m : Vector Byte 25) (cap j : Nat) : List (Bool × ErrorCode × Nat) :=
  [(decide (ct.length % 2 = 1), .inputOdd, ct.length), (decide (∃ h : j < ct.length, ct[j] ∉ m.toList), .inputChar, j),
    (decide ((∀ b ∈ ct, b ∈ m.toList) ∧ cap < ct.length), .dstCap, ct.length)]

/-- The errors of SUB.DEC (R119). -/
def subDecErrors (s : State) (j : Nat) : List (Bool × ErrorCode × Nat) :=
  [(decide (¬ SrcInRange s), .range, 1), (decide (¬ DstInRange s), .range, 2), (decide (¬ SrcDstApart s), .overlap, 0x21),
    (!s.status.keyValid, .noKey, 0)] ++ cipherErrors (srcBytes s) s.matrix s.params.dstCap.toNat j

/-- The errors of ZZ.ENC and ZZ.DEC (R145, R146). -/
def zzErrors (s : State) : List (Bool × ErrorCode × Nat) :=
  [(decide (s.params.rails = 0), .invalidKey, 2), (decide (¬ SrcInRange s), .range, 1), (decide (¬ DstInRange s), .range, 2),
    (decide (¬ SrcDstApart s), .overlap, 0x21),
    (decide (s.params.dstCap.toNat < s.params.srcLen.toNat), .dstCap, s.params.srcLen.toNat)]

/-- The errors of CFG (R38, R214 steps 2 and 3). -/
def cfgErrors (s : State) : List (Bool × ErrorCode × Nat) :=
  [(decide (1 < s.params.sfmt.toNat), .unsupportedFormat, s.params.sfmt.toNat),
    (decide (depth s < 1 ∨ 8 < depth s), .param, depth s)]

/-- ALIGN of SMP_SRC (R73). -/
def alignSrcError (s : State) : Bool × ErrorCode × Nat :=
  (decide (s.params.smpSrc.toNat % sampleWidth s ≠ 0), .align, s.params.smpSrc.toNat)

/-- ALIGN of SMP_DST (R73). -/
def alignDstError (s : State) : Bool × ErrorCode × Nat :=
  (decide (s.params.smpDst.toNat % 2 ≠ 0), .align, s.params.smpDst.toNat)

/-- RANGE of SMPI (R71). -/
def smpiRangeError (s : State) : Bool × ErrorCode × Nat :=
  (decide (¬ InRange s s.params.smpSrc.toNat (sampleWidth s * samples s)), .range, 3)

/-- RANGE of SMPO (R71). -/
def smpoRangeError (s : State) : Bool × ErrorCode × Nat :=
  (decide (¬ InRange s s.params.smpDst.toNat (2 * samples s)), .range, 4)

/-- The errors of LSB.EMBED (R168). -/
def lsbEmbedErrors (s : State) : List (Bool × ErrorCode × Nat) :=
  let K := frameSamples s (8 * s.params.srcLen.toNat)
  cfgErrors s ++
    [alignSrcError s, alignDstError s, (decide (¬ SrcInRange s), .range, 1), smpiRangeError s, smpoRangeError s,
      (decide (¬ SmpoApartFrom s s.params.srcAddr.toNat s.params.srcLen.toNat), .overlap, 0x41),
      (decide (¬ SmpiSmpoApart s), .overlap, 0x43), (decide (samples s < K), .capacity, K)]

/-- L, the payload bits that a carrier's first 32 low bits state (R169). -/
def statedBits (s : State) : Nat := prefixLength (streamBits (depth s) (carriers s (frameSamples s 0)))

/-- The payload of a carrier's frame, filtered unless RAW (R169). -/
def statedText (raw : Bool) (s : State) : List Byte :=
  let p := payloadBytes (streamBits (depth s) (carriers s (frameSamples s (statedBits s)))) (statedBits s)
  if raw then p else utf8Filter p

/-- The errors of reading a frame: CAPACITY with H, FRAME with L, CAPACITY with K (R169). -/
def frameErrors (s : State) : List (Bool × ErrorCode × Nat) :=
  let K := frameSamples s (statedBits s)
  [(decide (samples s < frameSamples s 0), .capacity, frameSamples s 0),
    (decide (statedBits s % 8 ≠ 0), .frame, statedBits s), (decide (samples s < K), .capacity, min K 0xFFFFFFFF)]

/-- OVERLAP of DST and SMPI (R72). -/
def dstSmpiError (s : State) : Bool × ErrorCode × Nat :=
  (decide (¬ Apart s.params.dstAddr.toNat s.params.dstCap.toNat s.params.smpSrc.toNat (sampleWidth s * samples s)),
    .overlap, 0x32)

/-- The errors of LSB.EXTRACT (R169). -/
def lsbExtractErrors (raw : Bool) (s : State) : List (Bool × ErrorCode × Nat) :=
  cfgErrors s ++ [alignSrcError s, (decide (¬ DstInRange s), .range, 2), smpiRangeError s, dstSmpiError s] ++
    frameErrors s ++
    [(decide (s.params.dstCap.toNat < (statedText raw s).length), .dstCap, (statedText raw s).length)]

/-- The matrix of the key in BUF (R191, R192). -/
def keyMatrix (s : State) : Vector Byte 25 := buildMatrix (normalise (keyBytes s))

/-- The errors of the passphrase (R214 step 8). -/
def passphraseErrors (s : State) : List (Bool × ErrorCode × Nat) :=
  [(decide (s.params.keyLen = 0), .invalidKey, 0), (decide (normalise (keyBytes s) = []), .invalidKey, 1)]

/-- The errors of PIPE.ENC (R191). -/
def pipeEncErrors (s : State) : List (Bool × ErrorCode × Nat) :=
  let K := frameSamples s (8 * (zzEncrypt (subEncrypt (keyMatrix s) (srcBytes s)) s.params.rails.toNat).length)
  cfgErrors s ++
    [(decide (s.params.rails = 0), .invalidKey, 2), alignSrcError s, alignDstError s, (decide (¬ KeyInRange s), .range, 0),
      (decide (¬ SrcInRange s), .range, 1), smpiRangeError s, smpoRangeError s,
      (decide (¬ SmpoApartFrom s s.params.keyAddr.toNat s.params.keyLen.toNat), .overlap, 0x40),
      (decide (¬ SmpoApartFrom s s.params.srcAddr.toNat s.params.srcLen.toNat), .overlap, 0x41),
      (decide (¬ SmpiSmpoApart s), .overlap, 0x43)] ++
    passphraseErrors s ++ [(decide (samples s < K), .capacity, K)]

/-- The transposition-decrypted text of a carrier's frame, the input of PIPE.DEC's substitution decrypt (R192). -/
def pipePlain (raw : Bool) (s : State) : List Byte := zzDecrypt (statedText raw s) s.params.rails.toNat

/-- The errors of PIPE.DEC (R192). -/
def pipeDecErrors (raw : Bool) (s : State) (j : Nat) : List (Bool × ErrorCode × Nat) :=
  cfgErrors s ++
    [(decide (s.params.rails = 0), .invalidKey, 2), alignSrcError s, (decide (¬ KeyInRange s), .range, 0),
      (decide (¬ DstInRange s), .range, 2), smpiRangeError s,
      (decide (¬ Apart s.params.keyAddr.toNat s.params.keyLen.toNat s.params.dstAddr.toNat s.params.dstCap.toNat),
        .overlap, 0x20), dstSmpiError s] ++
    passphraseErrors s ++ frameErrors s ++ cipherErrors (pipePlain raw s) (keyMatrix s) s.params.dstCap.toNat j

/-- The register map of R22, written out: offset, register, and the value the register holds. -/
def registerMap (s : State) : List (Word × Reg × Word) :=
  [(0x000, .id, 0x43430007), (0x004, .cmd, s.cmd), (0x008, .status, statusWord s), (0x00C, .irqEn, irqEnWord s.irqEn),
    (0x010, .errInfo, s.errInfo), (0x014, .keyAddr, s.params.keyAddr), (0x018, .keyLen, s.params.keyLen),
    (0x01C, .srcAddr, s.params.srcAddr), (0x020, .srcLen, s.params.srcLen), (0x024, .dstAddr, s.params.dstAddr),
    (0x028, .dstCap, s.params.dstCap), (0x02C, .smpSrc, s.params.smpSrc), (0x030, .smpDst, s.params.smpDst),
    (0x034, .smpCount, s.params.smpCount), (0x038, .cfg, cfgWord s.params), (0x03C, .rails, s.params.rails),
    (0x040, .resultLen, s.results.resultLen), (0x044, .frameLen, s.results.frameLen),
    (0x048, .bitCount, s.results.bitCount), (0x04C, .samplesUsed, s.results.samplesUsed),
    (0x050, .bufSize, BitVec.ofNat 32 (2 ^ (8 + s.bufLog.val))), (0x080, .matrix 0, matrixWord s.matrix 0),
    (0x084, .matrix 1, matrixWord s.matrix 1), (0x088, .matrix 2, matrixWord s.matrix 2),
    (0x08C, .matrix 3, matrixWord s.matrix 3), (0x090, .matrix 4, matrixWord s.matrix 4),
    (0x094, .matrix 5, matrixWord s.matrix 5), (0x098, .matrix 6, matrixWord s.matrix 6)]

/-- The codes of R210's table, written out. -/
def errorCodes : List (ErrorCode × Byte) :=
  [(.none, 0x00), (.badCmd, 0x01), (.invalidKey, 0x02), (.noKey, 0x03), (.param, 0x04), (.unsupportedFormat, 0x05),
    (.align, 0x06), (.range, 0x07), (.overlap, 0x08), (.inputOdd, 0x09), (.inputChar, 0x0A), (.capacity, 0x0B),
    (.frame, 0x0C), (.dstCap, 0x0D)]

/-- The errors each command can raise (R210). -/
def raisable : Instr → List ErrorCode
  | .nop => []
  | .subKey => [.invalidKey, .range]
  | .subEnc => [.noKey, .range, .overlap, .dstCap]
  | .subDec => [.noKey, .range, .overlap, .inputOdd, .inputChar, .dstCap]
  | .zzEnc | .zzDec => [.invalidKey, .range, .overlap, .dstCap]
  | .lsbEmbed => [.param, .unsupportedFormat, .align, .range, .overlap, .capacity]
  | .lsbExtract _ => [.param, .unsupportedFormat, .align, .range, .overlap, .capacity, .frame, .dstCap]
  | .pipeEnc => [.invalidKey, .param, .unsupportedFormat, .align, .range, .overlap, .capacity]
  | .pipeDec _ =>
    [.invalidKey, .param, .unsupportedFormat, .align, .range, .overlap, .inputOdd, .inputChar, .capacity, .frame, .dstCap]

/-- The parameter registers a command reads (R91) have the same values in both. -/
def operandsAgree (i : Instr) (p q : Params) : Prop :=
  match i with
  | .nop => True
  | .subKey => key
  | .subEnc | .subDec => src ∧ dst
  | .zzEnc | .zzDec => src ∧ dst ∧ p.rails = q.rails
  | .lsbEmbed => src ∧ smpi ∧ p.smpDst = q.smpDst
  | .lsbExtract _ => smpi ∧ dst
  | .pipeEnc => key ∧ src ∧ smpi ∧ p.smpDst = q.smpDst ∧ p.rails = q.rails
  | .pipeDec _ => key ∧ smpi ∧ dst ∧ p.rails = q.rails
where
  key : Prop := p.keyAddr = q.keyAddr ∧ p.keyLen = q.keyLen
  src : Prop := p.srcAddr = q.srcAddr ∧ p.srcLen = q.srcLen
  dst : Prop := p.dstAddr = q.dstAddr ∧ p.dstCap = q.dstCap
  smpi : Prop := p.smpSrc = q.smpSrc ∧ p.smpCount = q.smpCount ∧ p.depth = q.depth ∧ p.sfmt = q.sfmt

/-- The regions a command reads, as (base, length) (R70). -/
def readRegions (i : Instr) (s : State) : List (Nat × Nat) :=
  match i with
  | .nop => []
  | .subKey => [key]
  | .subEnc | .subDec | .zzEnc | .zzDec => [src]
  | .lsbEmbed => [src, smpi]
  | .lsbExtract _ => [smpi]
  | .pipeEnc => [key, src, smpi]
  | .pipeDec _ => [key, smpi]
where
  key : Nat × Nat := (s.params.keyAddr.toNat, s.params.keyLen.toNat)
  src : Nat × Nat := (s.params.srcAddr.toNat, s.params.srcLen.toNat)
  smpi : Nat × Nat := (s.params.smpSrc.toNat, sampleWidth s * s.params.smpCount.toNat)

/-- The region a command writes, as (base, length) (R70). -/
def writtenRegion (i : Instr) (s : State) : Option (Nat × Nat) :=
  match i with
  | .nop | .subKey => none
  | .subEnc | .subDec | .zzEnc | .zzDec | .lsbExtract _ | .pipeDec _ =>
    some (s.params.dstAddr.toNat, s.params.dstCap.toNat)
  | .lsbEmbed | .pipeEnc => some (s.params.smpDst.toNat, 2 * s.params.smpCount.toNat)

/-- An offset is inside a region. -/
abbrev Inside (a : Nat) (r : Nat × Nat) : Prop := r.1 ≤ a ∧ a < r.1 + r.2

/-- No digraph of the text comes from the FILL-inserting branch of R114. -/
def splitsEvenly : List Byte → Bool
  | [] => true
  | [_] => false
  | a :: b :: t => b ≠ a && splitsEvenly t

/-- `lo <= b <= hi`. -/
abbrev Between (lo hi b : Byte) : Prop := lo ≤ b ∧ b ≤ hi

/-- A byte string is one well-formed UTF-8 sequence: the rows of R167's table, by length. -/
def Utf8Sequence : List Byte → Prop
  | [a] => a ≤ 0x7F
  | [a, b] => Between 0xC2 0xDF a ∧ Between 0x80 0xBF b
  | [a, b, c] =>
    ((a = 0xE0 ∧ Between 0xA0 0xBF b) ∨ (Between 0xE1 0xEC a ∧ Between 0x80 0xBF b) ∨
      (a = 0xED ∧ Between 0x80 0x9F b) ∨ (Between 0xEE 0xEF a ∧ Between 0x80 0xBF b)) ∧ Between 0x80 0xBF c
  | [a, b, c, d] =>
    ((a = 0xF0 ∧ Between 0x90 0xBF b) ∨ (Between 0xF1 0xF3 a ∧ Between 0x80 0xBF b) ∨
      (a = 0xF4 ∧ Between 0x80 0x8F b)) ∧ Between 0x80 0xBF c ∧ Between 0x80 0xBF d
  | _ => False

/-- Well-formed UTF-8: a concatenation of well-formed sequences (R167). -/
abbrev WellFormedUtf8 (p : List Byte) : Prop :=
  ∃ seqs : List (List Byte), p = seqs.flatten ∧ ∀ q ∈ seqs, Utf8Sequence q

/-- The value of a finite binary32 pattern (R67): sign, 8-bit exponent, 23-bit fraction. -/
def binary32Value (x : Word) : ℚ :=
  let e := (x.extractLsb' 23 8).toNat
  let f := (x.extractLsb' 0 23).toNat
  let magnitude : ℚ := if e = 0 then f * 2 ^ (-149 : ℤ) else (2 ^ 23 + f) * 2 ^ ((e : ℤ) - 150)
  if x.getLsbD 31 then -magnitude else magnitude

/-- The pattern is finite: its exponent field is not 255. -/
abbrev Binary32Finite (x : Word) : Prop := x.extractLsb' 23 8 ≠ 255#8

end Sys2Proof.Safety
end

