-- ==== Sys2Proof/Certificates/Slice0/Obligations.lean ====
section
/-! DEFINITION. The statements for the provers. Each docstring names the rules of spec/ that the statement formalises. -/

open Sys2Proof Sys2Proof.Machine Sys2Proof.Safety

/-! ### Encoding -/

/-- R92: the opcode map, and with it the twelve legal command words. -/
def Obligations.OpcodeMapIsExact : Prop :=
  ∀ (w : Word) (i : Instr), decode w = .ok i ↔
    (w, i) ∈ [((0x00000000 : Word), Instr.nop), (0x00000001, .subKey), (0x00000002, .subEnc), (0x00000003, .subDec),
      (0x00000004, .zzEnc), (0x00000005, .zzDec), (0x00000006, .lsbEmbed), (0x00000007, .lsbExtract false),
      (0x00000107, .lsbExtract true), (0x00000008, .pipeEnc), (0x00000009, .pipeDec false), (0x00000109, .pipeDec true)]

/-- Decode and encode agree (R90, R92, R96; byte order R64): a byte string decodes to a command exactly when it is the bytes of that
command's word, for every command and every byte string. -/
def Obligations.BytesDecodeExactlyToTheirEncoding : Prop :=
  ∀ (bytes : List Byte) (i : Instr), i.wf = true ∧ decodeBytes bytes = .ok i ↔ bytes = wordBytes (encode i)

/-- R94: which words are illegal; an illegal word is still accepted, and completes with BADCMD and the whole word, changing nothing
else. -/
def Obligations.IllegalWordsCompleteWithBadCmd : Prop :=
  ∀ w : Word,
    ((w.toNat / 512 ≠ 0 ∨ 0x0A ≤ w.toNat % 256 ∨ (w.getLsbD 8 = true ∧ w.toNat % 256 ≠ 7 ∧ w.toNat % 256 ≠ 9)) ↔
      ∀ i, decode w ≠ .ok i) ∧
    ∀ s : State, (∀ i, decode w ≠ .ok i) → s.phase = .idle →
      ∃ t u, busAccess s (.write 0x004 .w32 w) = .ok (t, .written) ∧ t.phase = .busy ∧ t.cmd = w ∧
        engineStep t = .next u ∧ Fails t u .badCmd w.toNat

/-- Words written out from the encoding tables of R90 and R92 decode to their commands. -/
def Obligations.SpelledOutWordsDecode : Prop :=
  decode 0b00000000000000000000000000000000#32 = .ok .nop ∧
  decode 0b00000000000000000000000000000010#32 = .ok .subEnc ∧
  decode 0b00000000000000000000000000000101#32 = .ok .zzDec ∧
  decode 0b00000000000000000000000000000110#32 = .ok .lsbEmbed ∧
  decode 0b00000000000000000000000100000111#32 = .ok (.lsbExtract true) ∧
  decode 0b00000000000000000000000000001001#32 = .ok (.pipeDec false)

/-- A step runs the decoded command: where a command is running, its word in CMD decodes to `i`, and its completion is next (or no
event is left), the step is `exec i` on the state with that event taken. A word placed by `withFetchWord` runs in the very next step,
on the state of its acceptance. -/
def Obligations.StepRunsTheDecodedCommand : Prop :=
  (∀ (s : State) (i : Instr) (es : List Event), s.phase = .busy → decode s.cmd = .ok i →
    (s.events = [] → step s = exec i s) ∧
    (s.events = .completion :: es → step s = exec i { s with events := es })) ∧
  (∀ (s : State) (nbits w : Nat) (i : Instr), decodeTableWord nbits w = some i →
    step (s.withFetchWord nbits w) = exec i (accept (BitVec.ofNat 32 (w % 2 ^ nbits)) s))

/-! ### Reset and the invariant -/

/-- R241: every register after reset, for every legal BUF_BYTES; every BUF byte is an unconstrained draw (the free value of
log 1). -/
def Obligations.ResetLeavesEveryRegisterAtItsValue : Prop :=
  ∀ k : Fin 17,
    (∀ r : Reg, readReg (State.resetOf k) r =
      if r = .id then 0x43430007 else if r = .bufSize then BitVec.ofNat 32 (2 ^ (8 + k.val)) else 0) ∧
    (State.resetOf k).phase = .idle ∧ irq (State.resetOf k) = false ∧ (State.resetOf k).status.keyValid = false ∧
    (∀ j (h : j < 25), (State.resetOf k).matrix[j] = 0x00) ∧
    (∃ r, ∀ a, bufByte (State.resetOf k) a = Config.bufDraw r a)

/-- R240: a platform reset takes every register to its reset value whatever the engine was doing; a running command is abandoned: the
engine is IDLE and completes nothing any more, nothing is stored, no DONE, ERR or IRQ results; every BUF byte is a new draw. -/
def Obligations.PlatformResetAbandonsTheCommand : Prop :=
  ∀ (s : State) (es : List Event), s.events = .reset :: es →
    ∃ t, step s = .next t ∧ t.phase = .idle ∧ t.events = es ∧ t.bufLog = s.bufLog ∧
      (∀ r : Reg, readReg t r =
        if r = .id then 0x43430007 else if r = .bufSize then BitVec.ofNat 32 (bufBytes s) else 0) ∧
      t.status.done = false ∧ t.status.err = false ∧ irq t = false ∧ engineTurn t = .next t ∧
      (∃ r, r ≠ s.resets ∧ ∀ a, bufByte t a = Config.bufDraw r a)

/-- The invariant holds after reset, for every legal BUF_BYTES. -/
def Obligations.ResetMeetsTheInvariant : Prop := ∀ k : Fin 17, Inv (State.resetOf k)

/-- Every step keeps the invariant: BUF in canonical form and inside BUF_BYTES; MATRIX a CipherMatrix exactly with KEY_VALID (R35);
the report cleared while BUSY (R45); no ERR and no ERRINFO without a code (R27, R31, R33); the frame results consistent (R39). -/
def Obligations.EveryStepKeepsTheInvariant : Prop :=
  ∀ s t : State, Inv s → step s = .next t → Inv t

/-! ### The host's bus -/

/-- R22, R45, R76: every register of the map, at its offset, answers an aligned 32-bit read with its value, also while BUSY, and no
such read changes anything. R62: below the BUF window an access must be 32 bits wide at a multiple of 4; any other faults; that a step
then records the fault as the access's reply and goes on is the model's choice (log 7, log 9). R48: there an offset that R22 does not
list reads 0 and ignores writes, at any time, without setting HOSTCOLL. -/
def Obligations.RegisterSpaceAccesses : Prop :=
  (∀ s : State, (∀ r : Reg, ∃ row ∈ registerMap s, row.2.1 = r) ∧
    ∀ row ∈ registerMap s, row.2.1.offset = row.1.toNat ∧ readReg s row.2.1 = row.2.2 ∧
      busAccess s (.read row.1 .w32) = .ok (s, .data row.2.2)) ∧
  ∀ (s : State) (a : Access), a.offset < 0x10000 →
    ((a.width ≠ .w32 ∨ a.offset % 4 ≠ 0) ↔ busAccess s a = .error .busError) ∧
    (∀ es, (a.width ≠ .w32 ∨ a.offset % 4 ≠ 0) → s.events = .host a :: es →
      step s = .next { s with events := es, replies := .fault .busError :: s.replies }) ∧
    (a.width = .w32 → a.offset % 4 = 0 → 0x50 < a.offset → (a.offset < 0x80 ∨ 0x98 < a.offset) →
      ∃ r, busAccess s a = .ok (s, r) ∧
        ((∃ o, a = .read o .w32) → r = .data 0) ∧ ((∃ o v, a = .write o .w32 v) → r = .written))

/-- R63: at and above the BUF window a misaligned access faults and changes nothing; while IDLE an aligned read inside BUF returns
`MemRead`, an aligned write performs `MemWrite`, and such an access is wholly inside BUF; above BUF a read returns 0 and a write is
ignored (R61). -/
def Obligations.WindowAccessesReadAndWriteBuf : Prop :=
  ∀ (s : State) (o : Word) (w : Width) (v : Word), 0x10000 ≤ o.toNat → o.toNat < 0x2000000 →
    (o.toNat % w.bytes ≠ 0 →
      busAccess s (.read o w) = .error .busError ∧ busAccess s (.write o w v) = .error .busError) ∧
    (o.toNat % w.bytes = 0 → s.phase = .idle → o.toNat < 0x10000 + bufBytes s →
      o.toNat - 0x10000 + w.bytes ≤ bufBytes s ∧
      busAccess s (.read o w) = .ok (s, .data (BitVec.ofNat 32 (memRead s (o.toNat - 0x10000) w.bytes))) ∧
      ∃ t, busAccess s (.write o w v) = .ok (t, .written) ∧ t = { s with buf := t.buf } ∧
        (∀ j, j < w.bytes → bufByte t (o.toNat - 0x10000 + j) = v.extractLsb' (8 * j) 8) ∧
        (∀ a, a < o.toNat - 0x10000 ∨ o.toNat - 0x10000 + w.bytes ≤ a → bufByte t a = bufByte s a)) ∧
    (o.toNat % w.bytes = 0 → 0x10000 + bufBytes s ≤ o.toNat →
      busAccess s (.read o w) = .ok (s, .data 0) ∧ busAccess s (.write o w v) = .ok (s, .written))

/-- R44: while BUSY a write of a parameter register or CFG is ignored and sets HOSTCOLL, writes of STATUS and IRQ_EN are performed;
a write of a read-only register is ignored without setting HOSTCOLL at any time. -/
def Obligations.BusyBlocksParameterWrites : Prop :=
  ∀ (s : State) (v : Word) (r : Reg),
    (s.phase = .busy →
      (r ∈ [Reg.keyAddr, .keyLen, .srcAddr, .srcLen, .dstAddr, .dstCap, .smpSrc, .smpDst, .smpCount, .cfg, .rails] →
        busAccess s (.write (BitVec.ofNat 32 r.offset) .w32 v) =
          .ok ({ s with status := { s.status with hostColl := true } }, .written)) ∧
      busAccess s (.write 0x008 .w32 v) = .ok ({ s with status := clearW1C v s.status }, .written) ∧
      busAccess s (.write 0x00C .w32 v) =
        .ok ({ s with irqEn := { doneIe := v.getLsbD 0, errIe := v.getLsbD 1 } }, .written)) ∧
    ((r ∈ [Reg.id, .errInfo, .resultLen, .frameLen, .bitCount, .samplesUsed, .bufSize] ∨ ∃ k, r = .matrix k) →
      busAccess s (.write (BitVec.ofNat 32 r.offset) .w32 v) = .ok (s, .written))

/-- R34, R38 and R43: while IDLE a parameter register holds what is written and reads it back; CFG keeps its fields and reads its
reserved bits as 0; nothing else changes but the parameter registers. -/
def Obligations.ParameterRegistersReadBack : Prop :=
  ∀ (s : State) (v : Word) (r : Reg), s.phase = .idle →
    (r ∈ [Reg.keyAddr, .keyLen, .srcAddr, .srcLen, .dstAddr, .dstCap, .smpSrc, .smpDst, .smpCount, .rails] →
      ∃ t, busAccess s (.write (BitVec.ofNat 32 r.offset) .w32 v) = .ok (t, .written) ∧ readReg t r = v ∧
        t = { s with params := t.params } ∧ ∀ q, q ≠ r → readReg t q = readReg s q) ∧
    ∃ t, busAccess s (.write 0x038 .w32 v) = .ok (t, .written) ∧ readReg t .cfg = v &&& 0x3F ∧
      t.params.depth = v.extractLsb' 0 4 ∧ t.params.sfmt = v.extractLsb' 4 2 ∧ t = { s with params := t.params } ∧
      ∀ q, q ≠ .cfg → readReg t q = readReg s q

/-- R75: while BUSY a host read of the BUF window returns 0 and a write is discarded; either sets HOSTCOLL. -/
def Obligations.BusyRefusesTheWindow : Prop :=
  ∀ (s : State) (o : Word) (w : Width) (v : Word), s.phase = .busy → 0x10000 ≤ o.toNat →
    o.toNat < 0x10000 + bufBytes s → o.toNat % w.bytes = 0 →
    busAccess s (.read o w) = .ok ({ s with status := { s.status with hostColl := true } }, .data 0) ∧
    busAccess s (.write o w v) = .ok ({ s with status := { s.status with hostColl := true } }, .written)

/-- R217: a write of CMD while BUSY is discarded and sets HOSTCOLL; CMD keeps the running word, and the running command completes as
it would have. -/
def Obligations.BusyDiscardsCommandWrites : Prop :=
  ∀ (s : State) (v : Word), s.phase = .busy →
    ∃ t, busAccess s (.write 0x004 .w32 v) = .ok (t, .written) ∧ t.cmd = s.cmd ∧ t.status.hostColl = true ∧
      t = { s with status := { s.status with hostColl := true } } ∧
      ∀ u, engineStep s = .next u → engineStep t = .next { u with status := { u.status with hostColl := true } }

/-- R216: a write of any value to CMD while IDLE is accepted: CMD holds it, BUSY is set, DONE, ERR, ERRCODE, UTF8_DROP and ERRINFO
are cleared, and nothing else changes. -/
def Obligations.AcceptanceWritesExactly : Prop :=
  ∀ (s : State) (v : Word), s.phase = .idle →
    busAccess s (.write 0x004 .w32 v) =
      .ok ({ s with
              cmd := v
              phase := .busy
              status := { s.status with done := false, err := false, errCode := .none, utf8Drop := false }
              errInfo := 0 }, .written)

/-- R24: every field of STATUS at its bits, STATUS 0 after reset, and a write of STATUS, also while BUSY, clears each W1C bit
whose written bit is 1 and changes nothing else. -/
def Obligations.StatusFieldsAndWriteOneToClear : Prop :=
  ∀ (s : State) (v : Word),
    ((readReg s .status).getLsbD 0 = true ↔ s.phase = .busy) ∧
    (readReg s .status).getLsbD 1 = s.status.done ∧ (readReg s .status).getLsbD 2 = s.status.err ∧
    (readReg s .status).getLsbD 3 = s.status.keyValid ∧ (readReg s .status).getLsbD 4 = s.status.utf8Drop ∧
    (readReg s .status).getLsbD 5 = s.status.hostColl ∧ (readReg s .status).extractLsb' 6 2 = 0 ∧
    (readReg s .status).extractLsb' 8 8 = s.status.errCode.code ∧ (readReg s .status).extractLsb' 16 16 = 0 ∧
    (∀ k, readReg (State.resetOf k) .status = 0) ∧
    busAccess s (.write 0x008 .w32 v) =
      .ok ({ s with
              status := { s.status with
                done := s.status.done && !v.getLsbD 1
                err := s.status.err && !v.getLsbD 2
                utf8Drop := s.status.utf8Drop && !v.getLsbD 4
                hostColl := s.status.hostColl && !v.getLsbD 5 } }, .written)

/-- R219 and R32: the interrupt line, and that a write of IRQ_EN, also while BUSY, takes effect at once. R220, R225: writing 0x06
to STATUS clears DONE and ERR and deasserts IRQ; clearing DONE alone while ERR = 1 leaves IRQ asserted when ERR_IE = 1; writing 1
to a W1C bit that is 0 has no effect. -/
def Obligations.AcknowledgeDeassertsTheInterrupt : Prop :=
  ∀ s : State,
    (irq s = true ↔ (s.status.done = true ∧ s.irqEn.doneIe = true) ∨ (s.status.err = true ∧ s.irqEn.errIe = true)) ∧
    (∀ v, ∃ t, busAccess s (.write 0x00C .w32 v) = .ok (t, .written) ∧ t = { s with irqEn := t.irqEn } ∧
      t.irqEn = { doneIe := v.getLsbD 0, errIe := v.getLsbD 1 } ∧ readReg t .irqEn = v &&& 3) ∧
    busAccess s (.write 0x008 .w32 0x06) = .ok (acknowledge s, .written) ∧ (acknowledge s).status.done = false ∧
    (acknowledge s).status.err = false ∧ irq (acknowledge s) = false ∧
    (acknowledge s).status.errCode = s.status.errCode ∧ (acknowledge s).errInfo = s.errInfo ∧
    (s.status.err = true → s.irqEn.errIe = true →
      ∃ t, busAccess s (.write 0x008 .w32 0x02) = .ok (t, .written) ∧ t.status.done = false ∧ irq t = true) ∧
    (∀ v, (s.status.done = true → v.getLsbD 1 = false) → (s.status.err = true → v.getLsbD 2 = false) →
      (s.status.utf8Drop = true → v.getLsbD 4 = false) → (s.status.hostColl = true → v.getLsbD 5 = false) →
      busAccess s (.write 0x008 .w32 v) = .ok (s, .written))

/-- R36: MATRIXk reads the cells 4k to 4k+3, the lowest in bits 7:0; a cell index above 24 reads 0x00; writes are ignored. -/
def Obligations.MatrixReadback : Prop :=
  ∀ (s : State) (k : Fin 7) (v : Word),
    busAccess s (.read (BitVec.ofNat 32 (0x080 + 4 * k.val)) .w32) = .ok (s, .data (readReg s (.matrix k))) ∧
    busAccess s (.write (BitVec.ofNat 32 (0x080 + 4 * k.val)) .w32 v) = .ok (s, .written) ∧
    ∀ j, j < 4 → (readReg s (.matrix k)).extractLsb' (8 * j) 8 =
      if h : 4 * k.val + j < 25 then s.matrix[4 * k.val + j] else 0x00

/-- R30: HOSTCOLL is set by exactly the accesses refused because of BUSY (a write of CMD, of a parameter register or CFG, any access
of the BUF window), and is cleared only by a host write of 1 to bit 5 of STATUS and by reset; completion and acceptance leave it. -/
def Obligations.HostCollFollowsRefusedAccesses : Prop :=
  ∀ (s t : State), step s = .next t →
    (∀ a es, s.events = .host a :: es →
      (t.status.hostColl = true ↔
        (s.phase = .busy ∧ a.aligned = true ∧
          ((∃ o w v, a = .write o w v ∧ (o.toNat = 0x004 ∨ (0x014 ≤ o.toNat ∧ o.toNat ≤ 0x03C))) ∨
            (0x10000 ≤ a.offset ∧ a.offset < 0x10000 + bufBytes s))) ∨
        (s.status.hostColl = true ∧ ¬ ∃ v, a = .write 0x008 .w32 v ∧ v.getLsbD 5 = true))) ∧
    ((s.events = [] ∨ ∃ es, s.events = .completion :: es) → t.status.hostColl = s.status.hostColl) ∧
    (∀ es, s.events = .reset :: es → t.status.hostColl = false)

/-! ### Rules of the whole machine -/

/-- MATRIX and KEY_VALID change only at the commit of a successful SUB.KEY, PIPE.ENC or PIPE.DEC, and at a reset (R28, R246). -/
def Obligations.MatrixChangesOnlyAtAKeyCommit : Prop :=
  ∀ s t : State, step s = .next t →
    (t.matrix = s.matrix ∧ t.status.keyValid = s.status.keyValid) ∨
    (∃ es, s.events = .reset :: es) ∨
    (s.phase = .busy ∧ t.phase = .idle ∧ t.status.keyValid = true ∧ t.status.err = s.status.err ∧
      ∃ i, decode s.cmd = .ok i ∧ (i = .subKey ∨ i = .pipeEnc ∨ ∃ raw, i = .pipeDec raw))

/-- PHASE goes from IDLE to BUSY only at an acceptance and back only at a completion or a reset (R25, R41, R218). A round of the loop
of `wait` (R98) reads STATUS and changes nothing else; it ends the loop exactly when bit 0 of the value read is 0 (the rest of the loop
is events of the model, log 5). -/
def Obligations.PhaseChangesOnlyAtAcceptanceAndCompletion : Prop :=
  ∀ s t : State, step s = .next t →
    (s.phase = .idle → t.phase = .busy →
      ∃ v es, s.events = .host (.write 0x004 .w32 v) :: es ∧ t.cmd = v) ∧
    (s.phase = .busy → t.phase = .idle →
      s.events = [] ∨ (∃ es, s.events = .completion :: es) ∨ (∃ es, s.events = .reset :: es)) ∧
    (s.phase = .busy → t.phase = .idle → (∀ es, s.events ≠ .reset :: es) → t.status.done = true) ∧
    ∀ n es, s.events = .pollIdle n :: es →
      t = { s with events := t.events, replies := .data (readReg s .status) :: s.replies } ∧
      (t.events = es ↔ (readReg s .status).getLsbD 0 = false)

/-- R215: when a command ends in an error, exactly the report changes: BUSY, DONE, ERR, ERRCODE and ERRINFO. No BUF byte is written;
MATRIX, KEY_VALID, UTF8_DROP, the results and CMD keep their values. -/
def Obligations.ErrorCompletionChangesOnlyTheReport : Prop :=
  ∀ (i : Instr) (s t : State), exec i s = .next t → s.status.err = false → t.status.err = true →
    ∃ (code : ErrorCode) (info : Nat), code ≠ .none ∧ Fails s t code info

/-- Which command can raise which error (R210), and the code of every error: none is above 0x0D, and no two errors share one
(R211). -/
def Obligations.CommandsRaiseOnlyTheirErrors : Prop :=
  (∀ (i : Instr) (s t : State), exec i s = .next t → s.status.err = false → t.status.err = true →
    t.status.errCode ∈ raisable i) ∧
  (∀ e : ErrorCode, (e, e.code) ∈ errorCodes) ∧ (∀ e : ErrorCode, e.code.toNat ≤ 0x0D) ∧
  (∀ e f : ErrorCode, e.code = f.code → e = f)

/-- A command writes nothing of BUF outside its written region (R70). -/
def Obligations.CommandsWriteOnlyTheirRegion : Prop :=
  ∀ (i : Instr) (s t : State), exec i s = .next t →
    ∀ a, (∀ r, writtenRegion i s = some r → ¬ Inside a r) → bufByte t a = bufByte s a

/-- A command reads nothing of BUF outside its read regions (R70): on two states that differ only in BUF bytes outside them it
completes alike, and every byte is either written alike or left alone in both. -/
def Obligations.CommandsReadOnlyTheirRegions : Prop :=
  ∀ (i : Instr) (s : State) (buf : Memory),
    (∀ r ∈ readRegions i s, ∀ a, Inside a r → bufByte { s with buf := buf } a = bufByte s a) →
    ∀ t u, exec i s = .next t → exec i { s with buf := buf } = .next u →
      u = { t with buf := u.buf } ∧
      ∀ a, bufByte u a = bufByte t a ∨
        (bufByte t a = bufByte s a ∧ bufByte u a = bufByte { s with buf := buf } a)

/-- A register that R91 does not list for a command is not read by it: whatever it holds, the command does the same. MATRIX and
KEY_VALID are operands of SUB.ENC and SUB.DEC alone: under any other command they are left as they are, or the command replaces both by
the same values whatever they were, and everything else it does is the same. -/
def Obligations.UnlistedRegistersCannotAffectACommand : Prop :=
  (∀ (i : Instr) (s t : State) (p : Params), operandsAgree i s.params p → exec i s = .next t →
    exec i { s with params := p } = .next { t with params := p }) ∧
  ∀ (i : Instr) (s t : State) (m : Vector Byte 25) (v : Bool), i ≠ .subEnc → i ≠ .subDec → exec i s = .next t →
    ∃ u, exec i { s with matrix := m, status := { s.status with keyValid := v } } = .next u ∧
      u = { t with matrix := u.matrix, status := { t.status with keyValid := u.status.keyValid } } ∧
      ((t.matrix = s.matrix ∧ t.status.keyValid = s.status.keyValid ∧ u.matrix = m ∧ u.status.keyValid = v) ∨
        (u.matrix = t.matrix ∧ u.status.keyValid = true ∧ t.status.keyValid = true))

/-- Latency does not change what a command computes (R222, R251): however many host accesses come between acceptance and completion,
whatever they are, the completion leaves the same BUF, registers, results, MATRIX and error report; only HOSTCOLL, IRQ_EN and what
the host has read can differ. -/
def Obligations.LatencyDoesNotChangeTheResult : Prop :=
  ∀ (s t u : State) (accesses : List Access), Inv s → s.phase = .busy → s.events = [] →
    step s = .next t →
    Host.Core.run core (accesses.length + 1) { s with events := accesses.map .host } = .next u →
    u = { t with
          status := { t.status with hostColl := u.status.hostColl }
          irqEn := u.irqEn
          replies := u.replies }

/-! ### What each command does when it succeeds -/

/-- R190: NOP completes at once and changes nothing but DONE (and BUSY); it raises the DONE interrupt when DONE_IE = 1, and only the
word 0 is NOP. -/
def Obligations.NopOnlySetsDone : Prop :=
  (∀ s : State, exec .nop s = .next { s with phase := .idle, status := { s.status with done := true } }) ∧
  (∀ s t : State, exec .nop s = .next t → s.irqEn.doneIe = true → irq t = true) ∧
  (∀ w : Word, decode w = .ok .nop ↔ w = 0)

/-- SUB.KEY on a key in range that holds a letter builds MATRIX from the normalised key, sets KEY_VALID, and gives the number of key
letters; BUF and everything else keep their values (R117). -/
def Obligations.SubKeyBuildsTheMatrix : Prop :=
  ∀ s : State, KeyInRange s → KeyHasLetter s →
    ∃ t, exec .subKey s = .next t ∧ t.buf = s.buf ∧
      Succeeds s t 0 []
        { resultLen := BitVec.ofNat 32 (keyLetters (normalise (keyBytes s))).length, frameLen := 0, bitCount := 0,
          samplesUsed := 0 }
        (buildMatrix (normalise (keyBytes s))) true s.status.utf8Drop

/-- SUB.ENC with a valid key, its regions in range and apart, and room for the output stores the encrypted digraphs of the normalised
source at DST_ADDR and changes no other byte and no other register than the results (R118). -/
def Obligations.SubEncStoresTheEncryptedDigraphs : Prop :=
  ∀ (s : State) (out : List Byte), TextReady s → s.status.keyValid = true →
    out = concatPairs ((digraphs (normalise (srcBytes s))).map (encPair s.matrix)) →
    out.length ≤ s.params.dstCap.toNat →
    ∃ t, exec .subEnc s = .next t ∧
      Succeeds s t s.params.dstAddr.toNat out
        { resultLen := BitVec.ofNat 32 out.length, frameLen := 0, bitCount := 0, samplesUsed := 0 }
        s.matrix s.status.keyValid s.status.utf8Drop

/-- SUB.DEC with a valid key, its regions in range and apart, an even number of source bytes that are all in MATRIX, and room for
them stores the decrypted fixed-width pairs, as many bytes as it read (R119). -/
def Obligations.SubDecStoresTheDecryptedPairs : Prop :=
  ∀ s : State, TextReady s → s.status.keyValid = true → s.params.srcLen.toNat % 2 = 0 →
    (∀ b ∈ srcBytes s, b ∈ s.matrix.toList) → s.params.srcLen.toNat ≤ s.params.dstCap.toNat →
    ∃ t, exec .subDec s = .next t ∧
      (concatPairs ((fixedPairs (srcBytes s)).map (decPair s.matrix))).length = s.params.srcLen.toNat ∧
      Succeeds s t s.params.dstAddr.toNat (concatPairs ((fixedPairs (srcBytes s)).map (decPair s.matrix)))
        { resultLen := s.params.srcLen, frameLen := 0, bitCount := 0, samplesUsed := 0 }
        s.matrix s.status.keyValid s.status.utf8Drop

/-- ZZ.ENC with a rail count of at least 1, its regions in range and apart, and room for SRC_LEN bytes stores the zig-zag readout, as
many bytes as it read (R145). -/
def Obligations.ZzEncStoresTheRailReadout : Prop :=
  ∀ s : State, TextReady s → s.params.rails ≠ 0 → s.params.srcLen.toNat ≤ s.params.dstCap.toNat →
    ∃ t, exec .zzEnc s = .next t ∧ (zzEncrypt (srcBytes s) s.params.rails.toNat).length = s.params.srcLen.toNat ∧
      Succeeds s t s.params.dstAddr.toNat (zzEncrypt (srcBytes s) s.params.rails.toNat)
        { resultLen := s.params.srcLen, frameLen := 0, bitCount := 0, samplesUsed := 0 }
        s.matrix s.status.keyValid s.status.utf8Drop

/-- ZZ.DEC with a rail count of at least 1, its regions in range and apart, and room for SRC_LEN bytes stores the zig-zag path read
back, as many bytes as it read (R146). -/
def Obligations.ZzDecStoresThePathReadBack : Prop :=
  ∀ s : State, TextReady s → s.params.rails ≠ 0 → s.params.srcLen.toNat ≤ s.params.dstCap.toNat →
    ∃ t, exec .zzDec s = .next t ∧ (zzDecrypt (srcBytes s) s.params.rails.toNat).length = s.params.srcLen.toNat ∧
      Succeeds s t s.params.dstAddr.toNat (zzDecrypt (srcBytes s) s.params.rails.toNat)
        { resultLen := s.params.srcLen, frameLen := 0, bitCount := 0, samplesUsed := 0 }
        s.matrix s.status.keyValid s.status.utf8Drop

/-- LSB.EMBED with its register checks passed and a carrier of at least K = ceil((32 + 8 * SRC_LEN) / d) samples stores N output
samples at SMP_DST, two bytes each, and gives the frame's four results (R168). SRC and SMPI, both read, may overlap: that follows R72
against the detail 0x31 that R168 lists (log 12). -/
def Obligations.LsbEmbedStoresThePackedSamples : Prop :=
  ∀ (s : State) (d N K : Nat), EmbedReady s → d = s.params.depth.toNat → N = s.params.smpCount.toNat →
    K = (32 + 8 * s.params.srcLen.toNat + d - 1) / d → K ≤ N →
    ∃ t, exec .lsbEmbed s = .next t ∧
      (sampleBytesOf (embedSamples (srcBytes s) d (carriers s N))).length = 2 * N ∧
      Succeeds s t s.params.smpDst.toNat (sampleBytesOf (embedSamples (srcBytes s) d (carriers s N)))
        { resultLen := s.params.srcLen, frameLen := BitVec.ofNat 32 (8 * s.params.srcLen.toNat),
          bitCount := BitVec.ofNat 32 (32 + 8 * s.params.srcLen.toNat), samplesUsed := BitVec.ofNat 32 K }
        s.matrix s.status.keyValid s.status.utf8Drop

/-- LSB.EXTRACT with its register checks passed, on a carrier that holds the prefix and the frame it states in whole bytes, stores
the payload (filtered when RAW = 0) at DST_ADDR when it fits, reports dropped bytes in UTF8_DROP, and gives the frame's four
results (R169). -/
def Obligations.LsbExtractStoresThePayload : Prop :=
  ∀ (raw : Bool) (s : State) (d N L K : Nat) (p q : List Byte), ExtractReady s → d = s.params.depth.toNat →
    N = s.params.smpCount.toNat → (32 + d - 1) / d ≤ N →
    L = prefixLength (streamBits d (carriers s ((32 + d - 1) / d))) → L % 8 = 0 →
    K = (32 + L + d - 1) / d → K ≤ N → p = payloadBytes (streamBits d (carriers s K)) L →
    q = (if raw then p else utf8Filter p) → q.length ≤ s.params.dstCap.toNat →
    ∃ t, exec (.lsbExtract raw) s = .next t ∧
      Succeeds s t s.params.dstAddr.toNat q
        { resultLen := BitVec.ofNat 32 q.length, frameLen := BitVec.ofNat 32 L, bitCount := BitVec.ofNat 32 (32 + L),
          samplesUsed := BitVec.ofNat 32 K }
        s.matrix s.status.keyValid (decide (raw = false ∧ q.length < p.length))

/-- PIPE.ENC with its register and key checks passed and a carrier of at least K samples embeds the ciphertext (substitution under
the key's matrix, then transposition) and commits that matrix (R191). -/
def Obligations.PipeEncEmbedsTheCiphertext : Prop :=
  ∀ (s : State) (d N K : Nat) (m : Vector Byte 25) (c : List Byte), PipeEncReady s → d = s.params.depth.toNat →
    N = s.params.smpCount.toNat → m = buildMatrix (normalise (keyBytes s)) →
    c = zzEncrypt (concatPairs ((digraphs (normalise (srcBytes s))).map (encPair m))) s.params.rails.toNat →
    K = (32 + 8 * c.length + d - 1) / d → K ≤ N →
    ∃ t, exec .pipeEnc s = .next t ∧ (sampleBytesOf (embedSamples c d (carriers s N))).length = 2 * N ∧
      Succeeds s t s.params.smpDst.toNat (sampleBytesOf (embedSamples c d (carriers s N)))
        { resultLen := BitVec.ofNat 32 c.length, frameLen := BitVec.ofNat 32 (8 * c.length),
          bitCount := BitVec.ofNat 32 (32 + 8 * c.length), samplesUsed := BitVec.ofNat 32 K }
        m true s.status.utf8Drop

/-- PIPE.DEC with its register and key checks passed, on a carrier that holds a frame whose payload (filtered when RAW = 0) is, after
transposition decrypt, an even number of letters of the key's matrix, stores their substitution decrypt at DST_ADDR when it fits and
commits the matrix (R192). -/
def Obligations.PipeDecStoresThePlaintext : Prop :=
  ∀ (raw : Bool) (s : State) (d N L K : Nat) (m : Vector Byte 25) (p q c out : List Byte), PipeDecReady s →
    d = s.params.depth.toNat → N = s.params.smpCount.toNat → m = buildMatrix (normalise (keyBytes s)) →
    (32 + d - 1) / d ≤ N → L = prefixLength (streamBits d (carriers s ((32 + d - 1) / d))) → L % 8 = 0 →
    K = (32 + L + d - 1) / d → K ≤ N → p = payloadBytes (streamBits d (carriers s K)) L →
    q = (if raw then p else utf8Filter p) → c = zzDecrypt q s.params.rails.toNat → c.length % 2 = 0 →
    (∀ b ∈ c, b ∈ m.toList) → out = concatPairs ((fixedPairs c).map (decPair m)) →
    out.length ≤ s.params.dstCap.toNat →
    ∃ t, exec (.pipeDec raw) s = .next t ∧
      Succeeds s t s.params.dstAddr.toNat out
        { resultLen := BitVec.ofNat 32 out.length, frameLen := BitVec.ofNat 32 L, bitCount := BitVec.ofNat 32 (32 + L),
          samplesUsed := BitVec.ofNat 32 K }
        m true (decide (raw = false ∧ q.length < p.length))

/-! ### Which error each command reports (R214) -/

/-- SUB.KEY's errors in the order of R214: RANGE 0, INVALID_KEY 0, INVALID_KEY 1. -/
def Obligations.SubKeyReportsItsFirstError : Prop :=
  ∀ (s : State) (code : ErrorCode) (info : Nat), firstError (subKeyErrors s) = some (code, info) →
    ∃ t, exec .subKey s = .next t ∧ Fails s t code info

/-- SUB.ENC's errors in the order of R214: RANGE 1, RANGE 2, OVERLAP 0x21, NOKEY, DSTCAP with the output's length. -/
def Obligations.SubEncReportsItsFirstError : Prop :=
  ∀ (s : State) (code : ErrorCode) (info : Nat), firstError (subEncErrors s) = some (code, info) →
    ∃ t, exec .subEnc s = .next t ∧ Fails s t code info

/-- SUB.DEC's errors in the order of R214: RANGE, OVERLAP, NOKEY, INPUT_ODD with the length, INPUT_CHAR with the lowest offset `j`
of a byte that is no matrix letter, DSTCAP with the length. -/
def Obligations.SubDecReportsItsFirstError : Prop :=
  ∀ (s : State) (code : ErrorCode) (info j : Nat), LettersBefore j (srcBytes s) s.matrix →
    firstError (subDecErrors s j) = some (code, info) → ∃ t, exec .subDec s = .next t ∧ Fails s t code info

/-- ZZ.ENC's and ZZ.DEC's errors in the order of R214: INVALID_KEY 2, RANGE 1, RANGE 2, OVERLAP 0x21, DSTCAP with SRC_LEN. -/
def Obligations.ZzCommandsReportTheirFirstError : Prop :=
  ∀ (i : Instr) (s : State) (code : ErrorCode) (info : Nat), (i = .zzEnc ∨ i = .zzDec) →
    firstError (zzErrors s) = some (code, info) → ∃ t, exec i s = .next t ∧ Fails s t code info

/-- LSB.EMBED's errors in the order of R214: UNSUPPORTED_FORMAT, PARAM, ALIGN of SMP_SRC then SMP_DST, RANGE 1, 3, 4, OVERLAP 0x41
and 0x43 (0x31 cannot arise: SRC and SMPI are both read), CAPACITY with K. -/
def Obligations.LsbEmbedReportsItsFirstError : Prop :=
  ∀ (s : State) (code : ErrorCode) (info : Nat), firstError (lsbEmbedErrors s) = some (code, info) →
    ∃ t, exec .lsbEmbed s = .next t ∧ Fails s t code info

/-- LSB.EXTRACT's errors in the order of R214: UNSUPPORTED_FORMAT, PARAM, ALIGN of SMP_SRC, RANGE 2, 3, OVERLAP 0x32, CAPACITY
with H, FRAME with L, CAPACITY with min(K, 0xFFFFFFFF), DSTCAP with the output's length. -/
def Obligations.LsbExtractReportsItsFirstError : Prop :=
  ∀ (raw : Bool) (s : State) (code : ErrorCode) (info : Nat), firstError (lsbExtractErrors raw s) = some (code, info) →
    ∃ t, exec (.lsbExtract raw) s = .next t ∧ Fails s t code info

/-- PIPE.ENC's errors in the order of R214: UNSUPPORTED_FORMAT, PARAM, INVALID_KEY 2, ALIGN, RANGE 0, 1, 3, 4, OVERLAP 0x40, 0x41,
0x43, INVALID_KEY 0, INVALID_KEY 1, CAPACITY with K. -/
def Obligations.PipeEncReportsItsFirstError : Prop :=
  ∀ (s : State) (code : ErrorCode) (info : Nat), firstError (pipeEncErrors s) = some (code, info) →
    ∃ t, exec .pipeEnc s = .next t ∧ Fails s t code info

/-- PIPE.DEC's errors in the order of R214: UNSUPPORTED_FORMAT, PARAM, INVALID_KEY 2, ALIGN, RANGE 0, 2, 3, OVERLAP 0x20, 0x32,
INVALID_KEY 0, INVALID_KEY 1, CAPACITY with H, FRAME, CAPACITY with min(K, 0xFFFFFFFF), INPUT_ODD, INPUT_CHAR at the lowest offset
`j` of a byte that is no letter of the key's matrix, DSTCAP. -/
def Obligations.PipeDecReportsItsFirstError : Prop :=
  ∀ (raw : Bool) (s : State) (code : ErrorCode) (info j : Nat), LettersBefore j (pipePlain raw s) (keyMatrix s) →
    firstError (pipeDecErrors raw s j) = some (code, info) →
    ∃ t, exec (.pipeDec raw) s = .next t ∧ Fails s t code info

/-! ### The functions of the units and their laws -/

/-- R111 and R112: for a key with a letter, BuildMatrix's cells are the normalised key's letters, each at its first occurrence,
then the rest of the alphabet without `J` in code order: 25 distinct letters with no `J`, cell 5r + c at row r and column c; nk is
the number of distinct key letters, 1 to 25. -/
def Obligations.BuildMatrixIsKeyLettersThenAlphabet : Prop :=
  ∀ key : List Byte, normalise key ≠ [] →
    (buildMatrix (normalise key)).toList =
      (normalise key).eraseDups ++
        (((List.range 26).map fun i => BitVec.ofNat 8 (0x41 + i)).filter fun b => b ≠ 0x4A#8 ∧ b ∉ normalise key) ∧
    MatrixOk (buildMatrix (normalise key)) ∧
    (∀ r c, r < 5 → c < 5 →
      (buildMatrix (normalise key)).toList[5 * r + c]? = some (cell (buildMatrix (normalise key)) r c)) ∧
    (keyLetters (normalise key)).length = (normalise key).eraseDups.length ∧
    1 ≤ (keyLetters (normalise key)).length ∧ (keyLetters (normalise key)).length ≤ 25

/-- R116: DecPair's three cases in their order, and that it inverts EncPair on every pair of letters of a matrix, equal letters
included. -/
def Obligations.DecPairInvertsEncPair : Prop :=
  ∀ (m : Vector Byte 25) (a b : Byte), m.toList.Nodup → a ∈ m.toList → b ∈ m.toList →
    (decPair m (a, b) =
      if (pos m a).1 = (pos m b).1 then (cell m (pos m a).1 ((pos m a).2 + 4), cell m (pos m b).1 ((pos m b).2 + 4))
      else if (pos m a).2 = (pos m b).2 then
        (cell m ((pos m a).1 + 4) (pos m a).2, cell m ((pos m b).1 + 4) (pos m b).2)
      else (cell m (pos m a).1 (pos m b).2, cell m (pos m b).1 (pos m a).2)) ∧
    decPair m (encPair m (a, b)) = (a, b)

/-- R120: the length law of the digraphs; the output has the text's length exactly when no digraph comes from the FILL-inserting
branch, which forces an even length. -/
def Obligations.DigraphLengthLaw : Prop :=
  ∀ t : List Byte,
    (concatPairs (digraphs t)).length = 2 * (digraphs t).length ∧ t.length ≤ 2 * (digraphs t).length ∧
    2 * (digraphs t).length ≤ 2 * t.length ∧ (2 * (digraphs t).length = t.length ↔ splitsEvenly t = true) ∧
    (splitsEvenly t = true → t.length % 2 = 0)

/-- R121: with the same matrix, SUB.DEC applied to what a successful SUB.ENC stored succeeds and stores the digraphs of the
normalised input, every inserted FILL kept. -/
def Obligations.SubstitutionRoundTrip : Prop :=
  ∀ (s t u : State) (dst cap : Word), MatrixInv s → exec .subEnc s = .next t → s.status.err = false →
    t.status.err = false →
    u = { t with params := { t.params with
            srcAddr := t.params.dstAddr, srcLen := t.results.resultLen, dstAddr := dst, dstCap := cap } } →
    TextReady u → t.results.resultLen.toNat ≤ cap.toNat →
    ∃ v, exec .subDec u = .next v ∧
      Succeeds u v dst.toNat (concatPairs (digraphs (normalise (srcBytes s))))
        { resultLen := t.results.resultLen, frameLen := 0, bitCount := 0, samplesUsed := 0 }
        u.matrix true u.status.utf8Drop

/-- R141: the rail pointer's closed form, and that it stays below R. -/
def Obligations.RailPointerClosedForm : Prop :=
  ∀ R n i : Nat, 1 ≤ R → i < n →
    (railSeq R n)[i]? =
      some (if R = 1 then 0
        else if i % (2 * R - 2) ≤ R - 1 then i % (2 * R - 2) else 2 * R - 2 - i % (2 * R - 2)) ∧
    ∀ r, (railSeq R n)[i]? = some r → r < R

/-- R143: ZZEnc reads every rail 0 to R - 1 in order, each rail's bytes in position order; equivalently byte i stands at
start(rail(i)) + rank(i), with start and rank as R142 counts them. -/
def Obligations.ZzEncReadsTheRailsInOrder : Prop :=
  ∀ (t : List Byte) (R : Nat), 1 ≤ R →
    zzEncrypt t R =
      ((List.range R).flatMap fun r =>
        (List.range t.length).filterMap fun i => if (railSeq R t.length)[i]? = some r then t[i]? else none) ∧
    (zzEncrypt t R).length = t.length ∧
    ∀ i r, (railSeq R t.length)[i]? = some r →
      (zzEncrypt t R)[(railSeq R t.length).countP (· < r) + ((railSeq R t.length).take i).count r]? = t[i]?

/-- R148: ZZDec and ZZEnc invert each other for every byte string and every rail count of at least 1. -/
def Obligations.ZigZagRoundTrip : Prop :=
  ∀ (t : List Byte) (R : Nat), 1 ≤ R →
    zzDecrypt (zzEncrypt t R) R = t ∧ zzEncrypt (zzDecrypt t R) R = t

/-- R147: with one rail, or with at least as many rails as bytes, position i is on rail 0 or on rail i, and both directions are the
identity. -/
def Obligations.ZigZagIdentityCases : Prop :=
  ∀ (t : List Byte) (R : Nat), 1 ≤ R → (R = 1 ∨ t.length ≤ R) →
    (∀ i, i < t.length → (railSeq R t.length)[i]? = some (if R = 1 then 0 else i)) ∧
    zzEncrypt t R = t ∧ zzDecrypt t R = t

/-- R161 and R162: the frame is the 32 bits of L = 8 * len(m), most significant first, then each byte's 8 bits, most significant
first. R165 and R173: the output has the carrier's N samples; below K = ceil((32 + L) / d) the low d bits are cleared and the chunk of
R164 (the next d frame bits, most significant first, zero-padded) is put there, bits 15:d kept; from K on samples are untouched. -/
def Obligations.EmbeddingPacksTheChunks : Prop :=
  (∀ m : List Byte, (frameBits m).length = 32 + 8 * m.length ∧
    (∀ j, j < 32 → (frameBits m)[j]? = some ((8 * m.length).testBit (31 - j))) ∧
    ∀ k b, ∀ h : k < m.length, b < 8 → (frameBits m)[32 + 8 * k + b]? = some (m[k].getLsbD (7 - b))) ∧
  ∀ (m : List Byte) (d i : Nat) (xs : List Half), 1 ≤ d → d ≤ 8 → ∀ h : i < xs.length,
    (embedSamples m d xs).length = xs.length ∧
    ((32 + 8 * m.length + d - 1) / d ≤ i → (embedSamples m d xs)[i]? = some xs[i]) ∧
    (i < (32 + 8 * m.length + d - 1) / d →
      ∃ y, (embedSamples m d xs)[i]? = some y ∧
        y = (xs[i] &&& ~~~(BitVec.ofNat 16 (2 ^ d - 1))) ||| BitVec.ofNat 16
          (((List.range d).map fun b =>
            if (frameBits m).getD (i * d + b) false = true then 2 ^ (d - 1 - b) else 0).sum) ∧
        ∀ k, d ≤ k → y.getLsbD k = xs[i].getLsbD k)

/-- R170: LSB.EXTRACT with the same depth and N, SFMT = 0, from where a successful LSB.EMBED put its samples, reads L = 8 times the
message's length, the embed's K and the message: it stores the message with RAW = 1 and its UTF-8 filter with RAW = 0, which is the
message when that is well-formed UTF-8. -/
def Obligations.LsbRoundTrip : Prop :=
  ∀ (raw : Bool) (s t u : State) (dst cap : Word) (q : List Byte), exec .lsbEmbed s = .next t →
    s.status.err = false → t.status.err = false →
    u = { t with params := { t.params with smpSrc := t.params.smpDst, sfmt := 0, dstAddr := dst, dstCap := cap } } →
    DstInRange u → Apart dst.toNat cap.toNat t.params.smpDst.toNat (2 * t.params.smpCount.toNat) →
    q = (if raw then srcBytes s else utf8Filter (srcBytes s)) → q.length ≤ cap.toNat →
    ∃ v, exec (.lsbExtract raw) u = .next v ∧
      Succeeds u v dst.toNat q
        { resultLen := BitVec.ofNat 32 q.length, frameLen := BitVec.ofNat 32 (8 * (srcBytes s).length),
          bitCount := t.results.bitCount, samplesUsed := t.results.samplesUsed }
        u.matrix u.status.keyValid (decide (raw = false ∧ q.length < (srcBytes s).length)) ∧
      (WellFormedUtf8 (srcBytes s) → q = srcBytes s)

/-- When no earlier check fails, LSB.EMBED with SMP_COUNT = K - 1 raises CAPACITY with K, and with SMP_COUNT = K it succeeds (R171).
The earlier checks are the model's: SRC and SMPI, both read, may overlap, as R72 says against the detail 0x31 of R168 (log 12). -/
def Obligations.CapacityBoundary : Prop :=
  ∀ (s : State) (K : Nat), EmbedReady s →
    K = (32 + 8 * s.params.srcLen.toNat + s.params.depth.toNat - 1) / s.params.depth.toNat →
    (s.params.smpCount.toNat + 1 = K → ∃ t, exec .lsbEmbed s = .next t ∧ Fails s t .capacity K) ∧
    (s.params.smpCount.toNat = K →
      ∃ t, exec .lsbEmbed s = .next t ∧ t.status.err = s.status.err ∧ t.status.done = true ∧
        t.results.samplesUsed = BitVec.ofNat 32 K)

/-- R163: on a finite binary32 pattern whose exact product with 32767 is an integer v in -32768..32767, CONV_F2I gives the two's
complement pattern of v. Every other pattern's result is the free value of log 3, of which nothing is said. -/
def Obligations.ConversionIsExactOnIntegerProducts : Prop :=
  ∀ (x : Word) (v : Int), Binary32Finite x → binary32Value x * 32767 = v → -32768 ≤ v → v ≤ 32767 →
    convF2I x = BitVec.ofInt 16 v

/-- The lossy UTF-8 filter (R167): a well-formed sequence at the head is kept and the scan goes on after it; where none stands at the
head one byte is dropped. So it only drops bytes, its output is well-formed UTF-8, it keeps well-formed UTF-8 whole, and ASCII is
well-formed. -/
def Obligations.Utf8FilterKeepsWellFormedText : Prop :=
  utf8Filter [] = [] ∧
  (∀ q rest : List Byte, Utf8Sequence q → utf8Filter (q ++ rest) = q ++ utf8Filter rest) ∧
  (∀ (b : Byte) (rest : List Byte), (∀ q tail, b :: rest = q ++ tail → ¬ Utf8Sequence q) →
    utf8Filter (b :: rest) = utf8Filter rest) ∧
  ∀ p : List Byte,
    (utf8Filter p).Sublist p ∧ WellFormedUtf8 (utf8Filter p) ∧ (WellFormedUtf8 p → utf8Filter p = p) ∧
    ((∀ b ∈ p, b.toNat < 0x80) → WellFormedUtf8 p)

/-- R196: PIPE.DEC with the same key, RAILS, depth and N, SFMT = 0, from where a successful PIPE.ENC put its samples, succeeds with
either RAW, leaves UTF8_DROP = 0 and stores the digraphs of the normalised message. -/
def Obligations.PipelineRoundTrip : Prop :=
  ∀ (raw : Bool) (s t u : State) (dst cap : Word), exec .pipeEnc s = .next t → s.status.err = false →
    t.status.err = false →
    u = { t with params := { t.params with smpSrc := t.params.smpDst, sfmt := 0, dstAddr := dst, dstCap := cap } } →
    DstInRange u → Apart dst.toNat cap.toNat t.params.smpDst.toNat (2 * t.params.smpCount.toNat) →
    Apart t.params.keyAddr.toNat t.params.keyLen.toNat dst.toNat cap.toNat →
    t.results.resultLen.toNat ≤ cap.toNat →
    ∃ v, exec (.pipeDec raw) u = .next v ∧
      Succeeds u v dst.toNat (concatPairs (digraphs (normalise (srcBytes s))))
        { resultLen := t.results.resultLen, frameLen := t.results.frameLen, bitCount := t.results.bitCount,
          samplesUsed := t.results.samplesUsed }
        t.matrix true false
end

