-- ==== Sys2Proof/Laws/Memory.lean ====
section
/-! SUPPORT. The laws of BUF's list of written bytes: read after write, the canonical form, little-endian values. -/

namespace Sys2Proof.Machine

@[simp] theorem memFind_nil (a : Nat) : memFind [] a = none := rfl

theorem memFind_memWrite_same (m : Memory) (a : Nat) (b : Byte) : memFind (memWrite m a b) a = some b := by
  induction m with
  | nil => simp [memWrite, memFind]
  | cons c m ih =>
    obtain ⟨x, c⟩ := c
    simp only [memWrite]
    split
    · simp [memFind]
    · split
      · simp [memFind]
      · simp [memFind, ih]; omega

theorem memFind_memWrite_other (m : Memory) (a a' : Nat) (b : Byte) (h : a' ≠ a) :
    memFind (memWrite m a b) a' = memFind m a' := by
  induction m with
  | nil => simp [memWrite, memFind, h.symm]
  | cons c m ih =>
    obtain ⟨x, c⟩ := c
    simp only [memWrite]
    split
    · simp [memFind, h.symm]
    · split
      · next _ e => subst e; simp [memFind, h.symm]
      · simp [memFind, ih]

/-- Read after write of one byte. -/
theorem memFind_memWrite (m : Memory) (a a' : Nat) (b : Byte) :
    memFind (memWrite m a b) a' = if a' = a then some b else memFind m a' := by
  split
  · next h => rw [h, memFind_memWrite_same]
  · next h => exact memFind_memWrite_other m a a' b h

/-- A write touches only its own offset. -/
theorem mem_memWrite {m : Memory} {a : Nat} {b : Byte} {c : Host.Cell} (h : c ∈ memWrite m a b) :
    c = (a, b) ∨ c ∈ m := by
  induction m with
  | nil => simpa [memWrite] using h
  | cons d m ih =>
    obtain ⟨x, d⟩ := d
    simp only [memWrite] at h
    split at h
    · simpa using h
    · split at h
      · rcases List.mem_cons.1 h with h | h
        · exact .inl h
        · exact .inr (List.mem_cons_of_mem _ h)
      · rcases List.mem_cons.1 h with h | h
        · exact .inr (h ▸ List.mem_cons_self)
        · exact (ih h).imp_right (List.mem_cons_of_mem _)

/-- A write keeps the canonical form. -/
theorem memWrite_wf {m : Memory} (h : Memory.wf m) (a : Nat) (b : Byte) : Memory.wf (memWrite m a b) := by
  induction m with
  | nil => simp [memWrite, Memory.wf]
  | cons c m ih =>
    obtain ⟨x, c⟩ := c
    obtain ⟨hx, hm⟩ := List.pairwise_cons.1 h
    simp only [memWrite]
    split
    · next hlt =>
      refine List.pairwise_cons.2 ⟨fun d hd => ?_, h⟩
      rcases List.mem_cons.1 hd with rfl | hd
      · exact hlt
      · exact hlt.trans (hx d hd)
    · split
      · next _ e => subst e; exact List.pairwise_cons.2 ⟨hx, hm⟩
      · next h1 h2 =>
        refine List.pairwise_cons.2 ⟨fun d hd => ?_, ih hm⟩
        rcases mem_memWrite hd with rfl | hd
        · show x < a
          omega
        · exact hx d hd

/-- A write below `n` keeps every listed offset below `n`. -/
theorem memWrite_below {n : Nat} {m : Memory} (h : Memory.below n m) {a : Nat} (ha : a < n) (b : Byte) :
    Memory.below n (memWrite m a b) := by
  intro c hc
  rcases mem_memWrite hc with rfl | hc
  · exact ha
  · exact h c hc

@[simp] theorem memWriteBytes_nil (m : Memory) (a : Nat) : memWriteBytes m a [] = m := rfl

@[simp] theorem memWriteBytes_cons (m : Memory) (a : Nat) (b : Byte) (bs : List Byte) :
    memWriteBytes m a (b :: bs) = memWriteBytes (memWrite m a b) (a + 1) bs := rfl

/-- A byte-string write leaves every other offset alone. -/
theorem memFind_memWriteBytes_outside (m : Memory) (a : Nat) (bs : List Byte) (a' : Nat)
    (h : a' < a ∨ a + bs.length ≤ a') : memFind (memWriteBytes m a bs) a' = memFind m a' := by
  induction bs generalizing m a with
  | nil => rfl
  | cons b bs ih =>
    simp only [List.length_cons] at h
    rw [memWriteBytes_cons, ih _ _ (by omega), memFind_memWrite_other _ _ _ _ (by omega)]

/-- A byte-string write stores its bytes in order. -/
theorem memFind_memWriteBytes_inside (m : Memory) (a : Nat) (bs : List Byte) (j : Nat) (h : j < bs.length) :
    memFind (memWriteBytes m a bs) (a + j) = some bs[j] := by
  induction bs generalizing m a j with
  | nil => simp at h
  | cons b bs ih =>
    cases j with
    | zero =>
      rw [memWriteBytes_cons, memFind_memWriteBytes_outside _ _ _ _ (by omega), Nat.add_zero,
        memFind_memWrite_same, List.getElem_cons_zero]
    | succ j =>
      have h' : j < bs.length := by simpa using h
      have := ih (memWrite m a b) (a + 1) j h'
      rw [memWriteBytes_cons, List.getElem_cons_succ, ← this]
      congr 1
      omega

/-- A byte-string write keeps the canonical form. -/
theorem memWriteBytes_wf {m : Memory} (h : Memory.wf m) (a : Nat) (bs : List Byte) :
    Memory.wf (memWriteBytes m a bs) := by
  induction bs generalizing m a with
  | nil => exact h
  | cons b bs ih => exact ih (memWrite_wf h a b) (a + 1)

/-- A byte-string write inside `n` keeps every listed offset below `n`; an empty one may stand anywhere. -/
theorem memWriteBytes_below {n : Nat} {m : Memory} (h : Memory.below n m) (a : Nat) (bs : List Byte)
    (hr : bs = [] ∨ a + bs.length ≤ n) : Memory.below n (memWriteBytes m a bs) := by
  induction bs generalizing m a with
  | nil => exact h
  | cons b bs ih =>
    have hr' : a + (bs.length + 1) ≤ n := by simpa using hr
    exact ih (memWrite_below h (by omega) b) (a + 1) (.inr (by omega))

@[simp] theorem length_leBytes (n v : Nat) : (leBytes n v).length = n := by
  induction n generalizing v with
  | zero => rfl
  | succ n ih => simp [leBytes, ih]

/-- The little-endian bytes of a number spell it, truncated to their width (R11, R64). -/
theorem leValue_leBytes (n v : Nat) : leValue (leBytes n v) = v % 256 ^ n := by
  induction n generalizing v with
  | zero => simp [leBytes, leValue, Nat.mod_one]
  | succ n ih =>
    simp only [leBytes, leValue, ih, BitVec.toNat_ofNat]
    rw [show 256 ^ (n + 1) = 256 * 256 ^ n from by ring, Nat.mod_mul]

theorem leValue_lt (bs : List Byte) : leValue bs < 256 ^ bs.length := by
  induction bs with
  | nil => simp [leValue]
  | cons b bs ih =>
    have := b.isLt
    simp only [leValue, List.length_cons, pow_succ]
    omega

end Sys2Proof.Machine
end

