-- ==== Sys2Proof/Laws/State.lean ====
section
/-! SUPPORT. One lemma per field for every update of the state. -/

namespace Sys2Proof.Machine

@[simp] theorem collide_phase (s : State) : (collide s).phase = s.phase := rfl
@[simp] theorem collide_cmd (s : State) : (collide s).cmd = s.cmd := rfl
@[simp] theorem collide_status (s : State) : (collide s).status = { s.status with hostColl := true } := rfl
@[simp] theorem collide_irqEn (s : State) : (collide s).irqEn = s.irqEn := rfl
@[simp] theorem collide_errInfo (s : State) : (collide s).errInfo = s.errInfo := rfl
@[simp] theorem collide_params (s : State) : (collide s).params = s.params := rfl
@[simp] theorem collide_results (s : State) : (collide s).results = s.results := rfl
@[simp] theorem collide_matrix (s : State) : (collide s).matrix = s.matrix := rfl
@[simp] theorem collide_bufLog (s : State) : (collide s).bufLog = s.bufLog := rfl
@[simp] theorem collide_buf (s : State) : (collide s).buf = s.buf := rfl
@[simp] theorem collide_resets (s : State) : (collide s).resets = s.resets := rfl
@[simp] theorem collide_events (s : State) : (collide s).events = s.events := rfl
@[simp] theorem collide_replies (s : State) : (collide s).replies = s.replies := rfl

@[simp] theorem accept_phase (v : Word) (s : State) : (accept v s).phase = .busy := rfl
@[simp] theorem accept_cmd (v : Word) (s : State) : (accept v s).cmd = v := rfl
@[simp] theorem accept_status (v : Word) (s : State) : (accept v s).status = acceptFlags s.status := rfl
@[simp] theorem accept_irqEn (v : Word) (s : State) : (accept v s).irqEn = s.irqEn := rfl
@[simp] theorem accept_errInfo (v : Word) (s : State) : (accept v s).errInfo = 0 := rfl
@[simp] theorem accept_params (v : Word) (s : State) : (accept v s).params = s.params := rfl
@[simp] theorem accept_results (v : Word) (s : State) : (accept v s).results = s.results := rfl
@[simp] theorem accept_matrix (v : Word) (s : State) : (accept v s).matrix = s.matrix := rfl
@[simp] theorem accept_bufLog (v : Word) (s : State) : (accept v s).bufLog = s.bufLog := rfl
@[simp] theorem accept_buf (v : Word) (s : State) : (accept v s).buf = s.buf := rfl
@[simp] theorem accept_resets (v : Word) (s : State) : (accept v s).resets = s.resets := rfl
@[simp] theorem accept_events (v : Word) (s : State) : (accept v s).events = s.events := rfl
@[simp] theorem accept_replies (v : Word) (s : State) : (accept v s).replies = s.replies := rfl

@[simp] theorem raise_phase (e : Raised) (s : State) : (raise e s).phase = .idle := rfl
@[simp] theorem raise_cmd (e : Raised) (s : State) : (raise e s).cmd = s.cmd := rfl
@[simp] theorem raise_status (e : Raised) (s : State) : (raise e s).status = errorFlags e.code s.status := rfl
@[simp] theorem raise_irqEn (e : Raised) (s : State) : (raise e s).irqEn = s.irqEn := rfl
@[simp] theorem raise_errInfo (e : Raised) (s : State) : (raise e s).errInfo = e.info := rfl
@[simp] theorem raise_params (e : Raised) (s : State) : (raise e s).params = s.params := rfl
@[simp] theorem raise_results (e : Raised) (s : State) : (raise e s).results = s.results := rfl
@[simp] theorem raise_matrix (e : Raised) (s : State) : (raise e s).matrix = s.matrix := rfl
@[simp] theorem raise_bufLog (e : Raised) (s : State) : (raise e s).bufLog = s.bufLog := rfl
@[simp] theorem raise_buf (e : Raised) (s : State) : (raise e s).buf = s.buf := rfl
@[simp] theorem raise_resets (e : Raised) (s : State) : (raise e s).resets = s.resets := rfl
@[simp] theorem raise_events (e : Raised) (s : State) : (raise e s).events = s.events := rfl
@[simp] theorem raise_replies (e : Raised) (s : State) : (raise e s).replies = s.replies := rfl

@[simp] theorem acknowledge_phase (s : State) : (acknowledge s).phase = s.phase := rfl
@[simp] theorem acknowledge_cmd (s : State) : (acknowledge s).cmd = s.cmd := rfl
@[simp] theorem acknowledge_status (s : State) : (acknowledge s).status = clearW1C 0x06 s.status := rfl
@[simp] theorem acknowledge_irqEn (s : State) : (acknowledge s).irqEn = s.irqEn := rfl
@[simp] theorem acknowledge_errInfo (s : State) : (acknowledge s).errInfo = s.errInfo := rfl
@[simp] theorem acknowledge_params (s : State) : (acknowledge s).params = s.params := rfl
@[simp] theorem acknowledge_results (s : State) : (acknowledge s).results = s.results := rfl
@[simp] theorem acknowledge_matrix (s : State) : (acknowledge s).matrix = s.matrix := rfl
@[simp] theorem acknowledge_bufLog (s : State) : (acknowledge s).bufLog = s.bufLog := rfl
@[simp] theorem acknowledge_buf (s : State) : (acknowledge s).buf = s.buf := rfl
@[simp] theorem acknowledge_resets (s : State) : (acknowledge s).resets = s.resets := rfl
@[simp] theorem acknowledge_events (s : State) : (acknowledge s).events = s.events := rfl
@[simp] theorem acknowledge_replies (s : State) : (acknowledge s).replies = s.replies := rfl

@[simp] theorem writeBuf_phase (a : Nat) (bs : List Byte) (s : State) : (writeBuf a bs s).phase = s.phase := rfl
@[simp] theorem writeBuf_cmd (a : Nat) (bs : List Byte) (s : State) : (writeBuf a bs s).cmd = s.cmd := rfl
@[simp] theorem writeBuf_status (a : Nat) (bs : List Byte) (s : State) : (writeBuf a bs s).status = s.status := rfl
@[simp] theorem writeBuf_irqEn (a : Nat) (bs : List Byte) (s : State) : (writeBuf a bs s).irqEn = s.irqEn := rfl
@[simp] theorem writeBuf_errInfo (a : Nat) (bs : List Byte) (s : State) : (writeBuf a bs s).errInfo = s.errInfo := rfl
@[simp] theorem writeBuf_params (a : Nat) (bs : List Byte) (s : State) : (writeBuf a bs s).params = s.params := rfl
@[simp] theorem writeBuf_results (a : Nat) (bs : List Byte) (s : State) : (writeBuf a bs s).results = s.results := rfl
@[simp] theorem writeBuf_matrix (a : Nat) (bs : List Byte) (s : State) : (writeBuf a bs s).matrix = s.matrix := rfl
@[simp] theorem writeBuf_bufLog (a : Nat) (bs : List Byte) (s : State) : (writeBuf a bs s).bufLog = s.bufLog := rfl
@[simp] theorem writeBuf_buf (a : Nat) (bs : List Byte) (s : State) : (writeBuf a bs s).buf = memWriteBytes s.buf a bs := rfl
@[simp] theorem writeBuf_resets (a : Nat) (bs : List Byte) (s : State) : (writeBuf a bs s).resets = s.resets := rfl
@[simp] theorem writeBuf_events (a : Nat) (bs : List Byte) (s : State) : (writeBuf a bs s).events = s.events := rfl
@[simp] theorem writeBuf_replies (a : Nat) (bs : List Byte) (s : State) : (writeBuf a bs s).replies = s.replies := rfl

@[simp] theorem commit_phase (c : Commit) (s : State) : (commit c s).phase = .idle := rfl
@[simp] theorem commit_cmd (c : Commit) (s : State) : (commit c s).cmd = s.cmd := rfl
@[simp] theorem commit_status (c : Commit) (s : State) : (commit c s).status = commitFlags c s.status := rfl
@[simp] theorem commit_irqEn (c : Commit) (s : State) : (commit c s).irqEn = s.irqEn := rfl
@[simp] theorem commit_errInfo (c : Commit) (s : State) : (commit c s).errInfo = s.errInfo := rfl
@[simp] theorem commit_params (c : Commit) (s : State) : (commit c s).params = s.params := rfl
@[simp] theorem commit_results (c : Commit) (s : State) : (commit c s).results = c.results.getD s.results := rfl
@[simp] theorem commit_matrix (c : Commit) (s : State) : (commit c s).matrix = c.matrix.getD s.matrix := rfl
@[simp] theorem commit_bufLog (c : Commit) (s : State) : (commit c s).bufLog = s.bufLog := rfl
@[simp] theorem commit_buf (c : Commit) (s : State) : (commit c s).buf = storedBuf c.store s.buf := rfl
@[simp] theorem commit_resets (c : Commit) (s : State) : (commit c s).resets = s.resets := rfl
@[simp] theorem commit_events (c : Commit) (s : State) : (commit c s).events = s.events := rfl
@[simp] theorem commit_replies (c : Commit) (s : State) : (commit c s).replies = s.replies := rfl

@[simp] theorem platformReset_phase (s : State) : (platformReset s).phase = (State.resetOf s.bufLog).phase := rfl
@[simp] theorem platformReset_cmd (s : State) : (platformReset s).cmd = (State.resetOf s.bufLog).cmd := rfl
@[simp] theorem platformReset_status (s : State) : (platformReset s).status = (State.resetOf s.bufLog).status := rfl
@[simp] theorem platformReset_irqEn (s : State) : (platformReset s).irqEn = (State.resetOf s.bufLog).irqEn := rfl
@[simp] theorem platformReset_errInfo (s : State) : (platformReset s).errInfo = (State.resetOf s.bufLog).errInfo := rfl
@[simp] theorem platformReset_params (s : State) : (platformReset s).params = (State.resetOf s.bufLog).params := rfl
@[simp] theorem platformReset_results (s : State) : (platformReset s).results = (State.resetOf s.bufLog).results := rfl
@[simp] theorem platformReset_matrix (s : State) : (platformReset s).matrix = (State.resetOf s.bufLog).matrix := rfl
@[simp] theorem platformReset_bufLog (s : State) : (platformReset s).bufLog = s.bufLog := rfl
@[simp] theorem platformReset_buf (s : State) : (platformReset s).buf = (State.resetOf s.bufLog).buf := rfl
@[simp] theorem platformReset_resets (s : State) : (platformReset s).resets = s.resets + 1 := rfl
@[simp] theorem platformReset_events (s : State) : (platformReset s).events = s.events := rfl
@[simp] theorem platformReset_replies (s : State) : (platformReset s).replies = s.replies := rfl

@[simp] theorem reply_phase (r : Reply) (s : State) : (reply r s).phase = s.phase := rfl
@[simp] theorem reply_cmd (r : Reply) (s : State) : (reply r s).cmd = s.cmd := rfl
@[simp] theorem reply_status (r : Reply) (s : State) : (reply r s).status = s.status := rfl
@[simp] theorem reply_irqEn (r : Reply) (s : State) : (reply r s).irqEn = s.irqEn := rfl
@[simp] theorem reply_errInfo (r : Reply) (s : State) : (reply r s).errInfo = s.errInfo := rfl
@[simp] theorem reply_params (r : Reply) (s : State) : (reply r s).params = s.params := rfl
@[simp] theorem reply_results (r : Reply) (s : State) : (reply r s).results = s.results := rfl
@[simp] theorem reply_matrix (r : Reply) (s : State) : (reply r s).matrix = s.matrix := rfl
@[simp] theorem reply_bufLog (r : Reply) (s : State) : (reply r s).bufLog = s.bufLog := rfl
@[simp] theorem reply_buf (r : Reply) (s : State) : (reply r s).buf = s.buf := rfl
@[simp] theorem reply_resets (r : Reply) (s : State) : (reply r s).resets = s.resets := rfl
@[simp] theorem reply_events (r : Reply) (s : State) : (reply r s).events = s.events := rfl
@[simp] theorem reply_replies (r : Reply) (s : State) : (reply r s).replies = r :: s.replies := rfl

@[simp] theorem commitFlags_done (c : Commit) (f : Status) : (commitFlags c f).done = true := rfl
@[simp] theorem commitFlags_err (c : Commit) (f : Status) : (commitFlags c f).err = f.err := rfl
@[simp] theorem commitFlags_keyValid (c : Commit) (f : Status) :
    (commitFlags c f).keyValid = (f.keyValid || c.matrix.isSome) := rfl
@[simp] theorem commitFlags_utf8Drop (c : Commit) (f : Status) :
    (commitFlags c f).utf8Drop = c.utf8Drop.getD f.utf8Drop := rfl
@[simp] theorem commitFlags_hostColl (c : Commit) (f : Status) : (commitFlags c f).hostColl = f.hostColl := rfl
@[simp] theorem commitFlags_errCode (c : Commit) (f : Status) : (commitFlags c f).errCode = f.errCode := rfl

@[simp] theorem errorFlags_done (e : ErrorCode) (f : Status) : (errorFlags e f).done = true := rfl
@[simp] theorem errorFlags_err (e : ErrorCode) (f : Status) : (errorFlags e f).err = true := rfl
@[simp] theorem errorFlags_keyValid (e : ErrorCode) (f : Status) : (errorFlags e f).keyValid = f.keyValid := rfl
@[simp] theorem errorFlags_utf8Drop (e : ErrorCode) (f : Status) : (errorFlags e f).utf8Drop = f.utf8Drop := rfl
@[simp] theorem errorFlags_hostColl (e : ErrorCode) (f : Status) : (errorFlags e f).hostColl = f.hostColl := rfl
@[simp] theorem errorFlags_errCode (e : ErrorCode) (f : Status) : (errorFlags e f).errCode = e := rfl

@[simp] theorem acceptFlags_done (f : Status) : (acceptFlags f).done = false := rfl
@[simp] theorem acceptFlags_err (f : Status) : (acceptFlags f).err = false := rfl
@[simp] theorem acceptFlags_keyValid (f : Status) : (acceptFlags f).keyValid = f.keyValid := rfl
@[simp] theorem acceptFlags_utf8Drop (f : Status) : (acceptFlags f).utf8Drop = false := rfl
@[simp] theorem acceptFlags_hostColl (f : Status) : (acceptFlags f).hostColl = f.hostColl := rfl
@[simp] theorem acceptFlags_errCode (f : Status) : (acceptFlags f).errCode = .none := rfl

@[simp] theorem clearW1C_done (v : Word) (f : Status) : (clearW1C v f).done = (f.done && !v.getLsbD 1) := rfl
@[simp] theorem clearW1C_err (v : Word) (f : Status) : (clearW1C v f).err = (f.err && !v.getLsbD 2) := rfl
@[simp] theorem clearW1C_keyValid (v : Word) (f : Status) : (clearW1C v f).keyValid = f.keyValid := rfl
@[simp] theorem clearW1C_utf8Drop (v : Word) (f : Status) : (clearW1C v f).utf8Drop = (f.utf8Drop && !v.getLsbD 4) := rfl
@[simp] theorem clearW1C_hostColl (v : Word) (f : Status) : (clearW1C v f).hostColl = (f.hostColl && !v.getLsbD 5) := rfl
@[simp] theorem clearW1C_errCode (v : Word) (f : Status) : (clearW1C v f).errCode = f.errCode := rfl

@[simp] theorem storedBuf_some (a : Nat) (bs : List Byte) (m : Memory) :
    storedBuf (some (a, bs)) m = memWriteBytes m a bs := rfl
@[simp] theorem storedBuf_none (m : Memory) : storedBuf none m = m := rfl

end Sys2Proof.Machine
end

