-- ==== Sys2Proof/Laws/Ops.lean ====
section
/-! SUPPORT. The laws of the shared operations: reading BUF after a write, what a completion can be, what the shared checks and
the shared ends of the command rules can answer. -/

namespace Sys2Proof.Machine

theorem bufBytes_pos (s : State) : 0 < bufBytes s := by simp [bufBytes]

theorem bufBytes_ge (s : State) : 256 ≤ bufBytes s :=
  (Nat.pow_le_pow_right (by decide) (Nat.le_add_right 8 s.bufLog.val) : 2 ^ 8 ≤ 2 ^ (8 + s.bufLog.val))

theorem bufBytes_le (s : State) : bufBytes s ≤ 2 ^ 24 :=
  Nat.pow_le_pow_right (by decide) (by have := s.bufLog.isLt; omega)

theorem bufBytes_congr {s t : State} (h : t.bufLog = s.bufLog) : bufBytes t = bufBytes s := by simp [bufBytes, h]

/-- Reading a byte depends on BUF and on the free draw only. -/
theorem bufByte_congr {s t : State} (hb : t.buf = s.buf) (hr : t.resets = s.resets) (a : Nat) :
    bufByte t a = bufByte s a := by simp [bufByte, hb, hr]

/-- A byte outside a stored string reads as before. -/
theorem bufByte_stored_outside {s t : State} {a : Nat} {bs : List Byte} (hb : t.buf = memWriteBytes s.buf a bs)
    (hr : t.resets = s.resets) {a' : Nat} (h : a' < a ∨ a + bs.length ≤ a') : bufByte t a' = bufByte s a' := by
  simp [bufByte, hb, hr, memFind_memWriteBytes_outside _ _ _ _ h]

/-- A byte inside a stored string reads as stored. -/
theorem bufByte_stored_inside {s t : State} {a : Nat} {bs : List Byte} (hb : t.buf = memWriteBytes s.buf a bs)
    {j : Nat} (h : j < bs.length) : bufByte t (a + j) = bs[j] := by
  simp [bufByte, hb, memFind_memWriteBytes_inside _ _ _ _ h]

@[simp] theorem length_bufSlice (s : State) (a n : Nat) : (bufSlice s a n).length = n := by simp [bufSlice]

theorem getElem_bufSlice (s : State) (a n i : Nat) (h : i < (bufSlice s a n).length) :
    (bufSlice s a n)[i] = bufByte s (a + i) := by simp [bufSlice]

/-- Two slices agree when their bytes do. -/
theorem bufSlice_congr {s t : State} {a n : Nat} (h : ∀ i < n, bufByte t (a + i) = bufByte s (a + i)) :
    bufSlice t a n = bufSlice s a n :=
  List.map_congr_left fun i hi => h i (List.mem_range.1 hi)

@[simp] theorem length_srcBytes (s : State) : (srcBytes s).length = s.params.srcLen.toNat := length_bufSlice ..

@[simp] theorem length_keyBytes (s : State) : (keyBytes s).length = s.params.keyLen.toNat := length_bufSlice ..

@[simp] theorem complete_error (e : Raised) (s : State) : complete (.error e) s = raise e s := rfl

@[simp] theorem complete_ok (c : Commit) (s : State) : complete (.ok c) s = commit c s := rfl

/-- What a completion can be (R218): an error completion, or the commit of the rule's writes. -/
theorem complete_cases (r : Except Raised Commit) (s : State) :
    (∃ e, r = .error e ∧ complete r s = raise e s) ∨ (∃ c, r = .ok c ∧ complete r s = commit c s) := by
  cases r with
  | error e => exact .inl ⟨e, rfl, rfl⟩
  | ok c => exact .inr ⟨c, rfl, rfl⟩

/-- A completion keeps everything but the phase, STATUS, ERRINFO, the results, MATRIX and BUF. -/
theorem complete_keeps (r : Except Raised Commit) (s : State) :
    (complete r s).phase = .idle ∧ (complete r s).cmd = s.cmd ∧ (complete r s).irqEn = s.irqEn ∧
    (complete r s).params = s.params ∧ (complete r s).bufLog = s.bufLog ∧ (complete r s).resets = s.resets ∧
    (complete r s).events = s.events ∧ (complete r s).replies = s.replies := by
  cases r <;> exact ⟨rfl, rfl, rfl, rfl, rfl, rfl, rfl, rfl⟩

/-- The shared checks pass exactly when each of them does (R214, steps 2 to 7). -/
theorem preCheck_none_iff (u : Uses) (s : State) :
    preCheck u s = none ↔ checkFormat u s = none ∧ checkDepth u s = none ∧ checkRails u s = none ∧
      checkAlignSrc u s = none ∧ checkAlignDst u s = none ∧ checkRange u s = none ∧ checkOverlap u s = none := by
  simp [preCheck]

/-- The shared checks fail with the first failed check (R214, steps 2 to 7). -/
theorem preCheck_eq (u : Uses) (s : State) :
    preCheck u s = (checkFormat u s <|> checkDepth u s <|> checkRails u s <|> checkAlignSrc u s <|>
      checkAlignDst u s <|> checkRange u s <|> checkOverlap u s) := by
  cases h1 : checkFormat u s <;> cases h2 : checkDepth u s <;> cases h3 : checkRails u s <;>
    cases h4 : checkAlignSrc u s <;> cases h5 : checkAlignDst u s <;> cases h6 : checkRange u s <;>
    cases h7 : checkOverlap u s <;> simp [preCheck, h1, h2, h3, h4, h5, h6, h7]

/-- The error codes of the shared checks (R214, steps 2 to 7). -/
theorem preCheck_code {u : Uses} {s : State} {e : Raised} (h : preCheck u s = some e) :
    (u.cfg = true ∧ (e.code = .unsupportedFormat ∨ e.code = .param)) ∨ (u.rails = true ∧ e.code = .invalidKey) ∨
    ((Region.smpi ∈ u.regions ∨ Region.smpo ∈ u.regions) ∧ e.code = .align) ∨
    (u.regions ≠ [] ∧ e.code = .range) ∨
    ((∃ p ∈ orderedPairs u.regions, (p.1.written || p.2.written) = true) ∧ e.code = .overlap) := by
  obtain ⟨c, hc, he⟩ := List.exists_of_findSome?_eq_some h
  simp only [List.mem_cons, List.not_mem_nil, or_false] at hc
  have he : c = some e := he
  rcases hc with rfl | rfl | rfl | rfl | rfl | rfl | rfl
  · simp only [checkFormat, Option.ite_none_right_eq_some, Bool.and_eq_true] at he
    exact .inl ⟨he.1.1, .inl (by rw [← Option.some.inj he.2])⟩
  · simp only [checkDepth, Option.ite_none_right_eq_some, Bool.and_eq_true] at he
    exact .inl ⟨he.1.1, .inr (by rw [← Option.some.inj he.2])⟩
  · simp only [checkRails, Option.ite_none_right_eq_some, Bool.and_eq_true] at he
    exact .inr (.inl ⟨he.1.1, by rw [← Option.some.inj he.2]⟩)
  · simp only [checkAlignSrc, Option.ite_none_right_eq_some, Bool.and_eq_true, List.contains_iff_mem] at he
    exact .inr (.inr (.inl ⟨.inl he.1.1, by rw [← Option.some.inj he.2]⟩))
  · simp only [checkAlignDst, Option.ite_none_right_eq_some, Bool.and_eq_true, List.contains_iff_mem] at he
    exact .inr (.inr (.inl ⟨.inr he.1.1, by rw [← Option.some.inj he.2]⟩))
  · simp only [checkRange, Option.map_eq_some_iff] at he
    obtain ⟨r, hr, rfl⟩ := he
    exact .inr (.inr (.inr (.inl ⟨List.ne_nil_of_mem (List.mem_of_find?_eq_some hr), rfl⟩)))
  · simp only [checkOverlap, Option.map_eq_some_iff] at he
    obtain ⟨p, hp, rfl⟩ := he
    have hw := List.find?_some hp
    simp only [overlaps, Bool.and_eq_true] at hw
    exact .inr (.inr (.inr (.inr ⟨⟨p, List.mem_of_find?_eq_some hp, hw.1.1⟩, rfl⟩)))

/-- A rule past its shared checks: it gave a commit only if they all passed and its body gave it. -/
theorem afterChecks_ok {i : Instr} {s : State} {body : Unit → Except Raised Commit} {c : Commit}
    (h : afterChecks i s body = .ok c) : preCheck (uses i) s = none ∧ body () = .ok c := by
  unfold afterChecks at h
  split at h
  · cases h
  · exact ⟨‹_›, h⟩

/-- A rule that ended in an error: the first failed shared check, or its body's. -/
theorem afterChecks_error {i : Instr} {s : State} {body : Unit → Except Raised Commit} {e : Raised}
    (h : afterChecks i s body = .error e) :
    preCheck (uses i) s = some e ∨ (preCheck (uses i) s = none ∧ body () = .error e) := by
  unfold afterChecks at h
  split at h
  · cases h; exact .inl ‹_›
  · exact .inr ⟨‹_›, h⟩

theorem afterChecks_of_none {i : Instr} {s : State} (body : Unit → Except Raised Commit)
    (h : preCheck (uses i) s = none) : afterChecks i s body = body () := by simp [afterChecks, h]

theorem afterChecks_of_some {i : Instr} {s : State} (body : Unit → Except Raised Commit) {e : Raised}
    (h : preCheck (uses i) s = some e) : afterChecks i s body = .error e := by simp [afterChecks, h]

/-- The shared end of a text command: DSTCAP, or the output stored at DST_ADDR. -/
theorem dstCommit_cases (s : State) (out : List Byte) (m : Option (Vector Byte 25)) (u : Option Bool) (r : Results) :
    (s.params.dstCap.toNat < out.length ∧ dstCommit s out m u r = .error ⟨.dstCap, word out.length⟩) ∨
    (out.length ≤ s.params.dstCap.toNat ∧ dstCommit s out m u r =
      .ok { store := some (s.params.dstAddr.toNat, out), matrix := m, utf8Drop := u, results := some r }) := by
  unfold dstCommit
  split
  · exact .inl ⟨‹_›, rfl⟩
  · exact .inr ⟨by omega, rfl⟩

/-- The key checks: INVALID_KEY 0, INVALID_KEY 1, or the body on the normalised key. -/
theorem withKey_cases (s : State) (body : List Byte → Except Raised Commit) :
    (s.params.keyLen = 0 ∧ withKey s body = .error ⟨.invalidKey, 0⟩) ∨
    (s.params.keyLen ≠ 0 ∧ normalise (keyBytes s) = [] ∧ withKey s body = .error ⟨.invalidKey, 1⟩) ∨
    (normalise (keyBytes s) ≠ [] ∧ s.params.keyLen ≠ 0 ∧ withKey s body = body (normalise (keyBytes s))) := by
  unfold withKey
  split
  · exact .inl ⟨‹_›, rfl⟩
  · split
    · exact .inr (.inl ⟨‹_›, ‹_›, rfl⟩)
    · exact .inr (.inr ⟨‹_›, ‹_›, rfl⟩)

/-- The shared end of an embed: CAPACITY with K, or the N output samples stored at SMP_DST. -/
theorem embedCommit_cases (s : State) (m : List Byte) (x : Option (Vector Byte 25)) :
    (s.params.smpCount.toNat < samplesFor (8 * m.length) s.params.depth.toNat ∧
      embedCommit s m x = .error ⟨.capacity, word (samplesFor (8 * m.length) s.params.depth.toNat)⟩) ∨
    (samplesFor (8 * m.length) s.params.depth.toNat ≤ s.params.smpCount.toNat ∧
      embedCommit s m x =
        .ok { store := some (s.params.smpDst.toNat,
                sampleBytesOf (embedSamples m s.params.depth.toNat (carriers s s.params.smpCount.toNat))),
              matrix := x, utf8Drop := none,
              results := some (frameResults m.length (8 * m.length)
                (samplesFor (8 * m.length) s.params.depth.toNat)) }) := by
  unfold embedCommit
  dsimp only
  split
  · exact .inl ⟨‹_›, rfl⟩
  · exact .inr ⟨by omega, rfl⟩

/-- Reading a frame back: no room for the prefix, no whole number of bytes, a frame longer than the carrier, or the payload. -/
theorem extractFrame_cases (s : State) :
    let d := s.params.depth.toNat
    let N := s.params.smpCount.toNat
    let H := ceilDiv 32 d
    let L := prefixLength (streamBits d (carriers s H))
    let K := samplesFor L d
    (N < H ∧ extractFrame s = .error ⟨.capacity, word H⟩) ∨
    (H ≤ N ∧ L % 8 ≠ 0 ∧ extractFrame s = .error ⟨.frame, word L⟩) ∨
    (H ≤ N ∧ L % 8 = 0 ∧ N < K ∧ extractFrame s = .error ⟨.capacity, word (min K 0xFFFFFFFF)⟩) ∨
    (H ≤ N ∧ L % 8 = 0 ∧ K ≤ N ∧
      extractFrame s = .ok { payload := payloadBytes (streamBits d (carriers s K)) L, bits := L, samples := K }) := by
  intro d N H L K
  unfold extractFrame
  dsimp only
  split
  · exact .inl ⟨‹_›, rfl⟩
  · have hH : H ≤ N := not_lt.1 ‹_›
    split
    · exact .inr (.inl ⟨hH, ‹_›, rfl⟩)
    · have hL : L % 8 = 0 := not_not.1 ‹_›
      split
      · exact .inr (.inr (.inl ⟨hH, hL, ‹_›, rfl⟩))
      · exact .inr (.inr (.inr ⟨hH, hL, not_lt.1 ‹_›, rfl⟩))

/-- The input checks of substitution decrypt pass exactly on an even number of matrix letters. -/
theorem checkCipherText_none_iff (m : Vector Byte 25) (c : List Byte) :
    checkCipherText m c = none ↔ c.length % 2 = 0 ∧ ∀ b ∈ c, b ∈ m.toList := by
  unfold checkCipherText firstForeign
  split
  · simp; omega
  · simp; omega

/-- The input checks of substitution decrypt fail with INPUT_ODD, or with INPUT_CHAR at the lowest offset. -/
theorem checkCipherText_some {m : Vector Byte 25} {c : List Byte} {e : Raised} (h : checkCipherText m c = some e) :
    (c.length % 2 = 1 ∧ e = ⟨.inputOdd, word c.length⟩) ∨
    (c.length % 2 = 0 ∧ ∃ i, firstForeign m c = some i ∧ e = ⟨.inputChar, word i⟩) := by
  unfold checkCipherText at h
  split at h
  · exact .inl ⟨‹_›, (Option.some.inj h).symm⟩
  · obtain ⟨i, hi, rfl⟩ := Option.map_eq_some_iff.1 h
    exact .inr ⟨by omega, i, hi, rfl⟩

end Sys2Proof.Machine
end

