-- ==== Sys2Proof/Laws/Checks.lean ====
section
/-! SUPPORT. When the shared checks of each command pass, in the arithmetic terms of R71 to R73. -/

namespace Sys2Proof.Machine

open Sys2Proof.Safety

theorem inRange_iff (s : State) (r : Region) :
    inRange s r = true ↔ InRange s (regionBase s r) (regionLen s r) := by
  simp [inRange, InRange]

theorem intersects_false_iff (s : State) (a b : Region) :
    intersects s a b = false ↔ Apart (regionBase s a) (regionLen s a) (regionBase s b) (regionLen s b) := by
  simp only [intersects, Apart, Bool.and_eq_false_iff, decide_eq_false_iff_not]
  omega

/-- The range check passes exactly when every used region is in range (R71). -/
theorem checkRange_none_iff (u : Uses) (s : State) :
    checkRange u s = none ↔ ∀ r ∈ u.regions, InRange s (regionBase s r) (regionLen s r) := by
  simp only [checkRange, Option.map_eq_none_iff, List.find?_eq_none]
  refine forall₂_congr fun r _ => ?_
  rw [← inRange_iff]
  simp

/-- The overlap check passes exactly when no pair with a written region overlaps, but the exempt one (R72). -/
theorem checkOverlap_none_iff (u : Uses) (s : State) :
    checkOverlap u s = none ↔ ∀ p ∈ orderedPairs u.regions, (p.1.written || p.2.written) = true →
      Apart (regionBase s p.1) (regionLen s p.1) (regionBase s p.2) (regionLen s p.2) ∨ inPlace s p.1 p.2 = true := by
  simp only [checkOverlap, Option.map_eq_none_iff, List.find?_eq_none]
  refine forall₂_congr fun p _ => ?_
  rw [← intersects_false_iff, overlaps]
  cases p.1.written || p.2.written <;> cases intersects s p.1 p.2 <;> cases inPlace s p.1 p.2 <;> simp

/-- The in-place exemption (R72). -/
theorem inPlace_smpi_smpo_iff (s : State) :
    inPlace s .smpi .smpo = true ↔ s.params.smpSrc = s.params.smpDst ∧ s.params.sfmt = 0 := by
  simp [inPlace]

theorem inPlace_eq_false {s : State} {a b : Region} (h : a ≠ .smpi) : inPlace s a b = false := by
  simp [inPlace, h]

theorem inPlace_eq_false' {s : State} {a b : Region} (h : b ≠ .smpo) : inPlace s a b = false := by
  simp [inPlace, h]

theorem checkFormat_none_iff (u : Uses) (s : State) :
    checkFormat u s = none ↔ (u.cfg = true → s.params.sfmt.toNat ≤ 1) := by
  simp [checkFormat]

theorem checkDepth_none_iff (u : Uses) (s : State) :
    checkDepth u s = none ↔ (u.cfg = true → 1 ≤ s.params.depth.toNat ∧ s.params.depth.toNat ≤ 8) := by
  simp [checkDepth, depthLegal, Nat.one_le_iff_ne_zero]

theorem checkRails_none_iff (u : Uses) (s : State) :
    checkRails u s = none ↔ (u.rails = true → s.params.rails ≠ 0) := by
  simp [checkRails]

theorem checkAlignSrc_none_iff (u : Uses) (s : State) :
    checkAlignSrc u s = none ↔ (Region.smpi ∈ u.regions → s.params.smpSrc.toNat % sampleWidth s = 0) := by
  simp [checkAlignSrc, sampleBytes, sampleWidth]

theorem checkAlignDst_none_iff (u : Uses) (s : State) :
    checkAlignDst u s = none ↔ (Region.smpo ∈ u.regions → s.params.smpDst.toNat % 2 = 0) := by
  simp [checkAlignDst]

/-- Steps 2 to 7 of R214 all pass, in the terms of R38, R71 to R73. -/
theorem preCheck_pass_iff (u : Uses) (s : State) :
    preCheck u s = none ↔
      (u.cfg = true → s.params.sfmt.toNat ≤ 1) ∧
      (u.cfg = true → 1 ≤ s.params.depth.toNat ∧ s.params.depth.toNat ≤ 8) ∧
      (u.rails = true → s.params.rails ≠ 0) ∧
      (Region.smpi ∈ u.regions → s.params.smpSrc.toNat % sampleWidth s = 0) ∧
      (Region.smpo ∈ u.regions → s.params.smpDst.toNat % 2 = 0) ∧
      (∀ r ∈ u.regions, InRange s (regionBase s r) (regionLen s r)) ∧
      (∀ p ∈ orderedPairs u.regions, (p.1.written || p.2.written) = true →
        Apart (regionBase s p.1) (regionLen s p.1) (regionBase s p.2) (regionLen s p.2) ∨
        inPlace s p.1 p.2 = true) := by
  rw [preCheck_none_iff, checkFormat_none_iff, checkDepth_none_iff, checkRails_none_iff, checkAlignSrc_none_iff,
    checkAlignDst_none_iff, checkRange_none_iff, checkOverlap_none_iff]

/-- The text commands' checks (SUB.ENC, SUB.DEC). -/
theorem preCheck_subText_iff (s : State) :
    preCheck { regions := [.src, .dst], cfg := false, rails := false } s = none ↔ TextReady s := by
  rw [preCheck_pass_iff]
  constructor
  · rintro ⟨-, -, -, -, -, hr, ho⟩
    exact ⟨hr .src (by decide), hr .dst (by decide),
      (ho (.src, .dst) (by decide) rfl).resolve_right (by simp [inPlace])⟩
  · rintro ⟨h1, h2, h3⟩
    refine ⟨by simp, by simp, by simp, by simp, by simp, ?_, ?_⟩
    · intro r hr
      simp only [List.mem_cons, List.not_mem_nil, or_false] at hr
      rcases hr with rfl | rfl
      · exact h1
      · exact h2
    · intro p hp _
      obtain rfl : p = (.src, .dst) := by simpa [orderedPairs] using hp
      exact .inl h3

/-- The text commands' checks with a rail count (ZZ.ENC, ZZ.DEC). -/
theorem preCheck_zzText_iff (s : State) :
    preCheck { regions := [.src, .dst], cfg := false, rails := true } s = none ↔ s.params.rails ≠ 0 ∧ TextReady s := by
  rw [← preCheck_subText_iff, preCheck_pass_iff, preCheck_pass_iff]
  simp

/-- SUB.KEY's checks. -/
theorem preCheck_subKey_iff (s : State) : preCheck (uses .subKey) s = none ↔ KeyInRange s := by
  rw [preCheck_pass_iff]
  simp [uses, orderedPairs, regionBase, regionLen]

/-- LSB.EMBED's checks. -/
theorem preCheck_lsbEmbed_iff (s : State) : preCheck (uses .lsbEmbed) s = none ↔ EmbedReady s := by
  rw [preCheck_pass_iff]
  constructor
  · rintro ⟨h1, h2, -, h4, h5, hr, ho⟩
    refine ⟨⟨h1 rfl, (h2 rfl).1, (h2 rfl).2⟩, ⟨h4 (by decide), hr .smpi (by decide)⟩, ⟨h5 (by decide), hr .smpo (by decide)⟩,
      hr .src (by decide), (ho (.src, .smpo) (by decide) rfl).resolve_right (by simp [inPlace]), ?_⟩
    exact (ho (.smpi, .smpo) (by decide) rfl).imp_right (inPlace_smpi_smpo_iff s).1
  · rintro ⟨⟨h1, h2, h2'⟩, ⟨h3, h4⟩, ⟨h5, h6⟩, h7, h8, h9⟩
    refine ⟨fun _ => h1, fun _ => ⟨h2, h2'⟩, by simp [uses], fun _ => h3, fun _ => h5, ?_, ?_⟩
    · intro r hr
      simp only [uses, List.mem_cons, List.not_mem_nil, or_false] at hr
      rcases hr with rfl | rfl | rfl
      · exact h7
      · exact h4
      · exact h6
    · intro p hp hw
      simp only [uses, orderedPairs, List.map_cons, List.map_nil, List.append_nil, List.cons_append, List.nil_append,
        List.mem_cons, List.not_mem_nil, or_false] at hp
      rcases hp with rfl | rfl | rfl
      · cases hw
      · exact .inl h8
      · exact h9.imp_right (inPlace_smpi_smpo_iff s).2

/-- LSB.EXTRACT's checks. -/
theorem preCheck_lsbExtract_iff (raw : Bool) (s : State) :
    preCheck (uses (.lsbExtract raw)) s = none ↔ ExtractReady s := by
  rw [preCheck_pass_iff]
  constructor
  · rintro ⟨h1, h2, -, h4, -, hr, ho⟩
    exact ⟨⟨h1 rfl, (h2 rfl).1, (h2 rfl).2⟩, ⟨h4 (by simp [uses]), hr .smpi (by simp [uses])⟩, hr .dst (by simp [uses]),
      (ho (.dst, .smpi) (by simp [uses, orderedPairs]) rfl).resolve_right (by simp [inPlace])⟩
  · rintro ⟨⟨h1, h2, h2'⟩, ⟨h3, h4⟩, h5, h6⟩
    refine ⟨fun _ => h1, fun _ => ⟨h2, h2'⟩, by simp [uses], fun _ => h3, by simp [uses], ?_, ?_⟩
    · intro r hr
      simp only [uses, List.mem_cons, List.not_mem_nil, or_false] at hr
      rcases hr with rfl | rfl
      · exact h5
      · exact h4
    · intro p hp hw
      obtain rfl : p = (.dst, .smpi) := by simpa [uses, orderedPairs] using hp
      exact .inl h6

/-- PIPE.ENC's checks, but for the passphrase. -/
theorem preCheck_pipeEnc_iff (s : State) :
    preCheck (uses .pipeEnc) s = none ↔
      EmbedReady s ∧ s.params.rails ≠ 0 ∧ KeyInRange s ∧ SmpoApartFrom s s.params.keyAddr.toNat s.params.keyLen.toNat := by
  rw [preCheck_pass_iff, ← preCheck_lsbEmbed_iff, preCheck_pass_iff]
  constructor
  · rintro ⟨h1, h2, h3, h4, h5, hr, ho⟩
    refine ⟨⟨h1, h2, by simp [uses], fun _ => h4 (by decide), fun _ => h5 (by decide), fun r h => hr r (List.mem_cons_of_mem _ h), fun p hp => ho p ?_⟩, h3 rfl,
      hr .key (by decide), (ho (.key, .smpo) (by decide) rfl).resolve_right (by simp [inPlace])⟩
    exact List.mem_append_right _ hp
  · rintro ⟨⟨h1, h2, -, h4, h5, hr, ho⟩, h3, h6, h7⟩
    refine ⟨h1, h2, fun _ => h3, fun _ => h4 (by decide), fun _ => h5 (by decide), ?_, ?_⟩
    · intro r h
      rcases List.mem_cons.1 h with rfl | h
      · exact h6
      · exact hr r h
    · intro p hp hw
      rcases List.mem_append.1 (show p ∈ _ ++ orderedPairs (uses .lsbEmbed).regions from hp) with hp | hp
      · simp only [List.map_cons, List.map_nil, List.mem_cons, List.not_mem_nil, or_false] at hp
        rcases hp with rfl | rfl | rfl
        · cases hw
        · cases hw
        · exact .inl h7
      · exact ho p hp hw

/-- PIPE.DEC's checks, but for the passphrase. -/
theorem preCheck_pipeDec_iff (raw : Bool) (s : State) :
    preCheck (uses (.pipeDec raw)) s = none ↔
      ExtractReady s ∧ s.params.rails ≠ 0 ∧ KeyInRange s ∧
      Apart s.params.keyAddr.toNat s.params.keyLen.toNat s.params.dstAddr.toNat s.params.dstCap.toNat := by
  rw [preCheck_pass_iff, ← preCheck_lsbExtract_iff raw, preCheck_pass_iff]
  constructor
  · rintro ⟨h1, h2, h3, h4, h5, hr, ho⟩
    exact ⟨⟨h1, h2, by simp [uses], fun _ => h4 (by simp [uses]), by simp [uses], fun r h => hr r (List.mem_cons_of_mem _ h),
      fun p hp => ho p (List.mem_append_right _ hp)⟩, h3 rfl, hr .key (by simp [uses]),
      (ho (.key, .dst) (by simp [uses, orderedPairs]) rfl).resolve_right (by simp [inPlace])⟩
  · rintro ⟨⟨h1, h2, -, h4, -, hr, ho⟩, h3, h6, h7⟩
    refine ⟨h1, h2, fun _ => h3, fun _ => h4 (by simp [uses]), by simp [uses], ?_, ?_⟩
    · intro r h
      rcases List.mem_cons.1 h with rfl | h
      · exact h6
      · exact hr r h
    · intro p hp hw
      rcases List.mem_append.1 (show p ∈ _ ++ orderedPairs (uses (.lsbExtract raw)).regions from hp) with hp | hp
      · simp only [List.map_cons, List.map_nil, List.mem_cons, List.not_mem_nil, or_false] at hp
        rcases hp with rfl | rfl
        · exact .inl h7
        · cases hw
      · exact ho p hp hw

end Sys2Proof.Machine
end

