-- ==== Sys2Proof/Laws/PerInstr.lean ====
section
/-! SUPPORT. One fact about every command, a lemma for each: the three fields of its command word (R90). -/

namespace Sys2Proof.Laws

/-- The command word of `i` has the opcode of R92 in OP, `i`'s RAW bit in bit 8 and zero reserved bits. -/
def EncodedFields.Statement (i : Instr) : Prop :=
  opField (encode i) = opcode i ∧ rawField (encode i) = rawBit i ∧ rsvField (encode i) = 0

theorem EncodedFields.nop : EncodedFields.Statement .nop := by unfold EncodedFields.Statement; decide

theorem EncodedFields.subKey : EncodedFields.Statement .subKey := by unfold EncodedFields.Statement; decide

theorem EncodedFields.subEnc : EncodedFields.Statement .subEnc := by unfold EncodedFields.Statement; decide

theorem EncodedFields.subDec : EncodedFields.Statement .subDec := by unfold EncodedFields.Statement; decide

theorem EncodedFields.zzEnc : EncodedFields.Statement .zzEnc := by unfold EncodedFields.Statement; decide

theorem EncodedFields.zzDec : EncodedFields.Statement .zzDec := by unfold EncodedFields.Statement; decide

theorem EncodedFields.lsbEmbed : EncodedFields.Statement .lsbEmbed := by unfold EncodedFields.Statement; decide

theorem EncodedFields.lsbExtract (raw : Bool) : EncodedFields.Statement (.lsbExtract raw) := by
  unfold EncodedFields.Statement; revert raw; decide

theorem EncodedFields.pipeEnc : EncodedFields.Statement .pipeEnc := by unfold EncodedFields.Statement; decide

theorem EncodedFields.pipeDec (raw : Bool) : EncodedFields.Statement (.pipeDec raw) := by
  unfold EncodedFields.Statement; revert raw; decide

end Sys2Proof.Laws
end

