-- ==== Sys2Proof/Laws/Rules.lean ====
section
/-! SUPPORT. Each command's rule inverted once: when it gives a commit, and which. `ruleOf` gathers the ten rules, so that what holds of
every command is proved over it. -/

namespace Sys2Proof.Machine

open Sys2Proof.Safety

/-- The rule of a command (R218): what the engine evaluates on the snapshot. -/
def ruleOf (i : Instr) (s : State) : Except Raised Commit :=
  match i with
  | .nop => nopRule s
  | .subKey => subKeyRule s
  | .subEnc => subEncRule s
  | .subDec => subDecRule s
  | .zzEnc => zzEncRule s
  | .zzDec => zzDecRule s
  | .lsbEmbed => lsbEmbedRule s
  | .lsbExtract raw => lsbExtractRule raw s
  | .pipeEnc => pipeEncRule s
  | .pipeDec raw => pipeDecRule raw s

/-- Every command completes: an error completion or a commit (R218). -/
theorem exec_eq_complete (i : Instr) (s : State) : exec i s = .next (complete (ruleOf i s) s) := by
  cases i <;> rfl

/-- What any command's next state is. -/
theorem exec_cases {i : Instr} {s t : State} (h : exec i s = .next t) :
    (∃ e, ruleOf i s = .error e ∧ t = raise e s) ∨ (∃ c, ruleOf i s = .ok c ∧ t = commit c s) := by
  rw [exec_eq_complete] at h
  cases h
  exact complete_cases _ _

theorem subKeyRule_ok {s : State} {c : Commit} (h : subKeyRule s = .ok c) :
    KeyInRange s ∧ KeyHasLetter s ∧
    c = { store := none, matrix := some (buildMatrix (normalise (keyBytes s))), utf8Drop := none,
          results := some (lengthResults (keyLetters (normalise (keyBytes s))).length) } := by
  obtain ⟨hc, hb⟩ := afterChecks_ok h
  refine ⟨(preCheck_subKey_iff s).1 hc, ?_⟩
  rcases withKey_cases s _ with ⟨_, hk⟩ | ⟨_, _, hk⟩ | ⟨hl, _, hk⟩ <;> rw [hk] at hb <;> cases hb
  exact ⟨hl, rfl⟩

theorem subEncRule_ok {s : State} {c : Commit} (h : subEncRule s = .ok c) :
    TextReady s ∧ s.status.keyValid = true ∧
    (subEncrypt s.matrix (srcBytes s)).length ≤ s.params.dstCap.toNat ∧
    c = { store := some (s.params.dstAddr.toNat, subEncrypt s.matrix (srcBytes s)), matrix := none, utf8Drop := none,
          results := some (lengthResults (subEncrypt s.matrix (srcBytes s)).length) } := by
  obtain ⟨hc, hb⟩ := afterChecks_ok h
  refine ⟨(preCheck_subText_iff s).1 hc, ?_⟩
  split at hb
  · cases hb
  · next hk =>
    rcases dstCommit_cases s (subEncrypt s.matrix (srcBytes s)) none none
      (lengthResults (subEncrypt s.matrix (srcBytes s)).length) with ⟨_, hd⟩ | ⟨hl, hd⟩ <;> rw [hd] at hb <;> cases hb
    exact ⟨by simpa using hk, hl, rfl⟩

theorem subDecRule_ok {s : State} {c : Commit} (h : subDecRule s = .ok c) :
    TextReady s ∧ s.status.keyValid = true ∧ checkCipherText s.matrix (srcBytes s) = none ∧
    (subDecrypt s.matrix (srcBytes s)).length ≤ s.params.dstCap.toNat ∧
    c = { store := some (s.params.dstAddr.toNat, subDecrypt s.matrix (srcBytes s)), matrix := none, utf8Drop := none,
          results := some (lengthResults (subDecrypt s.matrix (srcBytes s)).length) } := by
  obtain ⟨hc, hb⟩ := afterChecks_ok h
  refine ⟨(preCheck_subText_iff s).1 hc, ?_⟩
  split at hb
  · cases hb
  · next hk =>
    split at hb
    · cases hb
    · next hx =>
      rcases dstCommit_cases s (subDecrypt s.matrix (srcBytes s)) none none
        (lengthResults (subDecrypt s.matrix (srcBytes s)).length) with ⟨_, hd⟩ | ⟨hl, hd⟩ <;> rw [hd] at hb <;> cases hb
      exact ⟨by simpa using hk, hx, hl, rfl⟩

theorem zzEncRule_ok {s : State} {c : Commit} (h : zzEncRule s = .ok c) :
    s.params.rails ≠ 0 ∧ TextReady s ∧
    (zzEncrypt (srcBytes s) s.params.rails.toNat).length ≤ s.params.dstCap.toNat ∧
    c = { store := some (s.params.dstAddr.toNat, zzEncrypt (srcBytes s) s.params.rails.toNat), matrix := none,
          utf8Drop := none,
          results := some (lengthResults (zzEncrypt (srcBytes s) s.params.rails.toNat).length) } := by
  obtain ⟨hc, hb⟩ := afterChecks_ok h
  obtain ⟨hr, ht⟩ := (preCheck_zzText_iff s).1 hc
  refine ⟨hr, ht, ?_⟩
  rcases dstCommit_cases s (zzEncrypt (srcBytes s) s.params.rails.toNat) none none
    (lengthResults (zzEncrypt (srcBytes s) s.params.rails.toNat).length) with ⟨_, hd⟩ | ⟨hl, hd⟩ <;>
    dsimp only at hb <;> rw [hd] at hb <;> cases hb
  exact ⟨hl, rfl⟩

theorem zzDecRule_ok {s : State} {c : Commit} (h : zzDecRule s = .ok c) :
    s.params.rails ≠ 0 ∧ TextReady s ∧
    (zzDecrypt (srcBytes s) s.params.rails.toNat).length ≤ s.params.dstCap.toNat ∧
    c = { store := some (s.params.dstAddr.toNat, zzDecrypt (srcBytes s) s.params.rails.toNat), matrix := none,
          utf8Drop := none,
          results := some (lengthResults (zzDecrypt (srcBytes s) s.params.rails.toNat).length) } := by
  obtain ⟨hc, hb⟩ := afterChecks_ok h
  obtain ⟨hr, ht⟩ := (preCheck_zzText_iff s).1 hc
  refine ⟨hr, ht, ?_⟩
  rcases dstCommit_cases s (zzDecrypt (srcBytes s) s.params.rails.toNat) none none
    (lengthResults (zzDecrypt (srcBytes s) s.params.rails.toNat).length) with ⟨_, hd⟩ | ⟨hl, hd⟩ <;>
    dsimp only at hb <;> rw [hd] at hb <;> cases hb
  exact ⟨hl, rfl⟩

theorem embedCommit_ok {s : State} {m : List Byte} {x : Option (Vector Byte 25)} {c : Commit}
    (h : embedCommit s m x = .ok c) :
    samplesFor (8 * m.length) s.params.depth.toNat ≤ s.params.smpCount.toNat ∧
    c = { store := some (s.params.smpDst.toNat,
            sampleBytesOf (embedSamples m s.params.depth.toNat (carriers s s.params.smpCount.toNat))),
          matrix := x, utf8Drop := none,
          results := some (frameResults m.length (8 * m.length)
            (samplesFor (8 * m.length) s.params.depth.toNat)) } := by
  rcases embedCommit_cases s m x with ⟨_, he⟩ | ⟨hk, he⟩ <;> rw [he] at h <;> cases h
  exact ⟨hk, rfl⟩

theorem lsbEmbedRule_ok {s : State} {c : Commit} (h : lsbEmbedRule s = .ok c) :
    EmbedReady s ∧ embedCommit s (srcBytes s) none = .ok c := by
  obtain ⟨hc, hb⟩ := afterChecks_ok h
  exact ⟨(preCheck_lsbEmbed_iff s).1 hc, hb⟩

theorem lsbExtractRule_ok {raw : Bool} {s : State} {c : Commit} (h : lsbExtractRule raw s = .ok c) :
    ExtractReady s ∧ ∃ x, extractFrame s = .ok x ∧ (payloadText raw x.payload).length ≤ s.params.dstCap.toNat ∧
    c = { store := some (s.params.dstAddr.toNat, payloadText raw x.payload), matrix := none,
          utf8Drop := some (dropped raw x.payload),
          results := some (frameResults (payloadText raw x.payload).length x.bits x.samples) } := by
  obtain ⟨hc, hb⟩ := afterChecks_ok h
  refine ⟨(preCheck_lsbExtract_iff raw s).1 hc, ?_⟩
  split at hb
  · cases hb
  · next x hx =>
    rcases dstCommit_cases s (payloadText raw x.payload) none (some (dropped raw x.payload))
      (frameResults (payloadText raw x.payload).length x.bits x.samples) with ⟨_, hd⟩ | ⟨hl, hd⟩ <;>
      dsimp only at hb <;> rw [hd] at hb <;> cases hb
    exact ⟨x, hx, hl, rfl⟩

theorem pipeEncRule_ok {s : State} {c : Commit} (h : pipeEncRule s = .ok c) :
    PipeEncReady s ∧
    embedCommit s (pipeCipher (buildMatrix (normalise (keyBytes s))) (srcBytes s) s.params.rails.toNat)
      (some (buildMatrix (normalise (keyBytes s)))) = .ok c := by
  obtain ⟨hc, hb⟩ := afterChecks_ok h
  obtain ⟨h1, h2, h3, h4⟩ := (preCheck_pipeEnc_iff s).1 hc
  rcases withKey_cases s _ with ⟨_, hk⟩ | ⟨_, _, hk⟩ | ⟨hl, _, hk⟩ <;> rw [hk] at hb
  · cases hb
  · cases hb
  · exact ⟨⟨h1, h2, h3, h4, hl⟩, hb⟩

theorem pipeDecRule_ok {raw : Bool} {s : State} {c : Commit} (h : pipeDecRule raw s = .ok c) :
    PipeDecReady s ∧ ∃ x, extractFrame s = .ok x ∧
    let m := buildMatrix (normalise (keyBytes s))
    let t := zzDecrypt (payloadText raw x.payload) s.params.rails.toNat
    checkCipherText m t = none ∧ (subDecrypt m t).length ≤ s.params.dstCap.toNat ∧
    c = { store := some (s.params.dstAddr.toNat, subDecrypt m t), matrix := some m,
          utf8Drop := some (dropped raw x.payload),
          results := some (frameResults (subDecrypt m t).length x.bits x.samples) } := by
  obtain ⟨hc, hb⟩ := afterChecks_ok h
  obtain ⟨h1, h2, h3, h4⟩ := (preCheck_pipeDec_iff raw s).1 hc
  rcases withKey_cases s _ with ⟨_, hk⟩ | ⟨_, _, hk⟩ | ⟨hl, _, hk⟩ <;> rw [hk] at hb
  · cases hb
  · cases hb
  · refine ⟨⟨h1, h2, h3, h4, hl⟩, ?_⟩
    split at hb
    · cases hb
    · next x hx =>
      dsimp only at hb
      split at hb
      · cases hb
      · next ht =>
        rcases dstCommit_cases s (subDecrypt (buildMatrix (normalise (keyBytes s)))
            (zzDecrypt (payloadText raw x.payload) s.params.rails.toNat))
          (some (buildMatrix (normalise (keyBytes s)))) (some (dropped raw x.payload))
          (frameResults (subDecrypt (buildMatrix (normalise (keyBytes s)))
            (zzDecrypt (payloadText raw x.payload) s.params.rails.toNat)).length x.bits x.samples)
          with ⟨_, hd⟩ | ⟨hl, hd⟩ <;> rw [hd] at hb <;> cases hb
        exact ⟨x, hx, ht, hl, rfl⟩

end Sys2Proof.Machine
end

