-- ==== Sys2Proof/Laws/Step.lean ====
section
/-! SUPPORT. The host's bus and the machine's step inverted once: everything an access and a step can do. -/

namespace Sys2Proof.Machine

/-- What a register write can do (R22 to R24, R32, R34, R44). -/
theorem writeReg_cases (s : State) (v : Word) (r : Reg) :
    writeReg s v r = s ∨
    (busy s = true ∧ writeReg s v r = collide s) ∨
    (busy s = false ∧ r = .cmd ∧ writeReg s v r = accept v s) ∨
    (r = .status ∧ writeReg s v r = { s with status := clearW1C v s.status }) ∨
    (r = .irqEn ∧ writeReg s v r = { s with irqEn := irqEnOf v }) ∨
    (busy s = false ∧ ∃ p, writeReg s v r = { s with params := p }) := by
  cases r <;> cases hb : busy s <;> simp [writeReg, writeParams, unlessBusy, hb]

/-- What an access with a successful outcome can do to the state. -/
theorem busAccess_cases {s t : State} {a : Access} {r : Reply} (h : busAccess s a = .ok (t, r)) :
    t = s ∨
    (busy s = true ∧ t = collide s) ∨
    (busy s = false ∧ ∃ v, t = accept v s) ∨
    (∃ v, t = { s with status := clearW1C v s.status }) ∨
    (∃ v, t = { s with irqEn := irqEnOf v }) ∨
    (busy s = false ∧ ∃ p, t = { s with params := p }) ∨
    (busy s = false ∧ ∃ b bs, b < bufBytes s ∧ (b + bs.length ≤ bufBytes s) ∧ t = writeBuf b bs s) := by
  unfold busAccess at h
  split at h
  · cases h
  split at h
  · cases h
  next hin hal =>
  split at h
  · cases a with
    | read o w =>
      simp only [regAccess] at h
      split at h <;> cases h <;> exact .inl rfl
    | write o w v =>
      simp only [regAccess] at h
      split at h
      · next r' _ =>
        cases h
        rcases writeReg_cases s v r' with h | h | ⟨h1, -, h2⟩ | ⟨-, h⟩ | ⟨-, h⟩ | h
        · exact .inl h
        · exact .inr (.inl h)
        · exact .inr (.inr (.inl ⟨h1, v, h2⟩))
        · exact .inr (.inr (.inr (.inl ⟨v, h⟩)))
        · exact .inr (.inr (.inr (.inr (.inl ⟨v, h⟩))))
        · exact .inr (.inr (.inr (.inr (.inr (.inl h)))))
      · cases h; exact .inl rfl
  split at h
  · next hlo hhi =>
    cases a with
    | read o w =>
      simp only [bufAccess] at h
      split at h
      · cases h; exact .inr (.inl ⟨‹_›, rfl⟩)
      · cases h; exact .inl rfl
    | write o w v =>
      simp only [bufAccess, unlessBusy] at h
      split at h
      · cases h; exact .inr (.inl ⟨‹_›, rfl⟩)
      · next hb =>
        cases h
        refine .inr (.inr (.inr (.inr (.inr (.inr ⟨by simpa using hb, _, _, ?_, ?_, rfl⟩)))))
        · omega
        · have hal : (Access.write o w v).aligned = true := by simpa using hal
          rw [Access.aligned, if_neg hlo] at hal
          have hal : o.toNat % w.bytes = 0 := by simpa [Access.offset, Access.width] using hal
          have hlo : ¬ o.toNat < Config.windowBase := hlo
          have hhi : o.toNat < Config.windowBase + bufBytes s := hhi
          show o.toNat - Config.windowBase + _ ≤ _
          obtain ⟨k, hk⟩ : ∃ k, bufBytes s = 4 * k :=
            ⟨2 ^ (6 + s.bufLog.val), by
              rw [bufBytes, show 8 + s.bufLog.val = 2 + (6 + s.bufLog.val) from by omega, pow_add]; norm_num⟩
          have hw : w.bytes = 1 ∨ w.bytes = 2 ∨ w.bytes = 4 := by cases w <;> simp [Width.bytes]
          have : Config.windowBase = 4 * 16384 := rfl
          rw [length_leBytes]
          rcases hw with hw | hw | hw <;> rw [hw] at hal ⊢ <;> omega
  · cases a <;> simp only [unusedAccess] at h <;> cases h <;> exact .inl rfl

/-- What one host access can do in a step: the access succeeds and its reply is recorded, or it is a bus error and only that is
recorded (R231). -/
theorem hostTurn_cases {a : Access} {s t : State} (h : hostTurn a s = .next t) :
    (∃ s' r, busAccess s a = .ok (s', r) ∧ t = reply r s') ∨
    (busAccess s a = .error .busError ∧ t = reply (.fault .busError) s) := by
  unfold hostTurn at h
  split at h
  · cases h; exact .inl ⟨_, _, ‹_›, rfl⟩
  · cases h; exact .inr ⟨‹_›, rfl⟩
  · cases h

/-- What the engine's completion can do: the command in CMD completes, or an illegal word reports BADCMD (R94, R218). -/
theorem engineStep_cases {s t : State} (h : engineStep s = .next t) :
    (∃ i, decode s.cmd = .ok i ∧ exec i s = .next t) ∨ (∃ e, decode s.cmd = .error e ∧ t = raise ⟨.badCmd, s.cmd⟩ s) := by
  unfold engineStep at h
  split at h
  · exact .inl ⟨_, ‹_›, h⟩
  · cases h; exact .inr ⟨_, ‹_›, rfl⟩

/-- What the engine's turn can do: an IDLE engine waits, a BUSY one completes. -/
theorem engineTurn_cases {s t : State} (h : engineTurn s = .next t) :
    (s.phase = .idle ∧ t = s) ∨ (s.phase = .busy ∧ engineStep s = .next t) := by
  unfold engineTurn at h
  split at h
  · exact .inr ⟨‹_›, h⟩
  · cases h; exact .inl ⟨‹_›, rfl⟩

/-- A round of the loop of `wait` only records the STATUS word it read and shortens the event list to what that word leaves (R98). -/
theorem pollTurn_eq (more : Nat) (s : State) :
    pollTurn more s =
      .next (reply (.data (statusWord s)) { s with events := pollRest (statusWord s) more ++ s.events }) := by
  have h (x : State) : hostTurn statusRead x = .next (reply (.data (statusWord x)) x) := rfl
  exact h _

/-- Bit 0 of the STATUS word is BUSY (R24). -/
theorem statusWord_bit_zero (s : State) : (statusWord s).getLsbD 0 = busy s := by
  rw [statusWord, BitVec.getLsbD_append]
  cases busy s <;> rfl

/-- The loop of `wait` ends at the read that sees an IDLE engine. -/
theorem pollRest_idle {s : State} (h : s.phase = .idle) (more : Nat) : pollRest (statusWord s) more = [] := by
  unfold pollRest
  rw [statusWord_bit_zero, busy, h]
  rfl

/-- Everything one step can do: the engine's turn (with no event left, or at its completion event), a host access, a platform
reset, or a round of the loop of `wait`. -/
theorem step_cases {s t : State} (h : step s = .next t) :
    (s.events = [] ∧ engineTurn s = .next t) ∨
    (∃ es, s.events = .completion :: es ∧ engineTurn { s with events := es } = .next t) ∨
    (∃ a es, s.events = .host a :: es ∧ hostTurn a { s with events := es } = .next t) ∨
    (∃ es, s.events = .reset :: es ∧ t = platformReset { s with events := es }) ∨
    (∃ more es, s.events = .pollIdle more :: es ∧
      t = reply (.data (statusWord s)) { s with events := pollRest (statusWord s) more ++ es }) := by
  unfold step nextStep at h
  split at h
  · exact .inl ⟨‹_›, h⟩
  · next e es he =>
    cases e with
    | host a => exact .inr (.inr (.inl ⟨a, es, he, h⟩))
    | completion => exact .inr (.inl ⟨es, he, h⟩)
    | reset => cases h; exact .inr (.inr (.inr (.inl ⟨es, he, rfl⟩)))
    | pollIdle more =>
      cases (pollTurn_eq more { s with events := es }).symm.trans h
      exact .inr (.inr (.inr (.inr ⟨more, es, he, rfl⟩)))

/-- An engine's turn never stops. -/
theorem engineTurn_next (s : State) : ∃ t, engineTurn s = .next t := by
  unfold engineTurn engineStep
  split
  · split
    · exact ⟨_, exec_eq_complete _ _⟩
    · exact ⟨_, rfl⟩
  · exact ⟨_, rfl⟩

end Sys2Proof.Machine
end

