-- ==== Sys2Proof/Machine/HostProgram.lean ====
section
/-! DEFINITION. Host programs (spec/30_encoding.md R97 to R99): the events each line stands for. -/

namespace Sys2Proof.Machine

/-- A host write as an event. -/
def writeEvent (offset : Nat) (w : Width) (v : Nat) : Event := .host (.write (word offset) w (word v))

/-- A host read as an event. -/
def readEvent (offset : Nat) (w : Width) : Event := .host (.read (word offset) w)

/-- Writes of consecutive items of width `w` from BUF offset `a` (R97). -/
def writeRun (w : Width) : (a : Nat) → List Nat → List Event
  | _, [] => []
  | a, v :: vs => writeEvent (Config.windowBase + a) w v :: writeRun w (a + w.bytes) vs

/-- `n` reads of width `w` from BUF offset `a` (R97). -/
def readRun (w : Width) (a n : Nat) : List Event :=
  (List.range n).map fun i => readEvent (Config.windowBase + a + w.bytes * i) w

/-- `wait` (R98): the loop that reads STATUS until bit 0 is 0. A running command that outlasts no read completes before the first
(R251); on an IDLE engine that completion does nothing and the loop ends at its first read. -/
def waitEvents : (polls : Nat) → List Event
  | 0 => [.completion, .pollIdle 0]
  | n + 1 => [.pollIdle n]

/-- `cmd MNEMONIC` (R97). -/
def cmdEvent (i : Instr) : Event := writeEvent (Reg.offset .cmd) .w32 (encode i).toNat

/-- The events of a host-program line (R97 to R99). DESIGN CHOICE (log 16): R251 leaves the latency open, and a line that starts a
command (`cmd`, or `wr` of CMD) brings no completion with it. The command completes where the program says so, at an `elapse` line
or in the loop of `wait`, and else after the program's last line; each place R251 allows between two lines is one of these programs. -/
def lineEvents : HostLine → List Event
  | .wr r v => [writeEvent r.offset .w32 v.toNat]
  | .rd r => [readEvent r.offset .w32]
  | .wrb a bs => writeRun .w8 a (bs.map BitVec.toNat)
  | .wrh a hs => writeRun .w16 a (hs.map BitVec.toNat)
  | .wrw a ws => writeRun .w32 a (ws.map BitVec.toNat)
  | .rdb a n => readRun .w8 a n
  | .rdh a n => readRun .w16 a n
  | .cmd i => [cmdEvent i]
  | .wrs a text => writeRun .w8 a (text.map Char.toNat)
  | .wait polls => waitEvents polls
  | .run i polls => cmdEvent i :: waitEvents polls
  | .clr => [writeEvent (Reg.offset .status) .w32 0x36]
  | .elapse => [.completion]
  | .cfg depth sfmt => [writeEvent (Reg.offset .cfg) .w32 (16 * sfmt.toNat + depth.toNat)]

/-- The events of a host program. -/
def programEvents (ls : List HostLine) : List Event := ls.flatMap lineEvents

/-- The machine with a host program still to be run (log 9). -/
def State.withProgram (s : State) (ls : List HostLine) : State := { s with events := s.events ++ programEvents ls }

end Sys2Proof.Machine
end

