-- ==== Sys2Proof/Tests/Slice0.lean ====
section
/-! SUPPORT. Tests of the model: refused ill-formed terms, words written out from the encoding tables, vectors of
spec/95_test_vectors.md (V), and for every statement with hypotheses a state and operands that meet them. -/

namespace Sys2Proof.Tests

open Sys2Proof.Machine Sys2Proof.Safety

/-! ### Helpers -/

/-- The ASCII bytes of characters. -/
def text (cs : List Char) : List Byte := cs.map fun c => BitVec.ofNat 8 c.toNat

/-- Bytes at consecutive offsets. -/
def at' (a : Nat) (bs : List Byte) : Memory := bs.zipIdx.map fun p => (a + p.2, p.1)

/-- A machine of 256 bytes after reset with these bytes in BUF. -/
def small (buf : Memory) (params : Params) : State := { State.resetOf 0 with buf := buf, params := params }

/-- Parameter registers after reset. -/
def noParams : Params := (State.resetOf 0).params

/-- The state after a step's successful answer. -/
def after (o : Host.Outcome State Fault Refusal) : Option State :=
  match o with
  | .next t => some t
  | .fault _ => none
  | .refused _ => none

/-- STATUS after a command. -/
def statusAfter (i : Instr) (s : State) : Option Word := (after (exec i s)).map statusWord

/-- The bytes `[a, a + n)` after a command. -/
def bytesAfter (i : Instr) (s : State) (a n : Nat) : Option (List Byte) := (after (exec i s)).map fun t => bufSlice t a n

/-- The code and detail after a command. -/
def errorAfter (i : Instr) (s : State) : Option (ErrorCode × Word) :=
  (after (exec i s)).map fun t => (t.status.errCode, t.errInfo)

/-- The MONARCHY matrix as V1.1 lists it. -/
def monarchy : Vector Byte 25 :=
  matrixOf (text ['M', 'O', 'N', 'A', 'R', 'C', 'H', 'Y', 'B', 'D', 'E', 'F', 'G', 'I', 'K', 'L', 'P', 'Q', 'S', 'T', 'U', 'V',
    'W', 'X', 'Z'])

/-- The same state with the MONARCHY matrix valid. -/
def keyed (s : State) : State := { s with matrix := monarchy, status := { s.status with keyValid := true } }

/-- A state whose source text is `bs` at 0x20, its destination 0x80, room for `cap` bytes. -/
def withSource (bs : List Byte) (cap : Nat) : State :=
  small (at' 0x20 bs)
    { noParams with srcAddr := 0x20, srcLen := word bs.length, dstAddr := 0x80, dstCap := word cap, rails := 3 }

/-- A state whose carrier is `xs` at 0x40, its output at 0x80, the message `m` at 0x10, the key `k` at 0. -/
def withCarrier (k m : List Byte) (xs : List Half) (depth : BitVec 4) : State :=
  small (at' 0 k ++ at' 0x10 m ++ at' 0x40 (sampleBytesOf xs))
    { noParams with
      keyLen := word k.length, srcAddr := 0x10, srcLen := word m.length, smpSrc := 0x40, smpDst := 0x80,
      smpCount := word xs.length, dstAddr := 0xC0, dstCap := 16, depth := depth, rails := 2 }

/-- A state with a command running. -/
def running (w : Word) (s : State) : State := accept w s

/-! ### Well-formedness refuses what the spec refuses -/

theorem test_wf_refuses_outside_the_aperture : (Access.read 0x02000000 .w32).wf = false := by decide

theorem test_wf_refuses_narrow_register_access : (Access.read 0x00000008 .w8).wf = false := by decide

theorem test_wf_refuses_misaligned_register_access : (Access.write 0x00000006 .w32 0).wf = false := by decide

theorem test_wf_refuses_misaligned_window_access : (Access.read 0x00010001 .w16).wf = false := by decide

theorem test_wf_takes_a_byte_of_the_window : (Access.read 0x00010001 .w8).wf = true := by decide

theorem test_wf_refuses_odd_halfword_line : (HostLine.wrh 0x101 []).wf = false := by decide

theorem test_wf_refuses_misaligned_word_line : (HostLine.wrw 0x102 []).wf = false := by decide

/-! ### Words written out from R90 and R92 -/

theorem test_decode_nop : decode 0b00000000000000000000000000000000#32 = .ok .nop := by decide

theorem test_decode_subKey : decode 0b00000000000000000000000000000001#32 = .ok .subKey := by decide

theorem test_decode_subEnc : decode 0b00000000000000000000000000000010#32 = .ok .subEnc := by decide

theorem test_decode_subDec : decode 0b00000000000000000000000000000011#32 = .ok .subDec := by decide

theorem test_decode_zzEnc : decode 0b00000000000000000000000000000100#32 = .ok .zzEnc := by decide

theorem test_decode_zzDec : decode 0b00000000000000000000000000000101#32 = .ok .zzDec := by decide

theorem test_decode_lsbEmbed : decode 0b00000000000000000000000000000110#32 = .ok .lsbEmbed := by decide

theorem test_decode_lsbExtract : decode 0b00000000000000000000000000000111#32 = .ok (.lsbExtract false) := by decide

theorem test_decode_lsbExtractRaw : decode 0b00000000000000000000000100000111#32 = .ok (.lsbExtract true) := by decide

theorem test_decode_pipeEnc : decode 0b00000000000000000000000000001000#32 = .ok .pipeEnc := by decide

theorem test_decode_pipeDec : decode 0b00000000000000000000000000001001#32 = .ok (.pipeDec false) := by decide

theorem test_decode_pipeDecRaw : decode 0b00000000000000000000000100001001#32 = .ok (.pipeDec true) := by decide

theorem test_decode_refuses_reserved_bits : decode 0x80000000 = .error .reservedBits := by decide

theorem test_decode_refuses_opcode_0A : decode 0x0000000A = .error .unknownOpcode := by decide

theorem test_decode_refuses_raw_with_sub_enc : decode 0x00000102 = .error .rawNotAllowed := by decide

theorem test_decode_bytes_are_little_endian : decodeBytes [0x07, 0x01, 0x00, 0x00] = .ok (.lsbExtract true) := by decide

theorem test_decode_refuses_three_bytes : decodeBytes [0x07, 0x01, 0x00] = .error .notOneWord := by decide

/-! ### Host-program lines (the examples of R99) -/

theorem test_line_wr : lineEvents (.wr .srcLen 11) = [.host (.write 0x00000020 .w32 0x0000000B)] := by decide

theorem test_line_cmd : lineEvents (.cmd (.pipeDec true)) = [.host (.write 0x00000004 .w32 0x00000109)] := by decide

theorem test_line_wrb : lineEvents (.wrb 0x40 [0x41]) = [.host (.write 0x00010040 .w8 0x41)] := by decide

/-- R98's `wait`: an IDLE engine is read once, a running command that outlasts two reads is read three times. -/
theorem test_wait :
    ((after (Host.Core.run core 5 (State.reset.withProgram [.wait 9]) : Host.Outcome State Fault Refusal)).map (·.replies)) =
      some [.data 0] ∧
    ((after (Host.Core.run core 9 (State.reset.withProgram [.run .nop 2]) : Host.Outcome State Fault Refusal)).map (·.replies)) =
      some [.data 2, .data 1, .data 1, .written] := by decide

/-- P5 reads STATUS right after `cmd NOP`: 2 when the command completes first, 1 when it does not (log 16). -/
theorem test_cmd_without_wait :
    ((after (Host.Core.run core 3 (State.reset.withProgram [.cmd .nop, .elapse, .rd .status]) :
      Host.Outcome State Fault Refusal)).map (·.replies)) = some [.data 2, .written] ∧
    ((after (Host.Core.run core 2 (State.reset.withProgram [.cmd .nop, .rd .status]) :
      Host.Outcome State Fault Refusal)).map (·.replies)) = some [.data 1, .written] := by decide

theorem test_line_cfg : lineEvents (.cfg 4 1) = [.host (.write 0x00000038 .w32 0x00000014)] := by decide

/-! ### Reset, status and the bus -/

/-- V5.1. -/
theorem test_reset_status : statusWord State.reset = 0 ∧ irq State.reset = false := by decide

/-- P5: BUF_SIZE of a 4096-byte machine. -/
theorem test_reset_buf_size : readReg State.reset .bufSize = 0x00001000 := by decide

/-- R64: bytes 0x34, 0x12 read as 0x1234. -/
theorem test_window_is_little_endian :
    (busAccess (small [(0, 0x34), (1, 0x12)] noParams) (.read 0x00010000 .w16)).toOption.map (·.2) =
      some (.data 0x1234) := by decide

/-- R61, R62. -/
theorem test_bus_error_and_aperture :
    (busAccess State.reset (.read 0x00000005 .w8)).toOption = none ∧
    (busAccess State.reset (.write 0x02000000 .w32 0)).toOption = none := by decide

/-- V1.1's readback: MATRIX0 and MATRIX6. -/
theorem test_matrix_readback :
    readReg (keyed State.reset) (.matrix 0) = 0x414E4F4D ∧ readReg (keyed State.reset) (.matrix 6) = 0x0000005A := by decide

/-- V5.6: a write to CMD while BUSY is a collision, CMD keeps the running word. -/
theorem test_busy_cmd_write :
    (busAccess (running 1 State.reset) (.write 0x004 .w32 2)).toOption.map (fun p => (p.1.cmd, p.1.status.hostColl)) =
      some (1, true) := by decide

/-- V4.9 through a step: BADCMD with the whole word. -/
theorem test_step_bad_command :
    (after (step (running 0x0000000A State.reset))).map (fun t => (statusWord t, t.errInfo)) =
      some (0x00000106, 0x0000000A) := by decide

/-- A placed word runs in the very next step. -/
theorem test_with_fetch_word :
    (after (step (State.reset.withFetchWord 32 0))).map statusWord = some 0x00000002 := by decide

/-- Memory keeps its canonical form when a lower offset is written later. -/
theorem test_memory_sorted : memWrite (memWrite (memWrite [] 5 1) 3 2) 5 4 = [(3, 2), (5, 4)] := by decide

/-! ### One step of each command (vectors of spec/95_test_vectors.md) -/

/-- V4.8. -/
theorem test_nop : statusAfter .nop State.reset = some 0x00000002 := by decide

/-- V1.1, V5.2. -/
theorem test_sub_key :
    (after (exec .subKey (withCarrier (text ['M', 'O', 'N', 'A', 'R', 'C', 'H', 'Y']) [] [] 0))).map
      (fun t => (t.matrix, t.results.resultLen, statusWord t)) = some (monarchy, 8, 0x0000000A) := by decide +kernel

/-- V1.7, V1.8. -/
theorem test_sub_key_errors :
    errorAfter .subKey (withCarrier (text ['!', '!']) [] [] 0) = some (.invalidKey, 1) ∧
    errorAfter .subKey (withCarrier [] [] [] 0) = some (.invalidKey, 0) := by decide

/-- V1.11. -/
theorem test_sub_enc :
    bytesAfter .subEnc (keyed (withSource (text ['H', 'E', 'L', 'L', 'O']) 6)) 0x80 6 =
      some (text ['C', 'F', 'S', 'U', 'P', 'M']) := by decide

/-- V1.16: the merged letter and a repeated one. -/
theorem test_sub_enc_merged :
    bytesAfter .subEnc (keyed (withSource (text ['j', 'a', 'z', 'z']) 16)) 0x80 6 =
      some (text ['S', 'B', 'U', 'Z', 'U', 'Z']) := by decide

/-- V1.18's decryption. -/
theorem test_sub_dec :
    bytesAfter .subDec (keyed (withSource (text ['B', 'A', 'B', 'I', 'I', 'A']) 6)) 0x80 6 =
      some (text ['A', 'X', 'A', 'B', 'B', 'X']) := by decide

/-- V1.22, V1.23. -/
theorem test_sub_dec_errors :
    errorAfter .subDec (keyed (withSource (text ['G', 'A', 'T']) 16)) = some (.inputOdd, 3) ∧
    errorAfter .subDec (keyed (withSource (text ['G', 'A', 'J', 'L']) 16)) = some (.inputChar, 2) := by decide

/-- V2.7. -/
theorem test_zz_enc :
    bytesAfter .zzEnc (withSource (text ['A', 'B', 'C', 'D', 'E', 'F', 'G']) 7) 0x80 7 = some (text ['A', 'E', 'B', 'D', 'F', 'C', 'G']) := by decide

/-- V2.10. -/
theorem test_zz_enc_no_rails :
    errorAfter .zzEnc (small [] noParams) = some (.invalidKey, 2) := by decide

/-- V2.7. -/
theorem test_zz_dec :
    bytesAfter .zzDec (withSource (text ['A', 'B', 'C', 'D', 'E', 'F', 'G']) 7) 0x80 7 = some (text ['A', 'C', 'F', 'D', 'B', 'E', 'G']) := by decide

/-- V2.11's form: DSTCAP with the length. -/
theorem test_zz_dec_no_room :
    errorAfter .zzDec (withSource (text ['A', 'B', 'C', 'D', 'E', 'F', 'G']) 6) = some (.dstCap, 7) := by decide

/-- V3.8: depth 8. -/
theorem test_lsb_embed_depth_8 :
    bytesAfter .lsbEmbed (withCarrier [] (text ['H', 'i']) [0x1234, 0xFFFF, 0x8000, 0x0000, 0x7FFF, 0x1234, 0xFFFF, 0x8000] 8) 0x80 16 =
      some (sampleBytesOf [0x1200, 0xFF00, 0x8000, 0x0010, 0x7F48, 0x1269, 0xFFFF, 0x8000]) := by decide

/-- V3.5: depth 5, a padded last chunk. -/
theorem test_lsb_embed_depth_5 :
    bytesAfter .lsbEmbed (withCarrier [] (text ['H', 'i'])
      [0x1234, 0xFFFF, 0x8000, 0x0000, 0x7FFF, 0x1234, 0xFFFF, 0x8000, 0x0000, 0x7FFF] 5) 0x80 20 =
      some (sampleBytesOf [0x1220, 0xFFE0, 0x8000, 0x0000, 0x7FE0, 0x1224, 0xFFE2, 0x8008, 0x000D, 0x7FE4]) := by decide

/-- V3.13: the exact products of the float conversion. -/
theorem test_conversion :
    convF2I 0x3F800000 = 0x7FFF ∧ convF2I 0xBF800000 = 0x8001 ∧ convF2I 0 = 0 ∧ convF2I 0x80000000 = 0 := by decide

/-- V3.18: a dropped byte, and UTF8_DROP. -/
theorem test_lsb_extract :
    (after (exec (.lsbExtract false) (withCarrier [] [] [0x0000, 0x0000, 0x0000, 0x0018, 0x0041, 0x00FF, 0x0042] 8))).map
      (fun t => (bufSlice t 0xC0 2, t.results.resultLen, statusWord t)) = some ([0x41, 0x42], 2, 0x00000012) := by decide

/-- V3.19: RAW keeps it. -/
theorem test_lsb_extract_raw :
    (after (exec (.lsbExtract true) (withCarrier [] [] [0x0000, 0x0000, 0x0000, 0x0018, 0x0041, 0x00FF, 0x0042] 8))).map
      (fun t => (bufSlice t 0xC0 3, t.results.resultLen, statusWord t)) = some ([0x41, 0xFF, 0x42], 3, 0x00000002) := by
  decide

/-- V4.6's form: CAPACITY with K. -/
theorem test_pipe_enc_capacity :
    errorAfter .pipeEnc (withCarrier (text ['M', 'O', 'N', 'A', 'R', 'C', 'H', 'Y']) (text ['H', 'E', 'L', 'L', 'O']) [0x0000, 0x0000, 0x0000] 8) =
      some (.capacity, 10) := by decide +kernel

/-- R191 on "HI": HI under MONARCHY is BF, then two rails. -/
theorem test_pipe_enc :
    bytesAfter .pipeEnc (withCarrier (text ['M', 'O', 'N', 'A', 'R', 'C', 'H', 'Y']) (text ['H', 'I']) [0x0000, 0x0000, 0x0000, 0x0000, 0x0000, 0x0000] 8) 0x80 12 =
      some (sampleBytesOf [0, 0, 0, 0x10, 0x42, 0x46]) := by decide +kernel

/-- V4.2's form on the samples of the test above. -/
theorem test_pipe_dec :
    bytesAfter (.pipeDec false) (withCarrier (text ['M', 'O', 'N', 'A', 'R', 'C', 'H', 'Y']) [] [0x0000, 0x0000, 0x0000, 0x0010, 0x0042, 0x0046] 8) 0xC0 2 =
      some (text ['H', 'I']) := by decide +kernel

/-- V4.5: INPUT_CHAR at an offset of the transposition's output. -/
theorem test_pipe_dec_foreign_byte :
    errorAfter (.pipeDec false)
      (withCarrier (text ['M', 'O', 'N', 'A', 'R', 'C', 'H', 'Y']) [] [0x0000, 0x0000, 0x0000, 0x0020, 0x0041, 0x0062, 0x0043, 0x0044] 8) = some (.inputChar, 2) := by decide +kernel

/-! ### Witnesses: for each statement with hypotheses, a state and operands that meet them all together -/

/-- Replace the parameter registers. -/
def setParams (s : State) (f : Params → Params) : State := { s with params := f s.params }

/-- A text state under the MONARCHY matrix. -/
def helloState : State := keyed (withSource (text ['H', 'E', 'L', 'L', 'O']) 6)

/-- A ciphertext state. -/
def cipherState : State := keyed (withSource (text ['C', 'F', 'S', 'U', 'P', 'M']) 6)

/-- A state ready for every carrier-writing command: the key MONARCHY, the message HI, six zero samples, depth 8. -/
def embedState : State := withCarrier (text ['M', 'O', 'N', 'A', 'R', 'C', 'H', 'Y']) (text ['H', 'I']) [0x0, 0x0, 0x0, 0x0, 0x0, 0x0] 8

/-- A carrier that holds the frame of the payload `bs`, at depth 8. -/
def framed (bs : List Byte) : State :=
  withCarrier (text ['M', 'O', 'N', 'A', 'R', 'C', 'H', 'Y']) [] ([0, 0, 0, BitVec.ofNat 16 (8 * bs.length)] ++ bs.map (BitVec.setWidth 16)) 8

/-- A state ready for every carrier-reading command. -/
def extractState : State := framed [0x42, 0x46]

/-- The same state with a host's two accesses, the second refused, before the completion. -/
def accessesWhileBusy : List Access := [.read 0x00000008 .w32, .write 0x00000020 .w32 7]

theorem not_ok_of_error {w : Word} {e : DecodeError} (h : decode w = .error e) : ∀ i, decode w ≠ .ok i := by
  intro i h'
  rw [h] at h'
  cases h'

theorem witness_IllegalWordsCompleteWithBadCmd :
    (∀ i, decode 0x00000200 ≠ .ok i) ∧ (∀ i, decode 0x0000000A ≠ .ok i) ∧ (∀ i, decode 0x00000100 ≠ .ok i) ∧
    State.reset.phase = .idle :=
  ⟨not_ok_of_error (e := .reservedBits) (by decide), not_ok_of_error (e := .unknownOpcode) (by decide),
    not_ok_of_error (e := .rawNotAllowed) (by decide), by decide⟩

theorem witness_StepRunsTheDecodedCommand :
    ((running 9 State.reset).phase = .busy ∧ decode (running 9 State.reset).cmd = .ok (.pipeDec false) ∧
      (running 9 State.reset).events = []) ∧
    (∃ s : State, s.phase = .busy ∧ decode s.cmd = .ok .nop ∧ s.events = [.completion]) ∧
    decodeTableWord 16 0x0107 = some (.lsbExtract true) :=
  ⟨by decide, ⟨{ running 0 State.reset with events := [.completion] }, by decide⟩, by decide⟩

theorem witness_PlatformResetAbandonsTheCommand :
    ∃ s : State, s.events = [.reset, .completion] ∧ s.phase = .busy :=
  ⟨{ running 1 State.reset with events := [.reset, .completion] }, by decide⟩

theorem witness_EveryStepKeepsTheInvariant :
    ∃ s t : State, Inv s ∧ step s = .next t ∧ t.buf ≠ s.buf :=
  ⟨running 6 embedState, _, by decide +kernel, rfl, by decide +kernel⟩

theorem witness_RegisterSpaceAccesses :
    ((Access.read 0x0000FFFF .w8).offset < 0x10000 ∧ (Access.read 0x0000FFFF .w8).width ≠ .w32) ∧
    ((Access.read 0x00000001 .w32).offset < 0x10000 ∧ (Access.read 0x00000001 .w32).offset % 4 ≠ 0) ∧
    (∃ s : State, s.events = [.host (.read 0x0000FFFF .w8)]) ∧
    (∀ o ∈ [0x54, 0x7C, 0x9C, 0xFFFC], (word o).toNat < 0x10000 ∧ (word o).toNat % 4 = 0 ∧ 0x50 < (word o).toNat ∧
      ((word o).toNat < 0x80 ∨ 0x98 < (word o).toNat)) :=
  ⟨by decide +kernel, by decide +kernel, ⟨{ State.reset with events := [.host (.read 0x0000FFFF .w8)] }, by decide⟩, by decide⟩

theorem witness_WindowAccessesReadAndWriteBuf :
    (0x10000 ≤ (0x01FFFFFC : Word).toNat ∧ (0x01FFFFFC : Word).toNat % Width.w32.bytes = 0 ∧
      0x10000 + bufBytes helloState ≤ (0x00010100 : Word).toNat ∧ (0x00010100 : Word).toNat % Width.w32.bytes = 0) ∧
    (0x10000 ≤ (0x01FFFFFF : Word).toNat ∧ (0x01FFFFFF : Word).toNat < 0x2000000 ∧
      (0x01FFFFFF : Word).toNat % Width.w16.bytes ≠ 0) ∧
    (∀ o ∈ [0x10000, 0x100FC], 0x10000 ≤ (word o).toNat ∧ (word o).toNat % Width.w32.bytes = 0 ∧
      (word o).toNat < 0x10000 + bufBytes helloState) ∧
    helloState.phase = .idle := by decide +kernel

theorem witness_BusyBlocksParameterWrites :
    (running 1 State.reset).phase = .busy ∧
    Reg.cfg ∈ [Reg.keyAddr, .keyLen, .srcAddr, .srcLen, .dstAddr, .dstCap, .smpSrc, .smpDst, .smpCount, .cfg, .rails] ∧
    Reg.bufSize ∈ [Reg.id, .errInfo, .resultLen, .frameLen, .bitCount, .samplesUsed, .bufSize] ∧
    (∃ k, Reg.matrix 6 = .matrix k) :=
  ⟨by decide, by decide, by decide, ⟨6, rfl⟩⟩

theorem witness_ParameterRegistersReadBack :
    State.reset.phase = .idle ∧
    Reg.rails ∈ [Reg.keyAddr, .keyLen, .srcAddr, .srcLen, .dstAddr, .dstCap, .smpSrc, .smpDst, .smpCount, .rails] := by
  decide

theorem witness_BusyRefusesTheWindow :
    (running 1 helloState).phase = .busy ∧
    (∀ o ∈ [0x10000, 0x100FC], 0x10000 ≤ (word o).toNat ∧
      (word o).toNat < 0x10000 + bufBytes (running 1 helloState) ∧ (word o).toNat % Width.w32.bytes = 0) := by
  decide +kernel

theorem witness_BusyDiscardsCommandWrites :
    ∃ s u : State, s.phase = .busy ∧ engineStep s = .next u :=
  ⟨running 0 State.reset, _, by decide, rfl⟩

theorem witness_AcceptanceWritesExactly : State.reset.phase = .idle := by decide

theorem witness_AcknowledgeDeassertsTheInterrupt :
    (∃ s : State, s.status.err = true ∧ s.irqEn.errIe = true) ∧
    (State.reset.status.done = true → (0xFFFFFFFF : Word).getLsbD 1 = false) ∧
    (State.reset.status.err = true → (0xFFFFFFFF : Word).getLsbD 2 = false) ∧
    (State.reset.status.utf8Drop = true → (0xFFFFFFFF : Word).getLsbD 4 = false) ∧
    (State.reset.status.hostColl = true → (0xFFFFFFFF : Word).getLsbD 5 = false) :=
  ⟨⟨{ State.reset with status := errorFlags .noKey State.reset.status, irqEn := irqEnOf 2 }, by decide⟩, by decide⟩

theorem witness_MatrixReadback :
    (3 < 4 ∧ 4 * (6 : Fin 7).val + 0 < 25) ∧ ¬ 4 * (6 : Fin 7).val + 1 < 25 := by decide

theorem witness_HostCollFollowsRefusedAccesses :
    (∃ s t : State, s.events = [.host (.write 0x00000020 .w32 7)] ∧ s.phase = .busy ∧ step s = .next t) ∧
    (∃ s t : State, s.events = [.completion] ∧ s.phase = .busy ∧ step s = .next t) ∧
    (∃ s t : State, s.events = [.reset] ∧ s.phase = .busy ∧ step s = .next t) :=
  ⟨⟨{ running 0 State.reset with events := [.host (.write 0x00000020 .w32 7)] }, _, by decide, by decide, rfl⟩,
    ⟨{ running 0 State.reset with events := [.completion] }, _, by decide, by decide, rfl⟩,
    ⟨{ running 0 State.reset with events := [.reset] }, _, by decide, by decide, rfl⟩⟩

theorem witness_MatrixChangesOnlyAtAKeyCommit :
    ∃ s t : State, step s = .next t ∧ t.matrix ≠ s.matrix ∧ t.status.keyValid = true :=
  ⟨running 1 embedState, _, rfl, by decide +kernel, by decide +kernel⟩

theorem witness_PhaseChangesOnlyAtAcceptanceAndCompletion :
    (∃ s t : State, step s = .next t ∧ s.phase = .idle ∧ t.phase = .busy) ∧
    (∃ s t : State, step s = .next t ∧ s.phase = .busy ∧ t.phase = .idle ∧ s.events = []) ∧
    (∃ s t : State, step s = .next t ∧ s.phase = .idle ∧ s.events = [.pollIdle 3, .reset] ∧ t.events = [.reset]) ∧
    (∃ s t : State, step s = .next t ∧ s.phase = .busy ∧ s.events = [.pollIdle 0, .reset] ∧
      t.events = [.completion, .pollIdle 0, .reset]) :=
  ⟨⟨{ State.reset with events := [.host (.write 0x00000004 .w32 0)] }, _, rfl, by decide, by decide⟩,
    ⟨running 0 State.reset, _, rfl, by decide, by decide, by decide⟩,
    ⟨{ State.reset with events := [.pollIdle 3, .reset] }, _, rfl, by decide, by decide, by decide⟩,
    ⟨{ running 0 State.reset with events := [.pollIdle 0, .reset] }, _, rfl, by decide, by decide, by decide⟩⟩

theorem witness_ErrorCompletionChangesOnlyTheReport :
    ∃ t, exec .zzEnc State.reset = .next t ∧ State.reset.status.err = false ∧ t.status.err = true :=
  ⟨_, rfl, by decide, by decide⟩

theorem witness_CommandsRaiseOnlyTheirErrors :
    (∃ t, exec .subEnc State.reset = .next t ∧ State.reset.status.err = false ∧ t.status.err = true) ∧
    ErrorCode.noKey.code = ErrorCode.noKey.code :=
  ⟨⟨_, rfl, by decide, by decide⟩, rfl⟩

theorem witness_CommandsWriteOnlyTheirRegion :
    ∃ t, exec .lsbEmbed embedState = .next t ∧
      (∀ r, writtenRegion .lsbEmbed embedState = some r → ¬ Inside 0x7F r ∧ ¬ Inside 0x8C r) :=
  ⟨_, rfl, by intro r h; cases h; decide⟩

theorem witness_CommandsReadOnlyTheirRegions :
    (∀ r ∈ readRegions .zzEnc helloState, ∀ a, Inside a r →
      bufByte { helloState with buf := (3, 1) :: helloState.buf } a = bufByte helloState a) ∧
    (∃ t, exec .zzEnc helloState = .next t) ∧
    (∃ u, exec .zzEnc { helloState with buf := (3, 1) :: helloState.buf } = .next u) := by
  refine ⟨?_, ⟨_, rfl⟩, ⟨_, rfl⟩⟩
  intro r hr a ha
  have he : readRegions .zzEnc helloState = [(0x20, 5)] := by decide
  obtain rfl : r = (0x20, 5) := by simpa [he] using hr
  have hne : ¬ 3 = a := by omega
  simp [bufByte, memFind, hne]

theorem witness_UnlistedRegistersCannotAffectACommand :
    (operandsAgree .zzEnc helloState.params { helloState.params with keyLen := 5, smpCount := 0xFFFFFFFF } ∧
      ∃ t, exec .zzEnc helloState = .next t) ∧
    (Instr.zzEnc ≠ .subEnc ∧ Instr.zzEnc ≠ .subDec) ∧
    (Instr.subKey ≠ .subEnc ∧ Instr.subKey ≠ .subDec ∧ ∃ t, exec .subKey embedState = .next t) :=
  ⟨⟨⟨⟨rfl, rfl⟩, ⟨rfl, rfl⟩, rfl⟩, ⟨_, rfl⟩⟩, by decide, by decide, by decide, ⟨_, rfl⟩⟩

theorem witness_LatencyDoesNotChangeTheResult :
    ∃ s t u : State, Inv s ∧ s.phase = .busy ∧ s.events = [] ∧ step s = .next t ∧
      Host.Core.run core (accessesWhileBusy.length + 1) { s with events := accessesWhileBusy.map .host } = .next u ∧
      u.status.hostColl ≠ t.status.hostColl :=
  ⟨running 4 helloState, _, _, by decide +kernel, by decide, by decide, rfl, rfl, by decide +kernel⟩

theorem witness_NopOnlySetsDone :
    ∃ s t : State, exec .nop s = .next t ∧ s.irqEn.doneIe = true :=
  ⟨{ State.reset with irqEn := irqEnOf 1 }, _, rfl, by decide⟩

theorem witness_SubKeyBuildsTheMatrix : KeyInRange embedState ∧ KeyHasLetter embedState := by decide

theorem witness_SubEncStoresTheEncryptedDigraphs :
    ∃ (s : State) (out : List Byte), TextReady s ∧ s.status.keyValid = true ∧
      out = concatPairs ((digraphs (normalise (srcBytes s))).map (encPair s.matrix)) ∧ out.length = s.params.dstCap.toNat :=
  ⟨helloState, _, by decide, by decide, rfl, by decide⟩

theorem witness_SubDecStoresTheDecryptedPairs :
    TextReady cipherState ∧ cipherState.status.keyValid = true ∧ cipherState.params.srcLen.toNat % 2 = 0 ∧
    (∀ b ∈ srcBytes cipherState, b ∈ cipherState.matrix.toList) ∧
    cipherState.params.srcLen.toNat ≤ cipherState.params.dstCap.toNat := by decide

theorem witness_ZzEncStoresTheRailReadout :
    TextReady helloState ∧ helloState.params.rails ≠ 0 ∧
    helloState.params.srcLen.toNat ≤ helloState.params.dstCap.toNat := by decide

theorem witness_ZzDecStoresThePathReadBack :
    TextReady cipherState ∧ cipherState.params.rails ≠ 0 ∧
    cipherState.params.srcLen.toNat ≤ cipherState.params.dstCap.toNat := by decide

theorem witness_LsbEmbedStoresThePackedSamples :
    EmbedReady embedState ∧
    (32 + 8 * embedState.params.srcLen.toNat + embedState.params.depth.toNat - 1) / embedState.params.depth.toNat ≤
      embedState.params.smpCount.toNat := by decide

theorem witness_LsbExtractStoresThePayload :
    ∃ (s : State) (d N L K : Nat) (p q : List Byte), ExtractReady s ∧ d = s.params.depth.toNat ∧
      N = s.params.smpCount.toNat ∧ (32 + d - 1) / d ≤ N ∧
      L = prefixLength (streamBits d (carriers s ((32 + d - 1) / d))) ∧ L % 8 = 0 ∧ K = (32 + L + d - 1) / d ∧ K ≤ N ∧
      p = payloadBytes (streamBits d (carriers s K)) L ∧ q = utf8Filter p ∧ q.length < p.length ∧
      q.length ≤ s.params.dstCap.toNat :=
  ⟨framed [0x41, 0xFF, 0x42], 8, 7, 24, 7, [0x41, 0xFF, 0x42], [0x41, 0x42], by decide, rfl, rfl, by decide,
    by decide +kernel, rfl, rfl, by decide, by decide +kernel, by decide +kernel, by decide, by decide⟩

theorem witness_PipeEncEmbedsTheCiphertext :
    PipeEncReady embedState ∧
    (32 + 8 * (zzEncrypt (concatPairs ((digraphs (normalise (srcBytes embedState))).map (encPair (keyMatrix embedState))))
      embedState.params.rails.toNat).length + embedState.params.depth.toNat - 1) / embedState.params.depth.toNat ≤
      embedState.params.smpCount.toNat := by decide +kernel

theorem witness_PipeDecStoresThePlaintext :
    ∃ (s : State) (d N L K : Nat) (m : Vector Byte 25) (p q c out : List Byte), PipeDecReady s ∧
      d = s.params.depth.toNat ∧ N = s.params.smpCount.toNat ∧ m = buildMatrix (normalise (keyBytes s)) ∧
      (32 + d - 1) / d ≤ N ∧ L = prefixLength (streamBits d (carriers s ((32 + d - 1) / d))) ∧ L % 8 = 0 ∧
      K = (32 + L + d - 1) / d ∧ K ≤ N ∧ p = payloadBytes (streamBits d (carriers s K)) L ∧ q = utf8Filter p ∧
      c = zzDecrypt q s.params.rails.toNat ∧ c.length % 2 = 0 ∧ (∀ b ∈ c, b ∈ m.toList) ∧
      out = concatPairs ((fixedPairs c).map (decPair m)) ∧ out.length ≤ s.params.dstCap.toNat :=
  ⟨extractState, 8, 6, 16, 6, monarchy, [0x42, 0x46], [0x42, 0x46], [0x42, 0x46], text ['H', 'I'], by decide +kernel,
    rfl, rfl, by decide +kernel, by decide, by decide +kernel, rfl, rfl, by decide, by decide +kernel, by decide +kernel,
    by decide +kernel, rfl, by decide, by decide +kernel, by decide⟩

theorem witness_SubKeyReportsItsFirstError :
    firstError (subKeyErrors (setParams embedState fun p => { p with keyAddr := 249 })) = some (.range, 0) ∧
    firstError (subKeyErrors (setParams embedState fun p => { p with keyLen := 0 })) = some (.invalidKey, 0) ∧
    firstError (subKeyErrors (withCarrier [0x21, 0x21] [] [] 8)) = some (.invalidKey, 1) := by decide

theorem witness_SubEncReportsItsFirstError :
    firstError (subEncErrors (setParams helloState fun p => { p with srcAddr := 252 })) = some (.range, 1) ∧
    firstError (subEncErrors (setParams helloState fun p => { p with dstAddr := 251 })) = some (.range, 2) ∧
    firstError (subEncErrors (setParams helloState fun p => { p with dstAddr := 0x24 })) = some (.overlap, 0x21) ∧
    firstError (subEncErrors (withSource (text ['A']) 2)) = some (.noKey, 0) ∧
    firstError (subEncErrors (setParams helloState fun p => { p with dstCap := 5 })) = some (.dstCap, 6) := by decide

theorem witness_SubDecReportsItsFirstError :
    (LettersBefore 0 (srcBytes (keyed (withSource (text ['G', 'A', 'T']) 4))) monarchy ∧
      firstError (subDecErrors (keyed (withSource (text ['G', 'A', 'T']) 4)) 0) = some (.inputOdd, 3)) ∧
    (LettersBefore 2 (srcBytes (keyed (withSource (text ['G', 'A', 'J', 'L']) 4))) monarchy ∧
      firstError (subDecErrors (keyed (withSource (text ['G', 'A', 'J', 'L']) 4)) 2) = some (.inputChar, 2)) ∧
    (LettersBefore 6 (srcBytes cipherState) monarchy ∧
      firstError (subDecErrors (setParams cipherState fun p => { p with dstCap := 5 }) 6) = some (.dstCap, 6)) ∧
    firstError (subDecErrors (setParams cipherState fun p => { p with srcAddr := 251 }) 0) = some (.range, 1) ∧
    firstError (subDecErrors (setParams cipherState fun p => { p with dstAddr := 251 }) 0) = some (.range, 2) ∧
    firstError (subDecErrors (setParams cipherState fun p => { p with dstAddr := 0x25 }) 0) = some (.overlap, 0x21) ∧
    firstError (subDecErrors (withSource (text ['A', 'B']) 2) 0) = some (.noKey, 0) := by decide

theorem witness_ZzCommandsReportTheirFirstError :
    (Instr.zzEnc = .zzEnc ∨ Instr.zzEnc = .zzDec) ∧ (Instr.zzDec = .zzEnc ∨ Instr.zzDec = .zzDec) ∧
    firstError (zzErrors (setParams helloState fun p => { p with rails := 0 })) = some (.invalidKey, 2) ∧
    firstError (zzErrors (setParams helloState fun p => { p with srcAddr := 252 })) = some (.range, 1) ∧
    firstError (zzErrors (setParams helloState fun p => { p with dstAddr := 251 })) = some (.range, 2) ∧
    firstError (zzErrors (setParams helloState fun p => { p with dstAddr := 0x24 })) = some (.overlap, 0x21) ∧
    firstError (zzErrors (setParams helloState fun p => { p with dstCap := 4 })) = some (.dstCap, 5) := by decide

theorem witness_LsbEmbedReportsItsFirstError :
    firstError (lsbEmbedErrors (setParams embedState fun p => { p with sfmt := 2 })) = some (.unsupportedFormat, 2) ∧
    firstError (lsbEmbedErrors (setParams embedState fun p => { p with depth := 0 })) = some (.param, 0) ∧
    firstError (lsbEmbedErrors (setParams embedState fun p => { p with depth := 9 })) = some (.param, 9) ∧
    firstError (lsbEmbedErrors (setParams embedState fun p => { p with smpSrc := 0x41 })) = some (.align, 0x41) ∧
    firstError (lsbEmbedErrors (setParams embedState fun p => { p with smpDst := 0x81 })) = some (.align, 0x81) ∧
    firstError (lsbEmbedErrors (setParams embedState fun p => { p with srcAddr := 255 })) = some (.range, 1) ∧
    firstError (lsbEmbedErrors (setParams embedState fun p => { p with smpSrc := 246 })) = some (.range, 3) ∧
    firstError (lsbEmbedErrors (setParams embedState fun p => { p with smpDst := 246 })) = some (.range, 4) ∧
    firstError (lsbEmbedErrors (setParams embedState fun p => { p with smpDst := 0x10 })) = some (.overlap, 0x41) ∧
    firstError (lsbEmbedErrors (setParams embedState fun p => { p with smpDst := 0x42 })) = some (.overlap, 0x43) ∧
    firstError (lsbEmbedErrors (setParams embedState fun p => { p with smpCount := 5 })) = some (.capacity, 6) := by decide

theorem witness_LsbExtractReportsItsFirstError :
    firstError (lsbExtractErrors false (setParams extractState fun p => { p with sfmt := 3 })) =
      some (.unsupportedFormat, 3) ∧
    firstError (lsbExtractErrors false (setParams extractState fun p => { p with depth := 9 })) = some (.param, 9) ∧
    firstError (lsbExtractErrors false (setParams extractState fun p => { p with smpSrc := 0x41 })) = some (.align, 0x41) ∧
    firstError (lsbExtractErrors false (setParams extractState fun p => { p with dstAddr := 241 })) = some (.range, 2) ∧
    firstError (lsbExtractErrors false (setParams extractState fun p => { p with smpSrc := 246 })) = some (.range, 3) ∧
    firstError (lsbExtractErrors false (setParams extractState fun p => { p with dstAddr := 0x40 })) = some (.overlap, 0x32) ∧
    firstError (lsbExtractErrors false (setParams extractState fun p => { p with smpCount := 3 })) = some (.capacity, 4) ∧
    firstError (lsbExtractErrors true (withCarrier [] [] [0, 0, 0, 1] 8)) = some (.frame, 1) ∧
    firstError (lsbExtractErrors true (setParams extractState fun p => { p with smpCount := 5 })) = some (.capacity, 6) ∧
    firstError (lsbExtractErrors true (setParams extractState fun p => { p with dstCap := 1 })) = some (.dstCap, 2) := by
  decide +kernel

theorem witness_PipeEncReportsItsFirstError :
    firstError (pipeEncErrors (setParams embedState fun p => { p with sfmt := 2 })) = some (.unsupportedFormat, 2) ∧
    firstError (pipeEncErrors (setParams embedState fun p => { p with depth := 0 })) = some (.param, 0) ∧
    firstError (pipeEncErrors (setParams embedState fun p => { p with rails := 0 })) = some (.invalidKey, 2) ∧
    firstError (pipeEncErrors (setParams embedState fun p => { p with smpSrc := 0x41 })) = some (.align, 0x41) ∧
    firstError (pipeEncErrors (setParams embedState fun p => { p with smpDst := 0x81 })) = some (.align, 0x81) ∧
    firstError (pipeEncErrors (setParams embedState fun p => { p with keyAddr := 249 })) = some (.range, 0) ∧
    firstError (pipeEncErrors (setParams embedState fun p => { p with srcAddr := 255 })) = some (.range, 1) ∧
    firstError (pipeEncErrors (setParams embedState fun p => { p with smpSrc := 246 })) = some (.range, 3) ∧
    firstError (pipeEncErrors (setParams embedState fun p => { p with smpDst := 246 })) = some (.range, 4) ∧
    firstError (pipeEncErrors (setParams embedState fun p => { p with smpDst := 6 })) = some (.overlap, 0x40) ∧
    firstError (pipeEncErrors (setParams embedState fun p => { p with smpDst := 0x10 })) = some (.overlap, 0x41) ∧
    firstError (pipeEncErrors (setParams embedState fun p => { p with smpDst := 0x42 })) = some (.overlap, 0x43) ∧
    firstError (pipeEncErrors (setParams embedState fun p => { p with keyLen := 0 })) = some (.invalidKey, 0) ∧
    firstError (pipeEncErrors (withCarrier [0x21] [] [0, 0, 0, 0] 8)) = some (.invalidKey, 1) ∧
    firstError (pipeEncErrors (setParams embedState fun p => { p with smpCount := 5 })) = some (.capacity, 6) := by
  decide +kernel

theorem witness_PipeDecReportsItsFirstError :
    LettersBefore 0 (pipePlain false extractState) (keyMatrix extractState) ∧
    firstError (pipeDecErrors false (setParams extractState fun p => { p with sfmt := 2 }) 0) =
      some (.unsupportedFormat, 2) ∧
    firstError (pipeDecErrors false (setParams extractState fun p => { p with depth := 0 }) 0) = some (.param, 0) ∧
    firstError (pipeDecErrors false (setParams extractState fun p => { p with rails := 0 }) 0) = some (.invalidKey, 2) ∧
    firstError (pipeDecErrors false (setParams extractState fun p => { p with smpSrc := 0x41 }) 0) = some (.align, 0x41) ∧
    firstError (pipeDecErrors false (setParams extractState fun p => { p with keyAddr := 249 }) 0) = some (.range, 0) ∧
    firstError (pipeDecErrors false (setParams extractState fun p => { p with dstAddr := 241 }) 0) = some (.range, 2) ∧
    firstError (pipeDecErrors false (setParams extractState fun p => { p with smpSrc := 246 }) 0) = some (.range, 3) ∧
    firstError (pipeDecErrors false (setParams extractState fun p => { p with dstAddr := 7 }) 0) = some (.overlap, 0x20) ∧
    firstError (pipeDecErrors false (setParams extractState fun p => { p with dstAddr := 0x40 }) 0) = some (.overlap, 0x32) ∧
    firstError (pipeDecErrors false (setParams extractState fun p => { p with keyLen := 0 }) 0) = some (.invalidKey, 0) ∧
    firstError (pipeDecErrors false (withCarrier [0x21] [] [0, 0, 0, 0] 8) 0) = some (.invalidKey, 1) := by
  decide +kernel

theorem witness_PipeDecReportsItsFirstError_data :
    firstError (pipeDecErrors false (setParams extractState fun p => { p with smpCount := 3 }) 0) = some (.capacity, 4) ∧
    firstError (pipeDecErrors false (withCarrier [0x41] [] [0, 0, 0, 1] 8) 0) = some (.frame, 1) ∧
    firstError (pipeDecErrors true (setParams extractState fun p => { p with smpCount := 5 }) 0) = some (.capacity, 6) ∧
    firstError (pipeDecErrors true (framed [0x41, 0x42, 0x43]) 0) = some (.inputOdd, 3) ∧
    (LettersBefore 2 (pipePlain true (framed [0x41, 0x62, 0x43, 0x44])) monarchy ∧
      firstError (pipeDecErrors true (framed [0x41, 0x62, 0x43, 0x44]) 2) = some (.inputChar, 2)) ∧
    (LettersBefore 2 (pipePlain true extractState) monarchy ∧
      firstError (pipeDecErrors true (setParams extractState fun p => { p with dstCap := 1 }) 2) = some (.dstCap, 2)) := by
  decide +kernel

theorem witness_BuildMatrixIsKeyLettersThenAlphabet : normalise [0x6A] ≠ [] := by decide

theorem witness_DecPairInvertsEncPair :
    monarchy.toList.Nodup ∧ 0x4D#8 ∈ monarchy.toList ∧ 0x5A#8 ∈ monarchy.toList := by decide

theorem witness_SubstitutionRoundTrip :
    ∃ (s t u : State) (dst cap : Word), MatrixInv s ∧ exec .subEnc s = .next t ∧ s.status.err = false ∧
      t.status.err = false ∧
      u = { t with params := { t.params with
              srcAddr := t.params.dstAddr, srcLen := t.results.resultLen, dstAddr := dst, dstCap := cap } } ∧
      TextReady u ∧ t.results.resultLen.toNat ≤ cap.toNat :=
  ⟨helloState, _, _, 0x40, 6, by decide, rfl, by decide, by decide, rfl, by decide +kernel, by decide⟩

theorem witness_RailPointerClosedForm :
    1 ≤ 3 ∧ 16 < 17 ∧ (railSeq 3 17)[16]? = some 0 ∧ (railSeq 1 1)[0]? = some 0 := by decide

theorem witness_ZzEncReadsTheRailsInOrder :
    1 ≤ 3 ∧ (railSeq 3 (text ['A', 'B', 'C', 'D', 'E', 'F', 'G']).length)[6]? = some 2 := by decide

theorem witness_ZigZagRoundTrip : 1 ≤ 1 := by decide

theorem witness_ZigZagIdentityCases : (1 ≤ 1 ∧ 1 = 1) ∧ (1 ≤ 2 ∧ (text ['A', 'B']).length ≤ 2) := by decide

theorem witness_EmbeddingPacksTheChunks :
    (31 < 32 ∧ 1 < [(0x48 : Byte), 0x69].length ∧ 7 < 8) ∧
    (1 ≤ 8 ∧ 8 ≤ 8) ∧ (∃ xs : List Half, xs.length = 5 ∧ (32 + 8 * ([] : List Byte).length + 8 - 1) / 8 ≤ 4 ∧
      3 < (32 + 8 * ([] : List Byte).length + 8 - 1) / 8) :=
  ⟨by decide, by decide, ⟨[0, 0, 0, 0, 0], by decide⟩⟩

theorem witness_LsbRoundTrip :
    ∃ (s t u : State) (dst cap : Word) (q : List Byte), exec .lsbEmbed s = .next t ∧ s.status.err = false ∧
      t.status.err = false ∧
      u = { t with params := { t.params with smpSrc := t.params.smpDst, sfmt := 0, dstAddr := dst, dstCap := cap } } ∧
      DstInRange u ∧ Apart dst.toNat cap.toNat t.params.smpDst.toNat (2 * t.params.smpCount.toNat) ∧
      q = utf8Filter (srcBytes s) ∧ q.length ≤ cap.toNat :=
  ⟨embedState, _, _, 0xC0, 2, _, rfl, by decide, by decide +kernel, rfl, by decide +kernel, by decide +kernel, rfl,
    by decide +kernel⟩

theorem witness_CapacityBoundary :
    (EmbedReady (setParams embedState fun p => { p with smpCount := 5 }) ∧ 5 + 1 = (32 + 8 * 2 + 8 - 1) / 8) ∧
    (EmbedReady embedState ∧ embedState.params.srcLen.toNat = 2 ∧ embedState.params.depth.toNat = 8 ∧
      embedState.params.smpCount.toNat = (32 + 8 * 2 + 8 - 1) / 8) := by decide

theorem witness_ConversionIsExactOnIntegerProducts :
    Binary32Finite 0x3F800000 ∧ binary32Value 0x3F800000 * 32767 = ((32767 : Int) : ℚ) ∧
    (-32768 : Int) ≤ 32767 ∧ (32767 : Int) ≤ 32767 := by
  refine ⟨by decide, ?_, by decide, by decide⟩
  have he : ((0x3F800000 : Word).extractLsb' 23 8).toNat = 127 := by decide
  have hf : ((0x3F800000 : Word).extractLsb' 0 23).toNat = 0 := by decide
  have hs : (0x3F800000 : Word)[31] = false := by decide
  norm_num [binary32Value, he, hf, hs]

theorem witness_Utf8FilterKeepsWellFormedText :
    (∀ b ∈ text ['A', '~'], b.toNat < 0x80) ∧ WellFormedUtf8 [0x41, 0xC3, 0xA9] ∧ Utf8Sequence [0xF4, 0x8F, 0xBF, 0xBF] ∧
    (∀ q tail, [(0xFF : Byte), 0x41] = q ++ tail → ¬ Utf8Sequence q) := by
  refine ⟨by decide, ⟨[[0x41], [0xC3, 0xA9]], by decide, ?_⟩, ?_, ?_⟩
  · intro q hq
    simp only [List.mem_cons, List.not_mem_nil, or_false] at hq
    rcases hq with rfl | rfl <;> unfold Utf8Sequence <;> decide
  · unfold Utf8Sequence; decide
  · intro q tail h
    match q, h with
    | [], _ => simp [Utf8Sequence]
    | [a], h => cases h; simp [Utf8Sequence]
    | [a, b], h => cases h; simp [Utf8Sequence]
    | a :: b :: c :: q, h => simp at h

theorem witness_PipelineRoundTrip :
    ∃ (s t u : State) (dst cap : Word), exec .pipeEnc s = .next t ∧ s.status.err = false ∧ t.status.err = false ∧
      u = { t with params := { t.params with smpSrc := t.params.smpDst, sfmt := 0, dstAddr := dst, dstCap := cap } } ∧
      DstInRange u ∧ Apart dst.toNat cap.toNat t.params.smpDst.toNat (2 * t.params.smpCount.toNat) ∧
      Apart t.params.keyAddr.toNat t.params.keyLen.toNat dst.toNat cap.toNat ∧ t.results.resultLen.toNat ≤ cap.toNat :=
  ⟨embedState, _, _, 0xC0, 2, rfl, by decide, by decide +kernel, rfl, by decide +kernel, by decide +kernel,
    by decide +kernel, by decide +kernel⟩

end Sys2Proof.Tests
end

