-- ==== Sys2Proof/Proofs/RegisterAccess.lean ====
section
/-! PROOF. What an access of a register does: the register map's lookup inverted once, and one rule for a read and one for a write
at a register's offset; then which registers a write reaches, in the two groups of R44. -/

namespace Sys2Proof

/-- The host finds every register at its own offset (R22). -/
@[simp] theorem regAt_offset (r : Reg) : regAt r.offset = some r := by
  cases r with
  | matrix k => revert k; decide
  | _ => decide

theorem regAt_eq_some_iff (o : Nat) (r : Reg) : regAt o = some r ↔ o = r.offset := by
  constructor
  · intro h
    have hr := List.find?_some (p := fun r => Reg.offset r == o) h
    exact (beq_iff_eq.1 hr).symm
  · rintro rfl
    exact regAt_offset r

/-- No two registers share an offset (R22). -/
theorem Reg.offset_injective : Function.Injective Reg.offset := fun r q h =>
  Option.some_inj.1 (by rw [← regAt_offset r, h, regAt_offset])

/-- Up to BUFSIZE the register map has no gap (R22). -/
theorem regAt_isSome_of_le {o : Nat} (h4 : o % 4 = 0) (hle : o ≤ 0x50) : ∃ r, regAt o = some r := by
  have table : ∀ k : Fin 21, (regAt (4 * k.val)).isSome = true := by decide
  have h := table ⟨o / 4, by omega⟩
  rw [show 4 * (o / 4) = o by omega] at h
  exact Option.isSome_iff_exists.1 h

theorem Reg.offset_le (r : Reg) : r.offset ≤ 0x98 := by
  cases r with
  | matrix k => have := k.isLt; simp only [Reg.offset]; omega
  | _ => decide

theorem Reg.offset_mod_four (r : Reg) : r.offset % 4 = 0 := by
  cases r with
  | matrix k => simp only [Reg.offset]; omega
  | _ => rfl

@[simp] theorem Reg.toNat_word_offset (r : Reg) : (word r.offset).toNat = r.offset :=
  Nat.mod_eq_of_lt (r.offset_le.trans_lt (by decide))

end Sys2Proof

namespace Sys2Proof.Machine

@[simp] theorem busy_eq_true_iff (s : State) : busy s = true ↔ s.phase = .busy := by
  cases h : s.phase <;> simp [busy, h]

/-- Below the BUF window an aligned access is a register access (R61, R62). -/
theorem busAccess_below_window (s : State) {a : Access} (ha : a.aligned = true) (ho : a.offset < Config.windowBase) :
    busAccess s a = .ok (regAccess s a) := by
  have hin : a.inAperture = true := by
    simpa [Access.inAperture] using ho.trans (by decide : Config.windowBase < Config.apertureBytes)
  simp [busAccess, hin, ha, ho]

/-- A 32-bit access at a register's offset is aligned and below the BUF window (R62). -/
theorem aligned_at_offset {a : Access} (r : Reg) (hw : a.width = .w32) (ho : a.offset = r.offset) :
    a.aligned = true ∧ a.offset < Config.windowBase := by
  have hlt : a.offset < Config.windowBase := ho ▸ r.offset_le.trans_lt (by decide)
  refine ⟨?_, hlt⟩
  rw [Access.aligned, if_pos hlt, hw, ho, r.offset_mod_four]
  rfl

theorem busAccess_at_offset (s : State) {a : Access} (r : Reg) (hw : a.width = .w32) (ho : a.offset = r.offset) :
    busAccess s a = .ok (regAccess s a) := by
  obtain ⟨hal, hlt⟩ := aligned_at_offset r hw ho
  exact busAccess_below_window s hal hlt

/-- A host read of a register (R22, R45). -/
theorem busAccess_read_reg (s : State) (r : Reg) :
    busAccess s (.read (word r.offset) .w32) = .ok (s, .data (readReg s r)) := by
  rw [busAccess_at_offset s r (by rfl) (by exact r.toNat_word_offset)]
  simp only [regAccess, Reg.toNat_word_offset, regAt_offset]

/-- A host write of a register (R22, R44). -/
theorem busAccess_write_reg (s : State) (v : Word) (r : Reg) :
    busAccess s (.write (word r.offset) .w32 v) = .ok (writeReg s v r, .written) := by
  rw [busAccess_at_offset s r (by rfl) (by exact r.toNat_word_offset)]
  simp only [regAccess, Reg.toNat_word_offset, regAt_offset]

/-- The parameter registers of R34, with CFG (R38): those R44 blocks while BUSY. -/
def paramRegs : List Reg :=
  [.keyAddr, .keyLen, .srcAddr, .srcLen, .dstAddr, .dstCap, .smpSrc, .smpDst, .smpCount, .cfg, .rails]

/-- The parameter registers fill the offsets from KEY_ADDR to RAILS. -/
theorem mem_paramRegs_iff (r : Reg) : r ∈ paramRegs ↔ 0x14 ≤ r.offset ∧ r.offset ≤ 0x3C := by
  cases r with
  | matrix k =>
    have hhi : ¬ 0x080 + 4 * k.val ≤ 0x3C := by omega
    simp [paramRegs, Reg.offset, hhi]
  | _ => decide

/-- A parameter write is refused while BUSY, and else changes the parameters alone (R34, R44). -/
theorem writeReg_param {r : Reg} (h : r ∈ paramRegs) (s : State) (v : Word) :
    ∃ p, writeReg s v r = unlessBusy s { s with params := p } := by
  simp only [paramRegs, List.mem_cons, List.not_mem_nil, or_false] at h
  rcases h with rfl | rfl | rfl | rfl | rfl | rfl | rfl | rfl | rfl | rfl | rfl <;> exact ⟨_, rfl⟩

@[simp] theorem unlessBusy_of_busy {s : State} (h : s.phase = .busy) (t : State) : unlessBusy s t = collide s := by
  simp [unlessBusy, h]

@[simp] theorem unlessBusy_of_idle {s : State} (h : s.phase = .idle) (t : State) : unlessBusy s t = t := by
  simp [unlessBusy, busy, h]

/-- The read-only registers (R43). -/
def ReadOnlyReg (r : Reg) : Prop :=
  r ∈ [Reg.id, .errInfo, .resultLen, .frameLen, .bitCount, .samplesUsed, .bufSize] ∨ ∃ k, r = .matrix k

/-- A read-only register ignores every write, at any time (R43, R44). -/
theorem writeReg_readOnly {r : Reg} (h : ReadOnlyReg r) (s : State) (v : Word) : writeReg s v r = s := by
  rcases h with h | ⟨k, rfl⟩
  · simp only [List.mem_cons, List.not_mem_nil, or_false] at h
    rcases h with rfl | rfl | rfl | rfl | rfl | rfl | rfl <;> rfl
  · rfl

/-- What a host's write can reach: CMD, STATUS, IRQ_EN, a parameter register, or nothing. -/
theorem reg_groups (r : Reg) :
    r = .cmd ∨ r = .status ∨ r = .irqEn ∨ r ∈ paramRegs ∨ (ReadOnlyReg r ∧ r ∉ paramRegs) := by
  cases r <;> simp [ReadOnlyReg, paramRegs]

end Sys2Proof.Machine
end

