-- ==== Sys2Proof/Proofs/HostColl.lean ====
section
/-! PROOF. HOSTCOLL (R30): which accesses set it and which write clears it, for a register write, for an access, and for a step. -/

namespace Sys2Proof.Machine

/-- The access is refused when the engine is BUSY: a write of CMD or of a parameter register, or an access of BUF (R44, R75, R217). -/
def Blockable (s : State) (a : Access) : Prop :=
  (∃ o w v, a = .write o w v ∧ (o.toNat = 0x004 ∨ (0x014 ≤ o.toNat ∧ o.toNat ≤ 0x03C))) ∨
    (0x10000 ≤ a.offset ∧ a.offset < 0x10000 + bufBytes s)

/-- The access is a write of STATUS that has a 1 for bit 5 (R24). -/
def ClearsHostColl (a : Access) : Prop := ∃ v, a = .write 0x008 .w32 v ∧ v.getLsbD 5 = true

@[simp] theorem not_clearsHostColl_read (o : Word) (w : Width) : ¬ ClearsHostColl (.read o w) := by
  rintro ⟨v, h, -⟩
  cases h

theorem clearsHostColl_write_iff (o : Word) (v : Word) :
    ClearsHostColl (.write o .w32 v) ↔ o.toNat = 0x008 ∧ v.getLsbD 5 = true := by
  constructor
  · rintro ⟨v', h, hv⟩
    cases h
    exact ⟨rfl, hv⟩
  · rintro ⟨ho, hv⟩
    exact ⟨v, by rw [BitVec.eq_of_toNat_eq (y := 0x008) ho], hv⟩

/-- The write that clears HOSTCOLL is an aligned access below the BUF window. -/
theorem ClearsHostColl.below_window {a : Access} (h : ClearsHostColl a) :
    a.aligned = true ∧ a.offset < Config.windowBase := by
  obtain ⟨v, rfl, -⟩ := h
  exact aligned_at_offset .status rfl rfl

/-- Below the BUF window only a write of CMD or of a parameter register can be refused. -/
theorem blockable_write_iff (s : State) {o : Word} (w : Width) (v : Word) (ho : o.toNat < Config.windowBase) :
    Blockable s (.write o w v) ↔ o.toNat = 0x004 ∨ (0x014 ≤ o.toNat ∧ o.toNat ≤ 0x03C) := by
  constructor
  · rintro (⟨_, _, _, h, hoff⟩ | ⟨hlo, -⟩)
    · cases h
      exact hoff
    · exact absurd ho (Nat.not_lt.2 hlo)
  · exact fun h => .inl ⟨o, w, v, rfl, h⟩

theorem not_blockable_read (s : State) {o : Word} (w : Width) (ho : o.toNat < Config.windowBase) :
    ¬ Blockable s (.read o w) := by
  rintro (⟨_, _, _, h, -⟩ | ⟨hlo, -⟩)
  · cases h
  · exact absurd ho (Nat.not_lt.2 hlo)

/-- From the BUF window on an access can be refused exactly when it is inside BUF. -/
theorem blockable_window_iff (s : State) {a : Access} (ho : ¬ a.offset < Config.windowBase) :
    Blockable s a ↔ a.offset < Config.windowBase + bufBytes s := by
  have hlo : 0x10000 ≤ a.offset := Nat.not_lt.1 ho
  constructor
  · rintro (⟨o, w, v, rfl, hoff⟩ | ⟨-, hhi⟩)
    · have : 0x10000 ≤ o.toNat := hlo
      omega
    · exact hhi
  · exact fun hhi => .inr ⟨hlo, hhi⟩

/-- HOSTCOLL after an operation that is refused while BUSY and else leaves HOSTCOLL alone. -/
theorem unlessBusy_hostColl (s : State) {t : State} (h : t.status.hostColl = s.status.hostColl) :
    (unlessBusy s t).status.hostColl = true ↔ s.phase = .busy ∨ s.status.hostColl = true := by
  cases hp : s.phase <;> simp [hp, h]

/-- HOSTCOLL after a write of a register (R30, R44, R217). -/
theorem writeReg_hostColl (s : State) (v : Word) (r : Reg) :
    (writeReg s v r).status.hostColl = true ↔
      (s.phase = .busy ∧ (r = .cmd ∨ r ∈ paramRegs)) ∨
        (s.status.hostColl = true ∧ ¬ (r = .status ∧ v.getLsbD 5 = true)) := by
  rcases reg_groups r with rfl | rfl | rfl | hparam | ⟨hro, hparam⟩
  · simpa [writeReg] using unlessBusy_hostColl s (t := accept v s) rfl
  · simp [writeReg, paramRegs]
  · simp [writeReg, paramRegs]
  · obtain ⟨p, hp⟩ := writeReg_param hparam s v
    have hstatus : r ≠ .status := by rintro rfl; exact absurd hparam (by decide)
    simp [hp, unlessBusy_hostColl, hparam, hstatus]
  · have hcmd : r ≠ .cmd := by rintro rfl; simp [ReadOnlyReg] at hro
    have hstatus : r ≠ .status := by rintro rfl; simp [ReadOnlyReg] at hro
    simp [writeReg_readOnly hro, hcmd, hparam, hstatus]

/-- HOSTCOLL after an aligned register access (R30, R44, R48, R217). -/
theorem regAccess_hostColl (s : State) {a : Access} (ha : a.aligned = true) (ho : a.offset < Config.windowBase) :
    (regAccess s a).1.status.hostColl = true ↔
      (s.phase = .busy ∧ Blockable s a) ∨ (s.status.hostColl = true ∧ ¬ ClearsHostColl a) := by
  rw [Access.aligned, if_pos ho] at ha
  obtain ⟨hw, h4⟩ : a.width = .w32 ∧ a.offset % 4 = 0 := by simpa using ha
  cases a with
  | read o w =>
    have hs : (regAccess s (.read o w)).1 = s := by simp only [regAccess]; split <;> rfl
    simp [hs, not_blockable_read s w ho]
  | write o w v =>
    obtain rfl : w = .w32 := hw
    replace h4 : o.toNat % 4 = 0 := h4
    rw [blockable_write_iff s .w32 v ho, clearsHostColl_write_iff]
    simp only [regAccess]
    split
    · next r hr =>
      have ho' : o.toNat = r.offset := (regAt_eq_some_iff _ _).1 hr
      have hcmd : r = .cmd ↔ r.offset = 0x004 := Reg.offset_injective.eq_iff.symm
      have hstatus : r = .status ↔ r.offset = 0x008 := Reg.offset_injective.eq_iff.symm
      rw [writeReg_hostColl, mem_paramRegs_iff, hcmd, hstatus, ho']
    · next hnone =>
      have hgap : 0x50 < o.toNat := by
        by_contra hle
        obtain ⟨r, hr⟩ := regAt_isSome_of_le h4 (by omega)
        simp [hr] at hnone
      have hlo : ¬ (o.toNat = 0x004 ∨ (0x014 ≤ o.toNat ∧ o.toNat ≤ 0x03C)) := by omega
      have hstatus : o.toNat ≠ 0x008 := by omega
      simp only [hlo, hstatus, and_false, false_and, false_or, not_false_eq_true, and_true]

/-- HOSTCOLL after an access of BUF through the window (R75). -/
theorem bufAccess_hostColl (s : State) (b : Nat) (a : Access) :
    (bufAccess s b a).1.status.hostColl = true ↔ s.phase = .busy ∨ s.status.hostColl = true := by
  cases a with
  | read o w => cases hp : s.phase <;> simp [bufAccess, busy, hp]
  | write o w v => exact unlessBusy_hostColl s rfl

theorem unusedAccess_state (s : State) (a : Access) : (unusedAccess s a).1 = s := by
  cases a <;> rfl

/-- HOSTCOLL after an access that the bus takes (R30). -/
theorem busAccess_ok_hostColl {s t : State} {a : Access} {r : Reply} (h : busAccess s a = .ok (t, r)) :
    t.status.hostColl = true ↔
      (s.phase = .busy ∧ a.aligned = true ∧ Blockable s a) ∨ (s.status.hostColl = true ∧ ¬ ClearsHostColl a) := by
  unfold busAccess at h
  split at h
  · cases h
  split at h
  · cases h
  next _ hal =>
  have hal : a.aligned = true := by simpa using hal
  split at h
  · next ho =>
    cases congrArg Prod.fst (Except.ok.inj h)
    simpa [hal] using regAccess_hostColl s hal ho
  next ho =>
  have hclear : ¬ ClearsHostColl a := fun hc => ho hc.below_window.2
  split at h
  · next hhi =>
    cases congrArg Prod.fst (Except.ok.inj h)
    simp [hal, hclear, blockable_window_iff s ho, hhi, bufAccess_hostColl]
  · next hhi =>
    cases congrArg Prod.fst (Except.ok.inj h)
    simp [hclear, blockable_window_iff s ho, hhi, unusedAccess_state]

/-- A bus error is a misaligned access (R62, R63). -/
theorem aligned_of_busError {s : State} {a : Access} (h : busAccess s a = .error .busError) : a.aligned = false := by
  unfold busAccess at h
  split at h
  · cases h
  split at h
  · next hal => simpa using hal
  split at h
  · cases h
  split at h <;> cases h

/-- HOSTCOLL after a step that is a host access (R30): a bus error leaves it (R231). -/
theorem hostTurn_hostColl {a : Access} {s t : State} (h : hostTurn a s = .next t) :
    t.status.hostColl = true ↔
      (s.phase = .busy ∧ a.aligned = true ∧ Blockable s a) ∨ (s.status.hostColl = true ∧ ¬ ClearsHostColl a) := by
  rcases hostTurn_cases h with ⟨s', r, hacc, rfl⟩ | ⟨herr, rfl⟩
  · rw [reply_status]
    exact busAccess_ok_hostColl hacc
  · have hal := aligned_of_busError herr
    have hclear : ¬ ClearsHostColl a := fun hc => by simp [hc.below_window.1] at hal
    simp [hal, hclear]

/-- A completion leaves HOSTCOLL (R30), whether it commits or reports an error. -/
theorem engineTurn_hostColl {s t : State} (h : engineTurn s = .next t) : t.status.hostColl = s.status.hostColl := by
  rcases engineTurn_cases h with ⟨-, rfl⟩ | ⟨-, h⟩
  · rfl
  rcases engineStep_cases h with ⟨i, -, h⟩ | ⟨e, -, rfl⟩
  · rcases exec_cases h with ⟨e, -, rfl⟩ | ⟨c, -, rfl⟩ <;> rfl
  · rfl

/-- Settles O20: each kind of event by what its step does to HOSTCOLL. -/
theorem hostCollFollowsRefusedAccesses : Obligations.HostCollFollowsRefusedAccesses := by
  intro s t h
  refine ⟨fun a es he => ?_, fun he => ?_, fun es he => ?_⟩
  · rw [step, nextStep, he] at h
    exact hostTurn_hostColl (s := { s with events := es }) h
  · rcases he with he | ⟨es, he⟩
    · rw [step, nextStep, he] at h
      exact engineTurn_hostColl h
    · rw [step, nextStep, he] at h
      exact engineTurn_hostColl (s := { s with events := es }) h
  · rw [step, nextStep, he] at h
    cases h
    rfl

end Sys2Proof.Machine
end

