-- ==== Sys2Proof/Proofs/StatusAndParameters.lean ====
section
/-! PROOF. The host's writes of the parameter registers, STATUS, IRQ_EN and the read-only registers (R24, R32, R44), and the fields
of STATUS and MATRIX as the host reads them (R24, R36). -/

namespace Sys2Proof.Machine

/-- Settles O12: one rule for a write at a register's offset, then the two groups of registers R44 names. -/
theorem busyBlocksParameterWrites : Obligations.BusyBlocksParameterWrites := by
  intro s v r
  refine ⟨fun hbusy => ⟨fun hparam => ?_, busAccess_write_reg s v .status, busAccess_write_reg s v .irqEn⟩, fun hro => ?_⟩
  · obtain ⟨p, hp⟩ := writeReg_param hparam s v
    rw [busAccess_write_reg, hp, unlessBusy_of_busy hbusy]
    rfl
  · rw [busAccess_write_reg, writeReg_readOnly hro]

/-- The low byte of the STATUS word, bit by bit (R24). -/
theorem statusWord_getLsbD_low (s : State) {i : Nat} (hi : i < 8) :
    (statusWord s).getLsbD i =
      [busy s, s.status.done, s.status.err, s.status.keyValid, s.status.utf8Drop, s.status.hostColl,
        false, false].getD i false := by
  rw [statusWord, BitVec.getLsbD_append]
  simp only [BitVec.getLsbD_append]
  interval_cases i <;> simp

/-- ERRCODE stands above the low byte of the STATUS word, with zeros above it (R24). -/
theorem statusWord_getLsbD_high (s : State) (i : Nat) :
    (statusWord s).getLsbD (8 + i) = s.status.errCode.code.getLsbD i := by
  rw [statusWord, BitVec.getLsbD_append, Nat.add_comm]
  simp only [BitVec.getLsbD_append]
  simpa using BitVec.lt_of_getLsbD

/-- The reserved bits of the STATUS word and its field ERRCODE (R24). -/
theorem statusWord_fields (s : State) :
    (statusWord s).extractLsb' 6 2 = 0 ∧ (statusWord s).extractLsb' 8 8 = s.status.errCode.code ∧
    (statusWord s).extractLsb' 16 16 = 0 := by
  refine ⟨?_, ?_, ?_⟩ <;> refine BitVec.eq_of_getLsbD_eq fun i hi => ?_ <;> rw [BitVec.getLsbD_extractLsb']
  · rw [statusWord_getLsbD_low s (by omega)]
    interval_cases i <;> rfl
  · simp [statusWord_getLsbD_high, hi]
  · rw [show 16 + i = 8 + (8 + i) by omega, statusWord_getLsbD_high, BitVec.getLsbD_of_ge _ _ (by omega)]
    simp

theorem statusWord_resetOf (k : Fin 17) : statusWord (State.resetOf k) = 0 := by
  revert k; decide

/-- Settles O17: the fields of the STATUS word, and the write of STATUS, which does not look at the phase. -/
theorem statusFieldsAndWriteOneToClear : Obligations.StatusFieldsAndWriteOneToClear := by
  intro s v
  obtain ⟨hrsv, hcode, hrsv'⟩ := statusWord_fields s
  have hbusy : (statusWord s).getLsbD 0 = true ↔ s.phase = .busy := by
    rw [statusWord_bit_zero, busy_eq_true_iff]
  have hbit {i : Nat} (hi : i < 8) := statusWord_getLsbD_low s hi
  exact ⟨hbusy, hbit (i := 1) (by decide), hbit (i := 2) (by decide), hbit (i := 3) (by decide),
    hbit (i := 4) (by decide), hbit (i := 5) (by decide), hrsv, hcode, hrsv', statusWord_resetOf,
    busAccess_write_reg s v .status⟩

/-- Byte `j` of a little-endian value is byte `j` of the string (R11, R64). -/
theorem leValue_byte (bs : List Byte) (j : Nat) : leValue bs / 256 ^ j % 256 = (bs.getD j 0).toNat := by
  induction bs generalizing j with
  | nil => simp [leValue]
  | cons b bs ih =>
    have hb := b.isLt
    cases j with
    | zero => simp only [leValue, pow_zero, Nat.div_one, List.getD_cons_zero]; omega
    | succ j =>
      rw [pow_succ', ← Nat.div_div_eq_div_mul, List.getD_cons_succ, ← ih j, leValue]
      congr 2
      omega

/-- A word made of four bytes has them in its four byte fields. -/
theorem extractLsb'_word_leValue (bs : List Byte) (hlen : bs.length = 4) (j : Nat) :
    (word (leValue bs)).extractLsb' (8 * j) 8 = bs.getD j 0 := by
  have hlt : leValue bs < 2 ^ 32 := by simpa [hlen] using leValue_lt bs
  apply BitVec.eq_of_toNat_eq
  rw [BitVec.extractLsb'_toNat, BitVec.toNat_ofNat, Nat.mod_eq_of_lt hlt, Nat.shiftRight_eq_div_pow, pow_mul,
    ← leValue_byte bs j]
  rfl

/-- Byte `j` of MATRIXk is cell 4k + j, and 0x00 above cell 24 (R36). -/
theorem matrixWord_byte (m : Vector Byte 25) (k : Nat) {j : Nat} (hj : j < 4) :
    (matrixWord m k).extractLsb' (8 * j) 8 = if h : 4 * k + j < 25 then m[4 * k + j] else 0x00 := by
  rw [matrixWord, extractLsb'_word_leValue _ (by simp)]
  split
  · next h => simp [List.getD, hj, h]
  · next h => simp [List.getD, hj, h]

/-- Settles O19: MATRIXk is a read-only register, and each byte of its word a cell. -/
theorem matrixReadback : Obligations.MatrixReadback := by
  intro s k v
  exact ⟨busAccess_read_reg s (.matrix k), busAccess_write_reg s v (.matrix k),
    fun _ hj => matrixWord_byte s.matrix k.val hj⟩

end Sys2Proof.Machine
end

