-- ==== Sys2Proof/Proofs/BufWindow.lean ====
section
/-! PROOF. Accesses at and above the BUF window (R61, R63, R75): one rule each for a misaligned access, an access of BUF and an
access above BUF; then what an access of BUF does in either phase, and the bytes a write stores. -/

namespace Sys2Proof

/-- From the BUF window on an access is aligned at the multiples of its width (R63). -/
theorem aligned_iff_of_window {a : Access} (ho : Config.windowBase ≤ a.offset) :
    a.aligned = true ↔ a.offset % a.width.bytes = 0 := by
  rw [Access.aligned, if_neg (Nat.not_lt.2 ho), beq_iff_eq]

theorem Width.bytes_dvd_four (w : Width) : w.bytes ∣ 4 := by
  cases w <;> decide

theorem Width.bytes_dvd_windowBase (w : Width) : w.bytes ∣ Config.windowBase :=
  w.bytes_dvd_four.trans (by decide)

end Sys2Proof

namespace Sys2Proof.Machine

theorem windowBase_add_bufBytes_le (s : State) : Config.windowBase + bufBytes s ≤ Config.apertureBytes :=
  (Nat.add_le_add_left (bufBytes_le s) _).trans (by decide)

/-- Every width divides BUF_BYTES, a power of 2 of at least 256 (R7). -/
theorem bytes_dvd_bufBytes (w : Width) (s : State) : w.bytes ∣ bufBytes s :=
  w.bytes_dvd_four.trans (pow_dvd_pow 2 (m := 2) (by omega))

/-- An aligned access that begins inside BUF is wholly inside it. -/
theorem aligned_access_inside (s : State) {o : Nat} (w : Width) (hlo : Config.windowBase ≤ o) (hal : o % w.bytes = 0)
    (hhi : o < Config.windowBase + bufBytes s) : o - Config.windowBase + w.bytes ≤ bufBytes s := by
  have hbuf : o - Config.windowBase ≡ bufBytes s [MOD w.bytes] :=
    (Nat.modEq_zero_iff_dvd.2 (Nat.dvd_sub (Nat.dvd_of_mod_eq_zero hal) w.bytes_dvd_windowBase)).trans
      (Nat.modEq_zero_iff_dvd.2 (bytes_dvd_bufBytes w s)).symm
  exact hbuf.add_le_of_lt (by omega)

/-- A misaligned access inside the aperture is a bus error (R62, R63). -/
theorem busAccess_misaligned (s : State) {a : Access} (hin : a.offset < Config.apertureBytes) (hal : a.aligned = false) :
    busAccess s a = .error .busError := by
  simp [busAccess, Access.inAperture, hin, hal]

/-- An aligned access of BUF through its window (R63). -/
theorem busAccess_in_buf (s : State) {a : Access} (hlo : Config.windowBase ≤ a.offset)
    (hhi : a.offset < Config.windowBase + bufBytes s) (hal : a.offset % a.width.bytes = 0) :
    busAccess s a = .ok (bufAccess s (a.offset - Config.windowBase) a) := by
  have hin : a.offset < Config.apertureBytes := hhi.trans_le (windowBase_add_bufBytes_le s)
  simp [busAccess, Access.inAperture, hin, (aligned_iff_of_window hlo).2 hal, Nat.not_lt.2 hlo, hhi]

/-- An aligned access of the unused range above BUF (R61). -/
theorem busAccess_above_buf (s : State) {a : Access} (hlo : Config.windowBase + bufBytes s ≤ a.offset)
    (hin : a.offset < Config.apertureBytes) (hal : a.offset % a.width.bytes = 0) :
    busAccess s a = .ok (unusedAccess s a) := by
  have hwin : Config.windowBase ≤ a.offset := (Nat.le_add_right ..).trans hlo
  simp [busAccess, Access.inAperture, hin, (aligned_iff_of_window hwin).2 hal, Nat.not_lt.2 hwin, Nat.not_lt.2 hlo]

theorem bufAccess_read_busy {s : State} (h : s.phase = .busy) (b : Nat) (o : Word) (w : Width) :
    bufAccess s b (.read o w) = (collide s, .data 0) := by
  simp [bufAccess, h]

theorem bufAccess_write_busy {s : State} (h : s.phase = .busy) (b : Nat) (o : Word) (w : Width) (v : Word) :
    bufAccess s b (.write o w v) = (collide s, .written) := by
  simp [bufAccess, h]

theorem bufAccess_read_idle {s : State} (h : s.phase = .idle) (b : Nat) (o : Word) (w : Width) :
    bufAccess s b (.read o w) = (s, .data (word (memRead s b w.bytes))) := by
  simp [bufAccess, h]

theorem bufAccess_write_idle {s : State} (h : s.phase = .idle) (b : Nat) (o : Word) (w : Width) (v : Word) :
    bufAccess s b (.write o w v) = (writeBuf b (leBytes w.bytes v.toNat) s, .written) := by
  simp [bufAccess, h]

/-- Byte `j` of a little-endian string is the value shifted down by `j` bytes (R11, R64). -/
theorem getElem_leBytes (n v j : Nat) (h : j < (leBytes n v).length) :
    (leBytes n v)[j] = BitVec.ofNat 8 (v / 256 ^ j) := by
  induction n generalizing v j with
  | zero => simp at h
  | succ n ih =>
    cases j with
    | zero => simp [leBytes]
    | succ j =>
      simp only [leBytes, List.getElem_cons_succ]
      rw [ih, Nat.div_div_eq_div_mul, ← pow_succ']

/-- The bytes of a word are its byte fields. -/
theorem getElem_leBytes_toNat (n : Nat) (v : Word) (j : Nat) (h : j < (leBytes n v.toNat).length) :
    (leBytes n v.toNat)[j] = v.extractLsb' (8 * j) 8 := by
  apply BitVec.eq_of_toNat_eq
  rw [getElem_leBytes, BitVec.toNat_ofNat, BitVec.extractLsb'_toNat, Nat.shiftRight_eq_div_pow, pow_mul]
  rfl

/-- Settles O14: the access is one of BUF, and while BUSY it only collides. -/
theorem busyRefusesTheWindow : Obligations.BusyRefusesTheWindow := by
  intro s o w v hbusy hlo hhi hal
  constructor
  · rw [busAccess_in_buf s (a := .read o w) hlo hhi hal, bufAccess_read_busy hbusy]
    rfl
  · rw [busAccess_in_buf s (a := .write o w v) hlo hhi hal, bufAccess_write_busy hbusy]
    rfl

/-- Settles O11: the three ranges of the window by their rules; the bytes of a write by what a store leaves in BUF. -/
theorem windowAccessesReadAndWriteBuf : Obligations.WindowAccessesReadAndWriteBuf := by
  intro s o w v hlo hin
  refine ⟨fun hmis => ?misaligned, fun hal hidle hhi => ?inside, fun hal habove => ?above⟩
  case misaligned =>
    have misaligned {a : Access} (ho : a.offset = o.toNat) (hw : a.width = w) : a.aligned = false := by
      rw [← Bool.not_eq_true, aligned_iff_of_window (ho ▸ hlo), ho, hw]
      exact hmis
    exact ⟨busAccess_misaligned s hin (misaligned rfl rfl), busAccess_misaligned s hin (misaligned rfl rfl)⟩
  case inside =>
    refine ⟨aligned_access_inside s w hlo hal hhi, ?_, writeBuf (o.toNat - 0x10000) (leBytes w.bytes v.toNat) s, ?_, rfl,
      fun j hj => ?_, fun a ha => ?_⟩
    · rw [busAccess_in_buf s (a := .read o w) hlo hhi hal, bufAccess_read_idle hidle]
      rfl
    · rw [busAccess_in_buf s (a := .write o w v) hlo hhi hal, bufAccess_write_idle hidle]
      rfl
    · rw [bufByte_stored_inside (writeBuf_buf ..) (by simpa using hj), getElem_leBytes_toNat]
    · exact bufByte_stored_outside (writeBuf_buf ..) rfl (by simpa using ha)
  case above =>
    exact ⟨busAccess_above_buf s (a := .read o w) habove hin hal, busAccess_above_buf s (a := .write o w v) habove hin hal⟩

end Sys2Proof.Machine
end

