-- ==== Sys2Proof/Proofs/CommandWord.lean ====
section
/-! PROOF. The command word (R90 to R94): a word is its three fields, the opcode map read both ways, so that a word decodes to a
command exactly when it is that command's word; then the illegal words, which complete with BADCMD. -/

namespace Sys2Proof

/-- The twelve commands of R92, in the order of its list of legal words. -/
def commands : List Instr :=
  [.nop, .subKey, .subEnc, .subDec, .zzEnc, .zzDec, .lsbEmbed, .lsbExtract false, .lsbExtract true, .pipeEnc, .pipeDec false,
    .pipeDec true]

theorem mem_commands (i : Instr) : i ∈ commands := by
  cases i with
  | lsbExtract raw | pipeDec raw => cases raw <;> decide
  | _ => decide

/-- The commands paired with their words are R92's list of legal words. -/
theorem mem_commandWords_iff (w : Word) (i : Instr) :
    (w, i) ∈ commands.map (fun j => (encode j, j)) ↔ w = encode i := by
  simp [mem_commands, eq_comm]

/-- A word is its fields OP, RAW and RSV (R90). -/
theorem word_eq_iff_fields (w v : Word) :
    w = v ↔ rsvField w = rsvField v ∧ opField w = opField v ∧ rawField w = rawField v := by
  refine ⟨by rintro rfl; exact ⟨rfl, rfl, rfl⟩, fun ⟨hrsv, hop, hraw⟩ => BitVec.eq_of_toNat_eq ?_⟩
  have hbit : w.toNat / 2 ^ 8 % 2 = 1 ↔ v.toNat / 2 ^ 8 % 2 = 1 := by
    simpa [rawField, BitVec.getLsbD, Nat.testBit_eq_decide_div_mod_eq] using hraw
  unfold opField at hop
  unfold rsvField at hrsv
  omega

/-- The fields of every command's word (R90), the laws of the ten commands in one. -/
theorem encodedFields (i : Instr) : Laws.EncodedFields.Statement i := by
  cases i with
  | nop => exact Laws.EncodedFields.nop
  | subKey => exact Laws.EncodedFields.subKey
  | subEnc => exact Laws.EncodedFields.subEnc
  | subDec => exact Laws.EncodedFields.subDec
  | zzEnc => exact Laws.EncodedFields.zzEnc
  | zzDec => exact Laws.EncodedFields.zzDec
  | lsbEmbed => exact Laws.EncodedFields.lsbEmbed
  | lsbExtract raw => exact Laws.EncodedFields.lsbExtract raw
  | pipeEnc => exact Laws.EncodedFields.pipeEnc
  | pipeDec raw => exact Laws.EncodedFields.pipeDec raw

/-- A word is the word of `i` when its fields are those of R90 and R92. -/
theorem eq_encode_iff (w : Word) (i : Instr) :
    w = encode i ↔ rsvField w = 0 ∧ opField w = opcode i ∧ rawField w = rawBit i := by
  obtain ⟨hop, hraw, hrsv⟩ := encodedFields i
  rw [word_eq_iff_fields, hop, hraw, hrsv]

/-- A row that does not allow RAW gives its command at RAW = 0 alone (R92, R94). -/
theorem noRaw_eq_ok_iff (raw : Bool) (i j : Instr) : opcodeRow.noRaw raw i = .ok j ↔ raw = false ∧ i = j := by
  cases raw <;> simp [opcodeRow.noRaw]

/-- The opcode map selects `i` on `i`'s own opcode and RAW bit, and on no other pair (R92). -/
theorem opcodeRow_eq_ok_iff (op : Nat) (raw : Bool) (i : Instr) :
    opcodeRow op raw = .ok i ↔ op = opcode i ∧ raw = rawBit i := by
  constructor
  · intro h
    unfold opcodeRow at h
    split at h
    -- the rows 0x07 and 0x09, which allow either RAW; no row; the rows that do not allow RAW
    case h_8 | h_10 => cases h; exact ⟨rfl, rfl⟩
    case h_11 => cases h
    all_goals
      obtain ⟨rfl, rfl⟩ := (noRaw_eq_ok_iff ..).1 h
      exact ⟨rfl, rfl⟩
  · rintro ⟨rfl, rfl⟩
    cases i <;> rfl

/-- A word decodes to `i` exactly when it is `i`'s command word (R90, R92). -/
theorem decode_eq_ok_iff (w : Word) (i : Instr) : decode w = .ok i ↔ w = encode i := by
  rw [eq_encode_iff, decode]
  by_cases hrsv : rsvField w = 0 <;> simp [hrsv, opcodeRow_eq_ok_iff]

/-- The pairs of OP and RAW that R92 gives a command. -/
theorem exists_command_iff (op : Nat) (raw : Bool) :
    (∃ i, op = opcode i ∧ raw = rawBit i) ↔ op < 0x0A ∧ (raw = true → op = 7 ∨ op = 9) := by
  constructor
  · rintro ⟨i, rfl, rfl⟩
    cases i <;> simp [opcode, rawBit]
  · rintro ⟨hop, hraw⟩
    have table : ∀ (n : Fin 0x0A) (b : Bool), (b = true → n.val = 7 ∨ n.val = 9) →
        ∃ i ∈ commands, n.val = opcode i ∧ b = rawBit i := by decide
    obtain ⟨i, -, hi⟩ := table ⟨op, hop⟩ raw hraw
    exact ⟨i, hi⟩

/-- The illegal words of R94, by their fields. -/
theorem decode_ne_ok_iff (w : Word) :
    (∀ i, decode w ≠ .ok i) ↔
      rsvField w ≠ 0 ∨ 0x0A ≤ opField w ∨ (rawField w = true ∧ opField w ≠ 7 ∧ opField w ≠ 9) := by
  have legal : (∃ i, decode w = .ok i) ↔
      rsvField w = 0 ∧ opField w < 0x0A ∧ (rawField w = true → opField w = 7 ∨ opField w = 9) := by
    simp only [decode_eq_ok_iff, eq_encode_iff, exists_and_left, exists_command_iff]
  rw [← not_exists, legal]
  simp only [not_and_or, Classical.not_imp, not_or, Nat.not_lt, ne_eq]

end Sys2Proof

namespace Sys2Proof.Machine

/-- Settles O1: the words of the list are those of the commands, and a word decodes to `i` exactly when it is `i`'s. -/
theorem opcodeMapIsExact : Obligations.OpcodeMapIsExact := by
  intro w i
  rw [decode_eq_ok_iff, ← mem_commandWords_iff]
  rfl

/-- An illegal word in CMD completes with BADCMD and the whole word (R94, R214 step 1). -/
theorem engineStep_of_illegal {s : State} (h : ∀ i, decode s.cmd ≠ .ok i) :
    engineStep s = .next (raise (badCommand s.cmd) s) := by
  unfold engineStep fetch
  split
  · exact absurd ‹_› (h _)
  · rfl

/-- Settles O3: the illegal words by their fields; then acceptance of a write to CMD, and BADCMD's completion. -/
theorem illegalWordsCompleteWithBadCmd : Obligations.IllegalWordsCompleteWithBadCmd := by
  refine fun w => ⟨(decode_ne_ok_iff w).symm, fun s hill hidle => ?_⟩
  have hwrite : busAccess s (.write 0x004 .w32 w) = .ok (accept w s, .written) := by
    rw [← unlessBusy_of_idle hidle (accept w s)]
    exact busAccess_write_reg s w .cmd
  refine ⟨accept w s, raise (badCommand w) (accept w s), hwrite, accept_phase w s, accept_cmd w s,
    engineStep_of_illegal hill, ?_⟩
  rw [Safety.Fails, BitVec.ofNat_toNat, BitVec.setWidth_eq]
  rfl

end Sys2Proof.Machine
end

