-- ==== Sys2Proof/Proofs/CipherMatrix.lean ====
section
/-! PROOF. MATRIX as 25 cells (R35 to R37, R113): POS inverts CELL on distinct letters, so every letter is a cell and the pair
rules of R115 and R116 are arithmetic on rows and columns modulo 5. Then which letters a CipherMatrix holds (R112). -/

namespace Sys2Proof.Machine

open Sys2Proof.Safety

/-! ### Cells and positions -/

/-- CELL wraps its row and its column at 5 (R113). -/
theorem cell_congr (m : Vector Byte 25) {r r' c c' : Nat} (hr : r % 5 = r' % 5) (hc : c % 5 = c' % 5) :
    cell m r c = cell m r' c' := by
  simp only [cell, hr, hc]

/-- Row-major order (R35). -/
theorem getElem?_eq_cell (m : Vector Byte 25) {r c : Nat} (hr : r < 5) (hc : c < 5) :
    m.toList[5 * r + c]? = some (cell m r c) := by
  have h : 5 * r + c < 25 := by omega
  simp [cell, Nat.mod_eq_of_lt hr, Nat.mod_eq_of_lt hc, h]

theorem cell_mem (m : Vector Byte 25) (r c : Nat) : cell m r c ∈ m.toList := by
  simp [cell]

/-- Every letter of a matrix stands in a cell. -/
theorem exists_cell_of_mem {m : Vector Byte 25} {l : Byte} (h : l ∈ m.toList) : ∃ r c, cell m r c = l := by
  obtain ⟨k, hk, rfl⟩ := List.getElem_of_mem h
  have hk : k < 25 := by simpa using hk
  refine ⟨k / 5, k % 5, Option.some_inj.1 ?_⟩
  rw [← getElem?_eq_cell m (by omega) (by omega), Nat.div_add_mod, List.getElem?_eq_getElem]

/-- POS inverts CELL on a matrix of distinct letters (R37, R113). -/
theorem pos_cell {m : Vector Byte 25} (hm : m.toList.Nodup) (r c : Nat) : pos m (cell m r c) = (r % 5, c % 5) := by
  have hlt : 5 * (r % 5) + c % 5 < m.toList.length := by simp; omega
  have hcell : m.toList[5 * (r % 5) + c % 5] = cell m r c := by simp [cell]
  have hidx : m.toList.findIdx? (· == cell m r c) = some (5 * (r % 5) + c % 5) := by
    rw [List.findIdx?_eq_some_iff_getElem]
    refine ⟨hlt, by simp [hcell], fun j hj => ?_⟩
    rw [← hcell, beq_iff_eq, hm.getElem_inj_iff]
    exact hj.ne
  simp only [pos, hidx, Prod.mk.injEq]
  omega

/-! ### The pair rules (R115, R116) -/

/-- The shift of a pair of cells: along a common row, down a common column, else the rectangle swap. -/
theorem shiftPair_cell {m : Vector Byte 25} (hm : m.toList.Nodup) (k r₁ c₁ r₂ c₂ : Nat) :
    shiftPair m k (cell m r₁ c₁, cell m r₂ c₂) =
      if r₁ % 5 = r₂ % 5 then (cell m r₁ (c₁ + k), cell m r₂ (c₂ + k))
      else if c₁ % 5 = c₂ % 5 then (cell m (r₁ + k) c₁, cell m (r₂ + k) c₂)
      else (cell m r₁ c₂, cell m r₂ c₁) := by
  simp only [shiftPair, pos_cell hm]
  simp [cell]

/-- Two shifts that make a full turn give back every pair of letters: each case of the rule leads into the same case. -/
theorem shiftPair_shiftPair {m : Vector Byte 25} (hm : m.toList.Nodup) {j k : Nat} (hjk : (j + k) % 5 = 0) {a b : Byte}
    (ha : a ∈ m.toList) (hb : b ∈ m.toList) : shiftPair m k (shiftPair m j (a, b)) = (a, b) := by
  obtain ⟨r₁, c₁, rfl⟩ := exists_cell_of_mem ha
  obtain ⟨r₂, c₂, rfl⟩ := exists_cell_of_mem hb
  have turn (n : Nat) : (n + j + k) % 5 = n % 5 := by omega
  rw [shiftPair_cell hm j]
  split_ifs with hrow hcol
  · rw [shiftPair_cell hm, if_pos hrow, cell_congr m rfl (turn c₁), cell_congr m rfl (turn c₂)]
  · rw [shiftPair_cell hm, if_neg (by omega), if_pos hcol, cell_congr m (turn r₁) rfl, cell_congr m (turn r₂) rfl]
  · rw [shiftPair_cell hm, if_neg hrow, if_neg (Ne.symm hcol)]

/-- A shifted pair is made of letters of the matrix. -/
theorem shiftPair_mem (m : Vector Byte 25) (k : Nat) (p : Byte × Byte) :
    (shiftPair m k p).1 ∈ m.toList ∧ (shiftPair m k p).2 ∈ m.toList := by
  simp only [shiftPair]
  split_ifs <;> exact ⟨cell_mem .., cell_mem ..⟩

theorem encPair_mem (m : Vector Byte 25) (p : Byte × Byte) :
    (encPair m p).1 ∈ m.toList ∧ (encPair m p).2 ∈ m.toList :=
  shiftPair_mem m 1 p

/-- Decrypting a pair undoes encrypting it: one step and four more are a full turn (R116). -/
theorem decPair_encPair {m : Vector Byte 25} (hm : m.toList.Nodup) {a b : Byte} (ha : a ∈ m.toList) (hb : b ∈ m.toList) :
    decPair m (encPair m (a, b)) = (a, b) :=
  shiftPair_shiftPair hm (by decide) ha hb

/-- Settles O48: the three cases are the rule itself, and the inverse law is that of two shifts making a full turn. -/
theorem decPairInvertsEncPair : Obligations.DecPairInvertsEncPair :=
  fun _ _ _ hm ha hb => ⟨rfl, decPair_encPair hm ha hb⟩

/-! ### The letters of the grid (R8, R110, R112) -/

/-- The letters of the grid are `A` to `Z` without `J` (R8). -/
theorem mem_alphabet_iff (l : Byte) : l ∈ Config.alphabet ↔ 0x41#8 ≤ l ∧ l ≤ 0x5A#8 ∧ l ≠ 0x4A#8 := by
  have hrange : (∃ i < 26, BitVec.ofNat 8 (0x41 + i) = l) ↔ 0x41#8 ≤ l ∧ l ≤ 0x5A#8 := by
    constructor
    · rintro ⟨i, hi, rfl⟩
      bv_omega
    · rintro ⟨hlo, hhi⟩
      exact ⟨l.toNat - 0x41, by bv_omega, by bv_omega⟩
  rw [Config.alphabet, List.mem_filter, decide_eq_true_eq]
  simp only [Config.mergeFrom, List.mem_map, List.mem_range, hrange, and_assoc]

theorem nodup_alphabet : Config.alphabet.Nodup := by decide

theorem length_alphabet : Config.alphabet.length = 25 := by decide

/-- A CipherMatrix holds every letter of the grid: its 25 distinct letters are among 25 (R112). -/
theorem matrixOk_perm_alphabet {m : Vector Byte 25} (hm : MatrixOk m) : m.toList.Perm Config.alphabet := by
  obtain ⟨hnodup, hletters⟩ := hm
  have hsub : m.toList ⊆ Config.alphabet := fun l hl => (mem_alphabet_iff l).2 (hletters l hl)
  exact (hnodup.subperm hsub).perm_of_length_le (by simp [length_alphabet])

/-- Normalise folds `J` into `I` and keeps letters only (R110). -/
theorem mem_alphabet_of_normByte {b l : Byte} (h : normByte b = some l) : l ∈ Config.alphabet := by
  simp only [normByte, Option.ite_none_right_eq_some, Option.some_inj] at h
  obtain ⟨⟨hlo, hhi⟩, rfl⟩ := h
  generalize (if 0x61#8 ≤ b ∧ b ≤ 0x7A#8 then b - 0x20#8 else b) = u at *
  split
  · decide
  · next hJ => exact (mem_alphabet_iff _).2 ⟨hlo, hhi, hJ⟩

theorem normalise_subset_alphabet (s : List Byte) : normalise s ⊆ Config.alphabet := by
  intro l hl
  obtain ⟨b, -, hb⟩ := List.mem_filterMap.1 hl
  exact mem_alphabet_of_normByte hb

end Sys2Proof.Machine
end

