-- ==== Sys2Proof/Proofs/BuildMatrix.lean ====
section
/-! PROOF. BuildMatrix (R111, R112): the model's fold `appendNew` against the first occurrences of the key and the filtered
alphabet, and that the sequence it builds is a rearrangement of the 25 letters. -/

namespace Sys2Proof.Machine

open Sys2Proof.Safety

@[simp] theorem appendNew_nil (seq : List Byte) : appendNew seq [] = seq := rfl

theorem appendNew_cons (seq : List Byte) (b : Byte) (bs : List Byte) :
    appendNew seq (b :: bs) = appendNew (if b ∈ seq then seq else seq ++ [b]) bs := rfl

theorem mem_appendNew {seq bs : List Byte} {b : Byte} : b ∈ appendNew seq bs ↔ b ∈ seq ∨ b ∈ bs := by
  induction bs generalizing seq with
  | nil => simp
  | cons c bs ih =>
    rw [appendNew_cons, ih, List.mem_cons]
    split
    · next hc => exact ⟨Or.imp_right .inr, by rintro (h | rfl | h) <;> simp [*]⟩
    · rw [List.mem_append, List.mem_singleton, or_assoc]

theorem nodup_appendNew {seq : List Byte} (bs : List Byte) (h : seq.Nodup) : (appendNew seq bs).Nodup := by
  induction bs generalizing seq with
  | nil => exact h
  | cons b bs ih =>
    rw [appendNew_cons]
    split
    · exact ih h
    · exact ih (List.concat_eq_append ▸ h.concat ‹_›)

/-- Appending distinct letters adds just those that have not occurred yet. -/
theorem appendNew_of_nodup (seq : List Byte) {bs : List Byte} (h : bs.Nodup) :
    appendNew seq bs = seq ++ bs.filter (· ∉ seq) := by
  induction bs generalizing seq with
  | nil => simp
  | cons b bs ih =>
    obtain ⟨hb, hbs⟩ := List.nodup_cons.1 h
    rw [appendNew_cons, ih _ hbs]
    split
    · simp [*]
    · have hrest : bs.filter (· ∉ seq ++ [b]) = bs.filter (· ∉ seq) :=
        List.filter_congr fun c hc => by simp [show c ≠ b from fun e => hb (e ▸ hc)]
      rw [hrest, List.filter_cons_of_pos (by simpa), List.append_assoc, List.singleton_append]

/-- The key letters are the key's bytes, each at its first occurrence (R111). -/
theorem keyLetters_eq_eraseDups (k : List Byte) : keyLetters k = k.eraseDups := by
  induction k using List.reverseRecOn with
  | nil => rfl
  | append_singleton k b ih =>
    have hstep : keyLetters (k ++ [b]) = if b ∈ keyLetters k then keyLetters k else keyLetters k ++ [b] := by
      simp only [keyLetters, appendNew, List.foldl_append]
      rfl
    rw [hstep, ih, List.eraseDups_append]
    by_cases hb : b ∈ k <;> simp [List.cons_removeAll, List.eraseDups_cons, hb]

theorem nodup_keyLetters (k : List Byte) : (keyLetters k).Nodup := nodup_appendNew k List.nodup_nil

theorem mem_keyLetters {k : List Byte} {b : Byte} : b ∈ keyLetters k ↔ b ∈ k := by
  simp [keyLetters, mem_appendNew]

/-- BuildMatrix's sequence: the key letters, then the letters that are not in the key (R111). -/
theorem buildSeq_eq (k : List Byte) : buildSeq k = k.eraseDups ++ Config.alphabet.filter (· ∉ k) := by
  rw [buildSeq, appendNew_of_nodup _ nodup_alphabet, keyLetters_eq_eraseDups]
  simp only [List.mem_eraseDups]

/-- The sequence built from grid letters is a rearrangement of the grid's letters (R112). -/
theorem buildSeq_perm {k : List Byte} (h : k ⊆ Config.alphabet) : (buildSeq k).Perm Config.alphabet := by
  rw [buildSeq, List.perm_ext_iff_of_nodup (nodup_appendNew _ (nodup_keyLetters k)) nodup_alphabet]
  intro b
  rw [mem_appendNew, mem_keyLetters]
  exact ⟨fun hb => hb.elim (@h b) id, .inr⟩

/-- The register file holds a sequence of 25 bytes as it stands (R35). -/
theorem toList_matrixOf {seq : List Byte} (h : seq.length = 25) : (matrixOf seq).toList = seq := by
  refine List.ext_getElem (by simp [h]) fun i hi hi' => ?_
  simp [matrixOf, hi']

theorem toList_buildMatrix {k : List Byte} (h : k ⊆ Config.alphabet) : (buildMatrix k).toList = buildSeq k :=
  toList_matrixOf ((buildSeq_perm h).length_eq.trans length_alphabet)

/-- BuildMatrix gives a CipherMatrix (R112). -/
theorem buildMatrix_ok {k : List Byte} (h : k ⊆ Config.alphabet) : MatrixOk (buildMatrix k) := by
  rw [MatrixOk, toList_buildMatrix h]
  exact ⟨(buildSeq_perm h).nodup_iff.2 nodup_alphabet, fun b hb => (mem_alphabet_iff b).1 ((buildSeq_perm h).subset hb)⟩

/-- There are at most 25 key letters (R112). -/
theorem length_keyLetters_le {k : List Byte} (h : k ⊆ Config.alphabet) : (keyLetters k).length ≤ 25 := by
  have hsub : keyLetters k ⊆ Config.alphabet := fun b hb => h (mem_keyLetters.1 hb)
  exact length_alphabet ▸ ((nodup_keyLetters k).subperm hsub).length_le

theorem keyLetters_ne_nil {k : List Byte} (h : k ≠ []) : keyLetters k ≠ [] := by
  obtain ⟨b, hb⟩ := List.exists_mem_of_ne_nil k h
  exact List.ne_nil_of_mem (mem_keyLetters.2 hb)

/-- Settles O47: the matrix is the built sequence, a rearrangement of the 25 letters, whose first part is the key letters. -/
theorem buildMatrixIsKeyLettersThenAlphabet : Obligations.BuildMatrixIsKeyLettersThenAlphabet := by
  intro key hkey
  have hsub : normalise key ⊆ Config.alphabet := normalise_subset_alphabet key
  refine ⟨?_, buildMatrix_ok hsub, fun r c hr hc => getElem?_eq_cell _ hr hc, by rw [keyLetters_eq_eraseDups],
    List.length_pos_iff.2 (keyLetters_ne_nil hkey), length_keyLetters_le hsub⟩
  rw [toList_buildMatrix hsub, buildSeq_eq, Config.alphabet, List.filter_filter]
  refine congrArg _ (List.filter_congr fun b _ => Bool.eq_iff_iff.2 ?_)
  simp only [Bool.and_eq_true, decide_eq_true_eq]
  exact and_comm

end Sys2Proof.Machine
end

