-- ==== Sys2Proof/Proofs/Digraphs.lean ====
section
/-! PROOF. Digraphs (R114, R120): how many there are, which letters they hold, and that decrypting the fixed pairs of an encrypted
text gives them back (R119, R121). -/

namespace Sys2Proof.Machine

open Sys2Proof.Safety

@[simp] theorem concatPairs_nil : concatPairs [] = [] := rfl

@[simp] theorem concatPairs_cons (p : Byte × Byte) (ps : List (Byte × Byte)) :
    concatPairs (p :: ps) = p.1 :: p.2 :: concatPairs ps := rfl

@[simp] theorem length_concatPairs (ps : List (Byte × Byte)) : (concatPairs ps).length = 2 * ps.length := by
  induction ps with
  | nil => rfl
  | cons p ps ih => rw [concatPairs_cons, List.length_cons, List.length_cons, List.length_cons, ih]; omega

theorem mem_concatPairs {ps : List (Byte × Byte)} {b : Byte} : b ∈ concatPairs ps ↔ ∃ p ∈ ps, b = p.1 ∨ b = p.2 := by
  simp [concatPairs]

/-- Splitting concatenated pairs at fixed width gives them back (R119). -/
@[simp] theorem fixedPairs_concatPairs (ps : List (Byte × Byte)) : fixedPairs (concatPairs ps) = ps := by
  induction ps with
  | nil => rfl
  | cons p ps ih => rw [concatPairs_cons, fixedPairs, ih]

/-! ### The three branches of R114 -/

@[simp] theorem digraphs_nil : digraphs [] = [] := rfl

@[simp] theorem digraphs_singleton (a : Byte) : digraphs [a] = [(a, Config.fill)] := rfl

/-- The FILL-inserting branch. -/
@[simp] theorem digraphs_same (a : Byte) (t : List Byte) :
    digraphs (a :: a :: t) = (a, Config.fill) :: digraphs (a :: t) := by
  rw [digraphs, if_pos rfl]

theorem digraphs_distinct {a b : Byte} (h : b ≠ a) (t : List Byte) :
    digraphs (a :: b :: t) = (a, b) :: digraphs t := by
  rw [digraphs, if_neg h]

theorem length_le_two_mul_digraphs (t : List Byte) : t.length ≤ 2 * (digraphs t).length := by
  induction t using digraphs.induct with
  | case1 => simp
  | case2 a => simp
  | case3 a t ih => simp only [digraphs_same, List.length_cons] at ih ⊢; omega
  | case4 a b t h ih => simp only [digraphs_distinct h, List.length_cons]; omega

theorem length_digraphs_le (t : List Byte) : (digraphs t).length ≤ t.length := by
  induction t using digraphs.induct with
  | case1 => simp
  | case2 a => simp
  | case3 a t ih => simpa using ih
  | case4 a b t h ih => simp only [digraphs_distinct h, List.length_cons]; omega

/-- The digraphs add no letter exactly when no branch inserts FILL (R120): a digraph of the FILL branches takes one letter of the
text, and the rest never gives fewer letters than it takes. -/
theorem two_mul_length_digraphs_eq_iff (t : List Byte) :
    2 * (digraphs t).length = t.length ↔ splitsEvenly t = true := by
  induction t using digraphs.induct with
  | case1 => simp [splitsEvenly]
  | case2 a => simp [splitsEvenly]
  | case3 a t ih =>
    have hrest := length_le_two_mul_digraphs (a :: t)
    have hfill : splitsEvenly (a :: a :: t) = false := by simp [splitsEvenly]
    simp only [digraphs_same, List.length_cons, hfill, Bool.false_eq_true, iff_false] at hrest ⊢
    omega
  | case4 a b t h ih =>
    have hpair : splitsEvenly (a :: b :: t) = splitsEvenly t := by simp [splitsEvenly, h]
    rw [hpair, ← ih, digraphs_distinct h]
    simp only [List.length_cons]
    omega

/-- Settles O49: the bounds by the branches of R114; a length of twice the digraphs is even. -/
theorem digraphLengthLaw : Obligations.DigraphLengthLaw := by
  intro t
  have hiff := two_mul_length_digraphs_eq_iff t
  refine ⟨length_concatPairs _, length_le_two_mul_digraphs t, Nat.mul_le_mul_left 2 (length_digraphs_le t), hiff, fun h => ?_⟩
  have := hiff.2 h
  omega

/-! ### Substitution on texts -/

/-- The digraphs of a text hold its letters and FILL only. -/
theorem mem_of_mem_digraphs {t : List Byte} {p : Byte × Byte} (h : p ∈ digraphs t) :
    p.1 ∈ t ∧ (p.2 ∈ t ∨ p.2 = Config.fill) := by
  induction t using digraphs.induct with
  | case1 => simp at h
  | case2 a => simp_all
  | case3 a t ih =>
    rw [digraphs_same, List.mem_cons] at h
    rcases h with rfl | h
    · simp
    · exact (ih h).imp (List.mem_cons_of_mem a) (Or.imp_left (List.mem_cons_of_mem a))
  | case4 a b t hne ih =>
    rw [digraphs_distinct hne, List.mem_cons] at h
    rcases h with rfl | h
    · simp
    · obtain ⟨h₁, h₂⟩ := ih h
      exact ⟨by simp [h₁], h₂.imp_left fun h₂ => by simp [h₂]⟩

/-- Every digraph of a normalised text is a pair of letters of any CipherMatrix. -/
theorem digraphs_mem_matrix {m : Vector Byte 25} (hm : MatrixOk m) {text : List Byte} {p : Byte × Byte}
    (h : p ∈ digraphs (normalise text)) : p.1 ∈ m.toList ∧ p.2 ∈ m.toList := by
  have hletter {l : Byte} (hl : l ∈ normalise text) : l ∈ m.toList :=
    (matrixOk_perm_alphabet hm).symm.subset (normalise_subset_alphabet text hl)
  have hfill : Config.fill ∈ m.toList := (matrixOk_perm_alphabet hm).symm.subset (by decide)
  obtain ⟨h₁, h₂ | h₂⟩ := mem_of_mem_digraphs h
  · exact ⟨hletter h₁, hletter h₂⟩
  · exact ⟨hletter h₁, h₂ ▸ hfill⟩

theorem length_subEncrypt (m : Vector Byte 25) (text : List Byte) :
    (subEncrypt m text).length = 2 * (digraphs (normalise text)).length := by
  simp [subEncrypt]

/-- Substitution decrypt takes whatever substitution encrypt gives: an even number of matrix letters (R119). -/
theorem checkCipherText_subEncrypt (m : Vector Byte 25) (text : List Byte) :
    checkCipherText m (subEncrypt m text) = none := by
  refine (checkCipherText_none_iff ..).2 ⟨by rw [length_subEncrypt]; omega, fun b hb => ?_⟩
  obtain ⟨p, hp, hb⟩ := mem_concatPairs.1 hb
  obtain ⟨q, -, rfl⟩ := List.mem_map.1 hp
  obtain ⟨h₁, h₂⟩ := encPair_mem m q
  rcases hb with rfl | rfl
  · exact h₁
  · exact h₂

/-- R121 for the two functions: with the same matrix, decrypting an encrypted text gives the digraphs of the normalised text, every
inserted FILL kept. -/
theorem subDecrypt_subEncrypt {m : Vector Byte 25} (hm : MatrixOk m) (text : List Byte) :
    subDecrypt m (subEncrypt m text) = concatPairs (digraphs (normalise text)) := by
  have hpair : ∀ p ∈ digraphs (normalise text), decPair m (encPair m p) = p := fun p hp =>
    have ⟨h₁, h₂⟩ := digraphs_mem_matrix hm hp
    decPair_encPair hm.1 h₁ h₂
  rw [subDecrypt, subEncrypt, fixedPairs_concatPairs, List.map_map]
  exact congrArg concatPairs ((List.map_congr_left (g := id) hpair).trans (List.map_id _))

end Sys2Proof.Machine
end

