-- ==== Sys2Proof/Proofs/SubstitutionRoundTrip.lean ====
section
/-! PROOF. R121 on the machine: what a command that stores at DST leaves, when SUB.DEC succeeds, and the two commands in turn. -/

namespace Sys2Proof.Machine

open Sys2Proof.Safety

/-- A completion that ended without an error is the commit of the rule's writes (R215, R218). -/
theorem exec_commit {i : Instr} {s t : State} (h : exec i s = .next t) (ht : t.status.err = false) :
    ∃ c, ruleOf i s = .ok c ∧ t = commit c s := by
  rcases exec_cases h with ⟨e, -, rfl⟩ | hc
  · simp at ht
  · exact hc

/-- A commit that stores `out` at `base` is a success (R218): its bytes are there and no other byte changed. -/
theorem succeeds_commit_store (s : State) (base : Nat) (out : List Byte) (m : Option (Vector Byte 25)) (d : Option Bool)
    (r : Results) :
    Succeeds s (commit { store := some (base, out), matrix := m, utf8Drop := d, results := some r } s) base out r
      (m.getD s.matrix) (s.status.keyValid || m.isSome) (d.getD s.status.utf8Drop) :=
  ⟨rfl, fun _ hj => bufByte_stored_inside (commit_buf ..) hj,
    fun _ ha => bufByte_stored_outside (commit_buf ..) (commit_resets ..) ha⟩

/-- When SUB.DEC's checks all pass (R119, R214), its rule gives the decrypted pairs. -/
theorem subDecRule_of_ready {s : State} (hready : TextReady s) (hkey : s.status.keyValid = true)
    (htext : checkCipherText s.matrix (srcBytes s) = none)
    (hcap : (subDecrypt s.matrix (srcBytes s)).length ≤ s.params.dstCap.toNat) :
    subDecRule s = .ok
      { store := some (s.params.dstAddr.toNat, subDecrypt s.matrix (srcBytes s)), matrix := none, utf8Drop := none,
        results := some (lengthResults (subDecrypt s.matrix (srcBytes s)).length) } := by
  have hchecks : preCheck (uses .subDec) s = none := (preCheck_subText_iff s).2 hready
  rw [subDecRule, afterChecks_of_none _ hchecks]
  simp [hkey, htext, dstCommit, hcap]

/-- SUB.DEC on a source that is the encryption of `text` under the same matrix succeeds with the digraphs of the normalised text,
as many bytes as it read (R119, R121). -/
theorem exec_subDec_of_subEncrypt {s : State} {text : List Byte} (hm : MatrixOk s.matrix) (hkey : s.status.keyValid = true)
    (hready : TextReady s) (hsrc : srcBytes s = subEncrypt s.matrix text)
    (hcap : (subEncrypt s.matrix text).length ≤ s.params.dstCap.toNat) :
    ∃ t, exec .subDec s = .next t ∧
      Succeeds s t s.params.dstAddr.toNat (concatPairs (digraphs (normalise text)))
        (lengthResults (subEncrypt s.matrix text).length) s.matrix true s.status.utf8Drop := by
  have hplain : subDecrypt s.matrix (srcBytes s) = concatPairs (digraphs (normalise text)) := by
    rw [hsrc, subDecrypt_subEncrypt hm]
  have hlen : (subEncrypt s.matrix text).length = (concatPairs (digraphs (normalise text))).length := by
    rw [length_subEncrypt, length_concatPairs]
  have hrule := subDecRule_of_ready hready hkey (hsrc ▸ checkCipherText_subEncrypt ..) (by rwa [hplain, ← hlen])
  rw [hplain] at hrule
  have hdone := succeeds_commit_store s s.params.dstAddr.toNat (concatPairs (digraphs (normalise text))) none none
    (lengthResults (concatPairs (digraphs (normalise text))).length)
  rw [hkey] at hdone
  rw [hlen]
  exact ⟨_, by rw [exec_eq_complete, ruleOf, hrule, complete_ok], hdone⟩

/-- A source region laid over a stored string reads as that string. -/
theorem srcBytes_of_stored {s t : State} {out : List Byte}
    (hbuf : t.buf = memWriteBytes s.buf t.params.srcAddr.toNat out) (hlen : t.params.srcLen.toNat = out.length) :
    srcBytes t = out := by
  refine List.ext_getElem (by simp [hlen]) fun j _ hj => ?_
  exact (getElem_bufSlice ..).trans (bufByte_stored_inside hbuf hj)

/-- Settles O50: SUB.ENC's commit stores the encrypted text at DST_ADDR and its length in RESULT_LEN, so the source of SUB.DEC
is the encrypted text, and MATRIX is still the CipherMatrix. -/
theorem substitutionRoundTrip : Obligations.SubstitutionRoundTrip := by
  intro s t u dst cap hinv henc _ hterr hu hready hcap
  obtain ⟨c, hrule, rfl⟩ := exec_commit henc hterr
  obtain ⟨-, hkey, hroom, rfl⟩ := subEncRule_ok hrule
  have hm : MatrixOk s.matrix := by simpa [MatrixInv, hkey] using hinv
  have hlen : (word (subEncrypt s.matrix (srcBytes s)).length).toNat = (subEncrypt s.matrix (srcBytes s)).length :=
    Nat.mod_eq_of_lt (hroom.trans_lt s.params.dstCap.isLt)
  subst hu
  exact exec_subDec_of_subEncrypt hm (by simpa using hkey) hready (srcBytes_of_stored (s := s) rfl hlen)
    (hlen.symm.trans_le hcap)

end Sys2Proof.Machine
end

