-- ==== Sys2Proof/Proofs/RailPointer.lean ====
section
/-! PROOF. The rail pointer of R140: where RAIL and DIR stand at every position, by the phase i mod (2R - 2), so that the walk is
the closed form of R141. -/

namespace Sys2Proof.Machine

/-- R141: the rail of position `i`. -/
def railAt (R i : Nat) : Nat :=
  if R = 1 then 0 else if i % (2 * R - 2) ≤ R - 1 then i % (2 * R - 2) else 2 * R - 2 - i % (2 * R - 2)

/-- DIR as position `i` finds it, before its flip: down on the way from rail 0 to rail R - 1. -/
def dirAt (R i : Nat) : Dir :=
  if 2 ≤ R ∧ 1 ≤ i % (2 * R - 2) ∧ i % (2 * R - 2) ≤ R - 1 then .down else .up

theorem phase_lt {R : Nat} (hR : 2 ≤ R) (i : Nat) : i % (2 * R - 2) < 2 * R - 2 := Nat.mod_lt _ (by omega)

/-- The phase goes up by one and wraps at the period. -/
theorem phase_succ {R : Nat} (hR : 2 ≤ R) (i : Nat) :
    (i + 1) % (2 * R - 2) = if i % (2 * R - 2) + 1 = 2 * R - 2 then 0 else i % (2 * R - 2) + 1 := by
  have hphase := phase_lt hR i
  rw [← Nat.mod_add_mod]
  split
  · next hwrap => rw [hwrap, Nat.mod_self]
  · next hwrap => exact Nat.mod_eq_of_lt (by omega)

@[simp] theorem railAt_one (i : Nat) : railAt 1 i = 0 := rfl

theorem railAt_of_two_le {R : Nat} (hR : 2 ≤ R) (i : Nat) :
    railAt R i = if i % (2 * R - 2) ≤ R - 1 then i % (2 * R - 2) else 2 * R - 2 - i % (2 * R - 2) :=
  if_neg (by omega)

theorem railAt_lt {R : Nat} (hR : 1 ≤ R) (i : Nat) : railAt R i < R := by
  obtain rfl | h2 : R = 1 ∨ 2 ≤ R := by omega
  · simp
  · have hphase := phase_lt h2 i
    rw [railAt_of_two_le h2]
    split <;> omega

/-- No rail is reached before the position of its own number. -/
theorem railAt_le (R i : Nat) : railAt R i ≤ i := by
  have hphase : i % (2 * R - 2) ≤ i := Nat.mod_le ..
  simp only [railAt]
  split_ifs <;> omega

/-- Before the pointer turns at rail R - 1, position `i` is on rail `i`. -/
theorem railAt_eq_self {R i : Nat} (hR : 2 ≤ R) (hi : i < R) : railAt R i = i := by
  have hphase : i % (2 * R - 2) = i := Nat.mod_eq_of_lt (by omega)
  rw [railAt_of_two_le hR, hphase, if_pos (by omega)]

/-- The flip rule of R140: DIR turns at rail 0 and at rail R - 1. -/
theorem dirAt_succ {R : Nat} (hR : 2 ≤ R) (i : Nat) :
    dirAt R (i + 1) = if railAt R i = 0 ∨ railAt R i = R - 1 then (dirAt R i).flip else dirAt R i := by
  have hphase := phase_lt hR i
  simp only [dirAt, railAt_of_two_le hR, phase_succ hR]
  generalize i % (2 * R - 2) = m at hphase
  split_ifs <;> grind [Dir.flip]

/-- The move rule of R140: after the flip, RAIL goes one on along DIR. -/
theorem railAt_succ {R : Nat} (hR : 2 ≤ R) (i : Nat) :
    (dirAt R (i + 1) = .down ∧ railAt R (i + 1) = railAt R i + 1) ∨
    (dirAt R (i + 1) = .up ∧ railAt R (i + 1) = railAt R i - 1) := by
  have hphase := phase_lt hR i
  simp only [dirAt, railAt_of_two_le hR, phase_succ hR]
  generalize i % (2 * R - 2) = m at hphase
  split_ifs <;> simp <;> omega

/-- One step of the walk from where position `i` finds RAIL and DIR. -/
theorem railWalk_railAt_succ {R : Nat} (hR : 1 ≤ R) (i n : Nat) :
    railWalk R (railAt R i) (dirAt R i) (n + 1) = railAt R i :: railWalk R (railAt R (i + 1)) (dirAt R (i + 1)) n := by
  obtain rfl | h2 : R = 1 ∨ 2 ≤ R := by omega
  · rfl
  · simp only [railWalk, h2, true_and, if_true, ← dirAt_succ h2]
    rcases railAt_succ h2 i with ⟨hdir, hrail⟩ | ⟨hdir, hrail⟩ <;> rw [hdir, hrail]

theorem railWalk_railAt {R : Nat} (hR : 1 ≤ R) (i n : Nat) :
    railWalk R (railAt R i) (dirAt R i) n = (List.range' i n).map (railAt R) := by
  induction n generalizing i with
  | zero => rfl
  | succ n ih => rw [railWalk_railAt_succ hR, ih, List.range'_succ, List.map_cons]

/-- The rail sequence is the closed form of R141. -/
theorem railSeq_eq_map_railAt {R : Nat} (hR : 1 ≤ R) (n : Nat) : railSeq R n = (List.range n).map (railAt R) := by
  have hrail : railAt R 0 = 0 := by simp [railAt]
  have hdir : dirAt R 0 = .up := by simp [dirAt]
  simpa [hrail, hdir, railSeq, List.range_eq_range'] using railWalk_railAt hR 0 n

theorem length_railSeq {R : Nat} (hR : 1 ≤ R) (n : Nat) : (railSeq R n).length = n := by
  simp [railSeq_eq_map_railAt hR]

theorem getElem?_railSeq {R n i : Nat} (hR : 1 ≤ R) (hi : i < n) : (railSeq R n)[i]? = some (railAt R i) := by
  simp [railSeq_eq_map_railAt hR, hi]

theorem getElem?_railSeq_eq_some_iff {R n i r : Nat} (hR : 1 ≤ R) :
    (railSeq R n)[i]? = some r ↔ i < n ∧ railAt R i = r := by
  by_cases hi : i < n <;> simp [railSeq_eq_map_railAt hR, hi]

theorem railSeq_one (n : Nat) : railSeq 1 n = List.replicate n 0 := by
  rw [railSeq_eq_map_railAt le_rfl, show railAt 1 = fun _ => 0 from funext railAt_one, List.map_const', List.length_range]

theorem railSeq_of_le {R n : Nat} (hR : 2 ≤ R) (h : n ≤ R) : railSeq R n = List.range n := by
  have hself : ∀ i ∈ List.range n, railAt R i = id i := fun i hi =>
    railAt_eq_self hR ((List.mem_range.1 hi).trans_le h)
  rw [railSeq_eq_map_railAt (by omega), List.map_congr_left hself, List.map_id]

/-- Settles O51: the walk is the closed form, which stays below R. -/
theorem railPointerClosedForm : Obligations.RailPointerClosedForm := by
  intro R n i hR hi
  refine ⟨getElem?_railSeq hR hi, fun r hr => ?_⟩
  obtain ⟨-, rfl⟩ := (getElem?_railSeq_eq_some_iff hR).1 hr
  exact railAt_lt hR i

end Sys2Proof.Machine
end

