-- ==== Sys2Proof/Proofs/RailReadout.lean ====
section
/-! PROOF. The rail-by-rail readout of R143: which bytes a rail holds and where each of them stands, for any rail sequence; then
ZZEnc over the rail pointer's sequence, the slots as start(rail(i)) + rank(i). -/

namespace Sys2Proof.Machine

theorem onRail_cons_cons (q : Nat) (rails : List Nat) (r : Nat) (x : α) (xs : List α) :
    onRail (q :: rails) r (x :: xs) = if q = r then x :: onRail rails r xs else onRail rails r xs := by
  simp only [onRail, List.zip_cons_cons, List.filterMap_cons]
  split_ifs <;> rfl

theorem onRail_map (rails : List Nat) (r : Nat) (f : α → β) (xs : List α) :
    onRail rails r (xs.map f) = (onRail rails r xs).map f := by
  simp only [onRail, List.zip_map_right, List.filterMap_map, List.map_filterMap]
  congr 1
  funext p
  by_cases h : p.1 = r <;> simp [h]

/-- A rail's entries are those of its positions, in position order (R143). -/
theorem onRail_eq_filterMap {rails : List Nat} {xs : List α} (h : rails.length = xs.length) (r : Nat) :
    onRail rails r xs = (List.range xs.length).filterMap fun i => if rails[i]? = some r then xs[i]? else none := by
  induction rails generalizing xs with
  | nil => simp [onRail]
  | cons q rails ih =>
    cases xs with
    | nil => simp at h
    | cons x xs =>
      rw [onRail_cons_cons, ih (by simpa using h), List.length_cons, List.range_succ_eq_map, List.filterMap_cons,
        List.filterMap_map]
      by_cases hq : q = r <;> simp [hq]

theorem length_onRail {rails : List Nat} {xs : List α} (h : rails.length = xs.length) (r : Nat) :
    (onRail rails r xs).length = rails.count r := by
  induction rails generalizing xs with
  | nil => simp [onRail]
  | cons q rails ih =>
    cases xs with
    | nil => simp at h
    | cons x xs =>
      rw [onRail_cons_cons, List.count_cons, ← ih (by simpa using h)]
      by_cases hq : q = r <;> simp [hq]

/-- On its rail, position `i` comes after the earlier positions of that rail: its rank (R142). -/
theorem getElem?_onRail_rank {rails : List Nat} {xs : List α} (h : rails.length = xs.length) {i r : Nat}
    (hi : rails[i]? = some r) : (onRail rails r xs)[(rails.take i).count r]? = xs[i]? := by
  induction rails generalizing xs i with
  | nil => simp at hi
  | cons q rails ih =>
    cases xs with
    | nil => simp at h
    | cons x xs =>
      rw [onRail_cons_cons]
      cases i with
      | zero =>
        obtain rfl : q = r := by simpa using hi
        simp
      | succ i =>
        have htail := ih (xs := xs) (by simpa using h) (by simpa using hi)
        by_cases hq : q = r <;> simp [hq, htail]

theorem countP_lt_succ (rails : List Nat) (r : Nat) :
    rails.countP (· < r + 1) = rails.countP (· < r) + rails.count r := by
  induction rails with
  | nil => rfl
  | cons q rails ih =>
    simp only [List.countP_cons, List.count_cons, ih, decide_eq_true_eq, beq_iff_eq]
    split_ifs <;> omega

/-- The rails below `k` hold as many entries as positions: start(k) of R142. -/
theorem length_flatMap_onRail {rails : List Nat} {xs : List α} (h : rails.length = xs.length) (k : Nat) :
    ((List.range k).flatMap fun r => onRail rails r xs).length = rails.countP (· < k) := by
  induction k with
  | zero => simp
  | succ k ih =>
    rw [List.range_succ, List.flatMap_append, List.length_append, ih, countP_lt_succ]
    simp [length_onRail h]

/-- In a readout of the rails below `k`, position `i` stands at start(rail(i)) + rank(i) (R142, R143). -/
theorem getElem?_flatMap_onRail {rails : List Nat} {xs : List α} (h : rails.length = xs.length) {i r k : Nat}
    (hr : r < k) (hi : rails[i]? = some r) :
    ((List.range k).flatMap fun r => onRail rails r xs)[rails.countP (· < r) + (rails.take i).count r]? = xs[i]? := by
  have hrank : (rails.take i).count r < (onRail rails r xs).length := by
    by_contra hge
    have hnone := List.getElem?_eq_none (not_lt.1 hge)
    rw [getElem?_onRail_rank h hi, List.getElem?_eq_none_iff] at hnone
    have := (List.getElem?_eq_some_iff.1 hi).1
    omega
  obtain ⟨d, rfl⟩ : ∃ d, k = r + 1 + d := ⟨k - (r + 1), by omega⟩
  rw [List.range_add, List.range_succ, List.flatMap_append, List.flatMap_append, ← length_flatMap_onRail h, List.append_assoc,
    List.getElem?_append_right (Nat.le_add_right ..), Nat.add_sub_cancel_left, List.flatMap_singleton,
    List.getElem?_append_left hrank, getElem?_onRail_rank h hi]

/-- The rails from the length on hold no slot (R142), so reading only those below it is reading all R of them (log 11). -/
theorem railMajor_eq_flatMap {R : Nat} (hR : 1 ≤ R) (xs : List α) :
    railMajor R xs = (List.range R).flatMap fun r => onRail (railSeq R xs.length) r xs := by
  have hempty : ∀ r, xs.length ≤ r → onRail (railSeq R xs.length) r xs = [] := by
    intro r hr
    rw [← List.length_eq_zero_iff, length_onRail (length_railSeq hR _), railSeq_eq_map_railAt hR, List.count_eq_zero]
    intro hmem
    obtain ⟨i, hi, rfl⟩ := List.mem_map.1 hmem
    have := railAt_le R i
    have := List.mem_range.1 hi
    omega
  rcases le_total R xs.length with hle | hle
  · rw [railMajor, min_eq_left hle]
  · obtain ⟨d, rfl⟩ := Nat.exists_eq_add_of_le hle
    rw [railMajor, min_eq_right hle, List.range_add, List.flatMap_append, List.self_eq_append_right,
      List.flatMap_eq_nil_iff]
    intro r hr
    obtain ⟨e, -, rfl⟩ := List.mem_map.1 hr
    exact hempty _ (Nat.le_add_right ..)

theorem length_railMajor {R : Nat} (hR : 1 ≤ R) (xs : List α) : (railMajor R xs).length = xs.length := by
  rw [railMajor_eq_flatMap hR, length_flatMap_onRail (length_railSeq hR _)]
  conv_rhs => rw [← length_railSeq hR xs.length]
  rw [List.countP_eq_length, railSeq_eq_map_railAt hR]
  simp [railAt_lt hR]

theorem railMajor_map (R : Nat) (f : α → β) (xs : List α) : railMajor R (xs.map f) = (railMajor R xs).map f := by
  simp [railMajor, onRail_map, List.map_flatMap]

theorem getElem?_railMajor {R : Nat} (hR : 1 ≤ R) (xs : List α) {i r : Nat} (hi : (railSeq R xs.length)[i]? = some r) :
    (railMajor R xs)[(railSeq R xs.length).countP (· < r) + ((railSeq R xs.length).take i).count r]? = xs[i]? := by
  have hrail : r < R := by
    obtain ⟨-, rfl⟩ := (getElem?_railSeq_eq_some_iff hR).1 hi
    exact railAt_lt hR i
  rw [railMajor_eq_flatMap hR]
  exact getElem?_flatMap_onRail (length_railSeq hR _) hrail hi

/-- Settles O52: the readout lists each rail's positions in order, and every position stands at its slot. -/
theorem zzEncReadsTheRailsInOrder : Obligations.ZzEncReadsTheRailsInOrder := by
  intro t R hR
  refine ⟨?_, length_railMajor hR t, fun i r hi => getElem?_railMajor hR t hi⟩
  simp only [zzEncrypt, railMajor_eq_flatMap hR, onRail_eq_filterMap (length_railSeq hR t.length)]

end Sys2Proof.Machine
end

