-- ==== Sys2Proof/Proofs/ZigZagRoundTrip.lean ====
section
/-! PROOF. R148: the readout is one permutation of the positions for all strings of a length, so that ZZDec, which looks every
position up in it, undoes ZZEnc and every string is a readout. Then the identity cases of R147. -/

namespace Sys2Proof.Machine

/-- The readout of the positions holds each of them once. -/
theorem railMajor_range_perm {R : Nat} (hR : 1 ≤ R) (n : Nat) : (railMajor R (List.range n)).Perm (List.range n) := by
  have hsub : List.range n ⊆ railMajor R (List.range n) := by
    intro i hi
    have hlt : i < n := List.mem_range.1 hi
    have hslot := getElem?_railMajor hR (List.range n) (by simpa using getElem?_railSeq hR hlt)
    rw [List.getElem?_range hlt] at hslot
    exact List.mem_of_getElem? hslot
  have hle := (length_railMajor hR (List.range n)).le
  exact ((List.nodup_range.subperm hsub).perm_of_length_le hle).symm

/-- ZZEnc moves the bytes as it moves the positions (R143). -/
theorem zzEncrypt_map_range (R n : Nat) (f : Nat → Byte) :
    zzEncrypt ((List.range n).map f) R = (railMajor R (List.range n)).map f :=
  railMajor_map ..

theorem lookup_zip_map {f : Nat → Byte} {order : List Nat} {i : Nat} (h : i ∈ order) :
    (order.zip (order.map f)).lookup i = some (f i) := by
  induction order with
  | nil => simp at h
  | cons j order ih =>
    rw [List.map_cons, List.zip_cons_cons, List.lookup_cons]
    by_cases hij : i = j
    · simp [hij]
    · have hmem : i ∈ order := by simpa [hij] using h
      simp [ih hmem, beq_eq_false_iff_ne.2 hij]

theorem map_range_getD (t : List Byte) : (List.range t.length).map (t.getD · 0) = t :=
  List.ext_getElem (by simp) fun i _ hi => by simp [List.getElem?_eq_getElem hi]

theorem zzDecrypt_zzEncrypt {R : Nat} (hR : 1 ≤ R) (t : List Byte) : zzDecrypt (zzEncrypt t R) R = t := by
  have hmoved : zzEncrypt t R = (railMajor R (List.range t.length)).map (t.getD · 0) := by
    rw [← zzEncrypt_map_range, map_range_getD]
  have hlen : (zzEncrypt t R).length = t.length := length_railMajor hR t
  have hslot : ∀ i ∈ List.range t.length,
      ((railMajor R (List.range t.length)).zip (zzEncrypt t R)).lookup i = some (t.getD i 0) := by
    intro i hi
    rw [hmoved]
    exact lookup_zip_map ((railMajor_range_perm hR t.length).mem_iff.2 hi)
  calc zzDecrypt (zzEncrypt t R) R
      = (List.range t.length).filterMap fun i => some (t.getD i 0) := by
        rw [zzDecrypt, hlen]
        exact List.filterMap_congr hslot
    _ = (List.range t.length).map (t.getD · 0) := by rw [List.filterMap_eq_map']
    _ = t := map_range_getD t

/-- Every string is a readout: byte `i` of the text is the one at position `i`'s place in the order. -/
theorem exists_zzEncrypt_eq {R : Nat} (hR : 1 ≤ R) (c : List Byte) : ∃ t, zzEncrypt t R = c := by
  have hnodup := (railMajor_range_perm hR c.length).nodup_iff.2 List.nodup_range
  refine ⟨(List.range c.length).map fun i => c.getD ((railMajor R (List.range c.length)).idxOf i) 0, ?_⟩
  rw [zzEncrypt_map_range]
  refine List.ext_getElem (by simp [length_railMajor hR]) fun k _ hk => ?_
  simp [hnodup.idxOf_getElem, List.getElem?_eq_getElem hk]

theorem zzEncrypt_zzDecrypt {R : Nat} (hR : 1 ≤ R) (c : List Byte) : zzEncrypt (zzDecrypt c R) R = c := by
  obtain ⟨t, rfl⟩ := exists_zzEncrypt_eq hR c
  rw [zzDecrypt_zzEncrypt hR]

/-- Settles O53. -/
theorem zigZagRoundTrip : Obligations.ZigZagRoundTrip := fun t _ hR =>
  ⟨zzDecrypt_zzEncrypt hR t, zzEncrypt_zzDecrypt hR t⟩

/-- R147's rails. -/
theorem railAt_identity {R n i : Nat} (hR : 1 ≤ R) (h : R = 1 ∨ n ≤ R) (hi : i < n) :
    railAt R i = if R = 1 then 0 else i := by
  split_ifs with h1
  · rw [h1, railAt_one]
  · exact railAt_eq_self (by omega) (by omega)

theorem countP_lt_range {i n : Nat} (h : i ≤ n) : (List.range n).countP (· < i) = i := by
  obtain ⟨d, rfl⟩ := Nat.exists_eq_add_of_le h
  have hbelow : (List.range i).countP (· < i) = (List.range i).length := List.countP_eq_length.2 (by simp)
  rw [List.range_add, List.countP_append, hbelow, List.countP_map]
  simp

/-- In the identity cases start and rank of R142 add up to the position. -/
theorem start_add_rank_identity {R n i r : Nat} (hR : 1 ≤ R) (h : R = 1 ∨ n ≤ R) (hi : (railSeq R n)[i]? = some r) :
    (railSeq R n).countP (· < r) + ((railSeq R n).take i).count r = i := by
  have hlt : i < n := ((getElem?_railSeq_eq_some_iff hR).1 hi).1
  obtain rfl | h2 : R = 1 ∨ 2 ≤ R := by omega
  · obtain rfl : r = 0 := by simpa [railSeq_one, hlt, eq_comm] using hi
    simp [railSeq_one, hlt.le]
  · rw [railSeq_of_le h2 (by omega)] at hi ⊢
    obtain rfl : i = r := by simpa [hlt] using hi
    rw [countP_lt_range hlt.le, List.take_range, List.count_eq_zero.2 (by simp), Nat.add_zero]

theorem zzEncrypt_identity {R : Nat} (hR : 1 ≤ R) (t : List Byte) (h : R = 1 ∨ t.length ≤ R) : zzEncrypt t R = t := by
  have hlen : (zzEncrypt t R).length = t.length := length_railMajor hR t
  refine List.ext_getElem? fun i => ?_
  rcases lt_or_ge i t.length with hi | hi
  · have hrail := getElem?_railSeq hR hi
    have hslot := getElem?_railMajor hR t hrail
    rwa [start_add_rank_identity hR h hrail] at hslot
  · rw [List.getElem?_eq_none hi, List.getElem?_eq_none (hlen.trans_le hi)]

/-- Settles O54: the readout leaves every position in place, and ZZDec undoes it. -/
theorem zigZagIdentityCases : Obligations.ZigZagIdentityCases := by
  intro t R hR h
  have hid := zzEncrypt_identity hR t h
  refine ⟨fun i hi => ?_, hid, ?_⟩
  · rw [getElem?_railSeq hR hi, railAt_identity hR h hi]
  · conv_lhs => rw [← hid]
    exact zzDecrypt_zzEncrypt hR t

end Sys2Proof.Machine
end

