-- ==== Sys2Proof/Proofs/FramePacking.lean ====
section
/-! PROOF. The frame's bits and their packing (R161 to R165, R173): a number's bits and the number a bit string spells undo each
other, strings made of blocks of one length, and a packed sample bit by bit. -/

namespace Sys2Proof.Machine

/-! ### Strings made of blocks of one length -/

theorem length_flatMap_blocks {f : α → List β} {n : Nat} (hf : ∀ x, (f x).length = n) (xs : List α) :
    (xs.flatMap f).length = n * xs.length := by
  simp [List.length_flatMap, hf, Nat.mul_comm]

/-- Block `k` of a string of blocks is the block of item `k`. -/
theorem take_drop_flatMap_blocks {f : α → List β} {n : Nat} (hf : ∀ x, (f x).length = n) (xs : List α) {k : Nat}
    (hk : k < xs.length) : ((xs.flatMap f).drop (n * k)).take n = f xs[k] := by
  induction xs generalizing k with
  | nil => simp at hk
  | cons x xs ih =>
    cases k with
    | zero => simp [← hf x]
    | succ k =>
      have hblock : n * (k + 1) = (f x).length + n * k := by rw [hf]; ring
      rw [List.flatMap_cons, hblock, List.drop_length_add_append, ih (by simpa using hk), List.getElem_cons_succ]

theorem getElem?_flatMap_blocks {f : α → List β} {n : Nat} (hf : ∀ x, (f x).length = n) (xs : List α) {k b : Nat}
    (hk : k < xs.length) (hb : b < n) : (xs.flatMap f)[n * k + b]? = (f xs[k])[b]? := by
  rw [← take_drop_flatMap_blocks hf xs hk, List.getElem?_take_of_lt hb, List.getElem?_drop]

/-! ### Bits, most significant first -/

@[simp] theorem length_bitsOf (n v : Nat) : (bitsOf n v).length = n := by
  induction n with
  | zero => rfl
  | succ n ih => simp [bitsOf, ih]

theorem getElem?_bitsOf {n j : Nat} (h : j < n) (v : Nat) : (bitsOf n v)[j]? = some (v.testBit (n - 1 - j)) := by
  induction n generalizing j with
  | zero => omega
  | succ n ih =>
    cases j with
    | zero => rfl
    | succ j => rw [bitsOf, List.getElem?_cons_succ, ih (by omega), show n - 1 - j = n + 1 - 1 - (j + 1) by omega]

theorem bitsOf_congr {n v w : Nat} (h : ∀ i < n, v.testBit i = w.testBit i) : bitsOf n v = bitsOf n w := by
  induction n with
  | zero => rfl
  | succ n ih => rw [bitsOf, bitsOf, h n (by omega), ih fun i hi => h i (by omega)]

@[simp] theorem valueOf_nil : valueOf [] = 0 := rfl

theorem valueOf_cons (b : Bool) (bits : List Bool) : valueOf (b :: bits) = b.toNat * 2 ^ bits.length + valueOf bits := by
  have foldl_eq (acc : Nat) :
      bits.foldl (fun acc b => 2 * acc + b.toNat) acc = acc * 2 ^ bits.length + valueOf bits := by
    unfold valueOf
    induction bits generalizing acc with
    | nil => simp
    | cons c bits ih =>
      rw [List.foldl_cons, List.foldl_cons, ih, ih (2 * 0 + c.toNat), List.length_cons, pow_succ]
      ring
  simpa [valueOf] using foldl_eq b.toNat

theorem valueOf_lt (bits : List Bool) : valueOf bits < 2 ^ bits.length := by
  induction bits with
  | nil => simp
  | cons b bits ih =>
    rw [valueOf_cons, List.length_cons, pow_succ]
    cases b <;> simp <;> omega

/-- A number's `n` bits spell it, truncated to `n` bits. -/
theorem valueOf_bitsOf (n v : Nat) : valueOf (bitsOf n v) = v % 2 ^ n := by
  induction n with
  | zero => simp [bitsOf, Nat.mod_one]
  | succ n ih =>
    rw [bitsOf, valueOf_cons, ih, length_bitsOf, Nat.testBit_eq_decide_div_mod_eq, pow_succ, Nat.mod_mul]
    rcases Nat.mod_two_eq_zero_or_one (v / 2 ^ n) with h | h <;> simp [h, Nat.add_comm]

/-- The bits of the number a bit string spells are the string. -/
theorem bitsOf_valueOf (bits : List Bool) : bitsOf bits.length (valueOf bits) = bits := by
  induction bits with
  | nil => rfl
  | cons b bits ih =>
    have hlt := valueOf_lt bits
    rw [List.length_cons, bitsOf, valueOf_cons, Nat.mul_comm]
    congr 1
    · rw [Nat.testBit_two_pow_mul_add _ hlt]
      cases b <;> simp
    · rw [bitsOf_congr fun i hi => ?_, ih]
      rw [Nat.testBit_two_pow_mul_add _ hlt, if_pos hi]

/-- The number a bit string spells, as the sum of its bits' weights (R164). -/
theorem valueOf_map_range (d : Nat) (f : Nat → Bool) :
    valueOf ((List.range d).map f) = ((List.range d).map fun b => if f b = true then 2 ^ (d - 1 - b) else 0).sum := by
  induction d generalizing f with
  | zero => rfl
  | succ d ih =>
    have hweight (b : Nat) : d + 1 - 1 - (b + 1) = d - 1 - b := by omega
    rw [List.range_succ_eq_map, List.map_cons, valueOf_cons, List.map_map, ih, List.map_cons, List.sum_cons, List.map_map]
    simp only [Function.comp_def, List.length_map, List.length_range, Nat.succ_eq_add_one, hweight]
    cases f 0 <;> simp

/-! ### The frame (R161, R162) -/

theorem length_bitstream (m : List Byte) : (bitstream m).length = 8 * m.length :=
  length_flatMap_blocks (fun _ => length_bitsOf ..) m

theorem length_frameBits (m : List Byte) : (frameBits m).length = 32 + 8 * m.length := by
  simp [frameBits, length_bitstream]

theorem getElem?_frameBits_prefix (m : List Byte) {j : Nat} (hj : j < 32) :
    (frameBits m)[j]? = some ((8 * m.length).testBit (31 - j)) := by
  rw [frameBits, List.getElem?_append_left (by simpa using hj), getElem?_bitsOf hj]

theorem getElem?_frameBits_payload (m : List Byte) {k b : Nat} (hk : k < m.length) (hb : b < 8) :
    (frameBits m)[32 + 8 * k + b]? = some (m[k].getLsbD (7 - b)) := by
  have hpos : 32 + 8 * k + b - 32 = 8 * k + b := by omega
  rw [frameBits, List.getElem?_append_right (by simp; omega), length_bitsOf, hpos, bitstream,
    getElem?_flatMap_blocks (fun _ => length_bitsOf ..) m hk hb, getElem?_bitsOf hb]
  rfl

/-! ### Packing (R164, R165, R173) -/

theorem chunk_lt (F : List Bool) (d i : Nat) : chunk F d i < 2 ^ d := by
  simpa [chunk] using valueOf_lt ((List.range d).map fun b => F.getD (i * d + b) false)

theorem getLsbD_lowMask (d i : Nat) : (lowMask d).getLsbD i = (decide (i < 16) && decide (i < d)) := by
  rw [lowMask, BitVec.getLsbD_ofNat, Nat.testBit_two_pow_sub_one]

/-- A packed sample bit by bit: the chunk below bit `d`, the sample from there on. -/
theorem getLsbD_packSample {d c : Nat} (hc : c < 2 ^ d) (x : Half) {i : Nat} (hi : i < 16) :
    (packSample d x c).getLsbD i = if i < d then c.testBit i else x.getLsbD i := by
  rw [packSample, BitVec.getLsbD_or, BitVec.getLsbD_and, BitVec.getLsbD_not, getLsbD_lowMask, BitVec.getLsbD_ofNat]
  split
  · next h => simp [hi, h]
  · next h =>
    have hzero : c.testBit i = false :=
      Nat.testBit_eq_false_of_lt (hc.trans_le (Nat.pow_le_pow_right (by decide) (by omega)))
    simp [hi, h, hzero]

/-- Bits from `d` up of a sample are kept, its sign bit among them (R165). -/
theorem getLsbD_packSample_kept {d c k : Nat} (hc : c < 2 ^ d) (x : Half) (hk : d ≤ k) :
    (packSample d x c).getLsbD k = x.getLsbD k := by
  rcases Nat.lt_or_ge k 16 with h | h
  · rw [getLsbD_packSample hc x h, if_neg (by omega)]
  · rw [BitVec.getLsbD_of_ge _ _ h, BitVec.getLsbD_of_ge _ _ h]

@[simp] theorem length_embedSamples (m : List Byte) (d : Nat) (xs : List Half) :
    (embedSamples m d xs).length = xs.length := by
  simp [embedSamples]

theorem getElem?_embedSamples (m : List Byte) (d : Nat) (xs : List Half) {i : Nat} (hi : i < xs.length) :
    (embedSamples m d xs)[i]? = some (outSample (frameBits m) d (samplesFor (8 * m.length) d) xs[i] i) := by
  simp [embedSamples, hi]

theorem getElem?_embedSamples_below (m : List Byte) (d : Nat) (xs : List Half) {i : Nat} (hi : i < xs.length)
    (h : i < samplesFor (8 * m.length) d) :
    (embedSamples m d xs)[i]? = some (packSample d xs[i] (chunk (frameBits m) d i)) := by
  rw [getElem?_embedSamples m d xs hi, outSample, if_pos h]

theorem getElem?_embedSamples_above (m : List Byte) (d : Nat) (xs : List Half) {i : Nat} (hi : i < xs.length)
    (h : samplesFor (8 * m.length) d ≤ i) : (embedSamples m d xs)[i]? = some xs[i] := by
  rw [getElem?_embedSamples m d xs hi, outSample, if_neg (by omega)]

/-- Settles O55: the frame's bits by their place in it, and each output sample by whether it lies below K. -/
theorem embeddingPacksTheChunks : Obligations.EmbeddingPacksTheChunks := by
  refine ⟨fun m => ⟨length_frameBits m, fun _ hj => getElem?_frameBits_prefix m hj,
    fun _ _ hk hb => getElem?_frameBits_payload m hk hb⟩, fun m d i xs _ _ hi => ⟨length_embedSamples m d xs,
    fun hK => getElem?_embedSamples_above m d xs hi hK, fun hK =>
    ⟨_, getElem?_embedSamples_below m d xs hi hK, ?packed, fun k hk => getLsbD_packSample_kept (chunk_lt ..) _ hk⟩⟩⟩
  case packed =>
    rw [packSample, chunk, valueOf_map_range]
    rfl

end Sys2Proof.Machine
end

