-- ==== Sys2Proof/Proofs/FrameReadback.lean ====
section
/-! PROOF. Reading a frame back (R166, R169): the low bits of an embed's samples are the frame, zero-padded, so the stated length
and the payload are the ones embedded. -/

namespace Sys2Proof.Machine

/-! ### The stream of an embed's samples -/

theorem bitsOf_chunk (F : List Bool) (d i : Nat) :
    bitsOf d (chunk F d i) = (List.range d).map fun b => F.getD (i * d + b) false := by
  simpa [chunk] using bitsOf_valueOf ((List.range d).map fun b => F.getD (i * d + b) false)

/-- Low(s) of a packed sample is its chunk (R170). -/
theorem lowBits_packSample {d c : Nat} (hd : d ≤ 16) (hc : c < 2 ^ d) (x : Half) :
    lowBits d (packSample d x c) = bitsOf d c := by
  refine bitsOf_congr fun i hi => ?_
  rw [BitVec.testBit_toNat, BitVec.getLsbD_and, getLsbD_packSample hc x (by omega), getLsbD_lowMask, if_pos hi]
  simp [hi, hi.trans_le hd]

@[simp] theorem streamBits_nil (d : Nat) : streamBits d [] = [] := rfl

@[simp] theorem streamBits_append (d : Nat) (xs ys : List Half) :
    streamBits d (xs ++ ys) = streamBits d xs ++ streamBits d ys := List.flatMap_append

@[simp] theorem streamBits_singleton (d : Nat) (x : Half) : streamBits d [x] = lowBits d x := List.flatMap_singleton ..

/-- The stream of the first `k` packed samples is the frame's first `k * d` bits, zero-padded. -/
theorem streamBits_take_embedSamples (m : List Byte) {d k : Nat} (hd : d ≤ 16) (xs : List Half)
    (hK : k ≤ samplesFor (8 * m.length) d) (hN : k ≤ xs.length) :
    streamBits d ((embedSamples m d xs).take k) = (List.range (k * d)).map fun j => (frameBits m).getD j false := by
  induction k with
  | zero => simp
  | succ k ih =>
    have hsample := getElem?_embedSamples_below m d xs (i := k) (by omega) (by omega)
    have hlow := lowBits_packSample hd (chunk_lt (frameBits m) d k) xs[k]
    rw [List.take_add_one, hsample, Option.toList_some, streamBits_append, streamBits_singleton, hlow, bitsOf_chunk,
      ih (by omega) (by omega), Nat.succ_mul, List.range_add, List.map_append, List.map_map]
    rfl

/-- A string's head stands at the head of its zero-padded bits, when they are long enough. -/
theorem prefix_map_range_getD {A F : List Bool} (hA : A <+: F) {n : Nat} (hn : A.length ≤ n) :
    A <+: (List.range n).map fun j => F.getD j false := by
  obtain ⟨B, rfl⟩ := hA
  refine List.prefix_iff_getElem?.2 fun j hj => ?_
  simp [List.getElem?_append_left hj, hj, hj.trans_le hn]

/-- What stands at the head of the frame stands at the head of the stream of enough packed samples. -/
theorem prefix_streamBits_embedSamples {m : List Byte} {d k : Nat} (hd : d ≤ 16) {xs : List Half} {A : List Bool}
    (hA : A <+: frameBits m) (hlen : A.length ≤ k * d) (hK : k ≤ samplesFor (8 * m.length) d) (hN : k ≤ xs.length) :
    A <+: streamBits d ((embedSamples m d xs).take k) :=
  streamBits_take_embedSamples m hd xs hK hN ▸ prefix_map_range_getD hA hlen

/-! ### The stated length and the payload of a stream -/

theorem prefixLength_of_prefix {S : List Bool} {L : Nat} (h : bitsOf 32 L <+: S) (hL : L < 2 ^ 32) :
    prefixLength S = L := by
  obtain ⟨T, rfl⟩ := h
  rw [prefixLength, List.take_left' (length_bitsOf ..), valueOf_bitsOf, Nat.mod_eq_of_lt hL]

/-- A stream that starts with the frame of `m` holds the payload `m` (R169). -/
theorem payloadBytes_of_prefix {S : List Bool} {m : List Byte} (h : frameBits m <+: S) :
    payloadBytes S (8 * m.length) = m := by
  obtain ⟨T, rfl⟩ := h
  have hcount : 8 * m.length / 8 = m.length := by omega
  refine List.ext_getElem (by simp [payloadBytes, hcount]) fun k _ hk => ?_
  have hroom : 8 ≤ ((bitstream m).drop (8 * k)).length := by rw [List.length_drop, length_bitstream]; omega
  have hbyte : ((frameBits m ++ T).drop (32 + 8 * k)).take 8 = bitsOf 8 m[k].toNat := by
    have hskip : 32 + 8 * k = (bitsOf 32 (8 * m.length)).length + 8 * k := by rw [length_bitsOf]
    rw [frameBits, List.append_assoc, hskip, List.drop_length_add_append,
      List.drop_append_of_le_length (by rw [length_bitstream]; omega), List.take_append_of_le_length hroom]
    exact take_drop_flatMap_blocks (fun _ => length_bitsOf ..) m hk
  simp only [payloadBytes, List.getElem_map, List.getElem_range, hbyte, valueOf_bitsOf]
  rw [Nat.mod_eq_of_lt m[k].isLt, BitVec.ofNat_toNat, BitVec.setWidth_eq]

/-! ### The frame of a carrier -/

theorem le_ceilDiv_mul (a : Nat) {d : Nat} (hd : 1 ≤ d) : a ≤ ceilDiv a d * d := by
  have := Nat.div_add_mod (a + d - 1) d
  have := Nat.mod_lt (a + d - 1) hd
  rw [ceilDiv, Nat.mul_comm]
  omega

theorem ceilDiv_mono {a b : Nat} (h : a ≤ b) (d : Nat) : ceilDiv a d ≤ ceilDiv b d :=
  Nat.div_le_div_right (by omega)

theorem carriers_eq_take {s : State} {n N : Nat} (h : n ≤ N) : carriers s n = (carriers s N).take n := by
  simp [carriers, ← List.map_take, List.take_range, h]

/-- Where the carrier holds what an embed of `m` put out, the frame read back is the one of `m` (R170). -/
theorem extractFrame_of_embedSamples {s : State} {m : List Byte} {xs : List Half} (hlow : 1 ≤ s.params.depth.toNat)
    (hhigh : s.params.depth.toNat ≤ 8) (hlen : 8 * m.length < 2 ^ 32)
    (hK : samplesFor (8 * m.length) s.params.depth.toNat ≤ s.params.smpCount.toNat)
    (hcarrier : carriers s s.params.smpCount.toNat = embedSamples m s.params.depth.toNat xs) :
    extractFrame s = .ok
      { payload := m, bits := 8 * m.length, samples := samplesFor (8 * m.length) s.params.depth.toNat } := by
  set d := s.params.depth.toNat
  set N := s.params.smpCount.toNat
  set K := samplesFor (8 * m.length) d
  have hHK : ceilDiv 32 d ≤ K := ceilDiv_mono (by omega) d
  have hN : N = xs.length := by simpa [carriers] using congrArg List.length hcarrier
  have hstream {k : Nat} {A : List Bool} (hA : A <+: frameBits m) (hAk : A.length ≤ k * d) (hkK : k ≤ K) :
      A <+: streamBits d (carriers s k) := by
    rw [carriers_eq_take (hkK.trans hK), hcarrier]
    exact prefix_streamBits_embedSamples (by omega) hA hAk hkK (hN ▸ hkK.trans hK)
  have hprefix : prefixLength (streamBits d (carriers s (ceilDiv 32 d))) = 8 * m.length :=
    prefixLength_of_prefix (hstream (List.prefix_append ..) (by simpa using le_ceilDiv_mul 32 hlow) hHK) hlen
  have hpayload : payloadBytes (streamBits d (carriers s K)) (8 * m.length) = m :=
    payloadBytes_of_prefix (hstream (List.prefix_refl _) (by rw [length_frameBits]; exact le_ceilDiv_mul _ hlow) le_rfl)
  rcases extractFrame_cases s with ⟨h, -⟩ | ⟨-, h, -⟩ | ⟨-, -, h, -⟩ | ⟨-, -, -, h⟩
  · exact absurd (hHK.trans hK) (not_le.2 h)
  · rw [hprefix] at h
    exact absurd (Nat.mul_mod_right 8 _) h
  · rw [hprefix] at h
    exact absurd hK (not_le.2 h)
  · rw [h, hprefix, hpayload]

end Sys2Proof.Machine
end

