-- ==== Sys2Proof/Proofs/Utf8Sequences.lean ====
section
/-! PROOF. The lossy filter on well-formed UTF-8 (R167): a sequence at the head matches exactly one row of the table, so the scan
keeps it and goes on after it. -/

namespace Sys2Proof.Machine

open Sys2Proof.Safety

theorem rowMatches_append {r : List (Byte × Byte)} {p : List Byte} (h : r.length ≤ p.length) (rest : List Byte) :
    rowMatches r (p ++ rest) = rowMatches r p := by
  induction r generalizing p with
  | nil => simp [rowMatches]
  | cons x r ih =>
    cases p with
    | nil => simp at h
    | cons b p => simp [rowMatches, ih (Nat.le_of_succ_le_succ h)]

/-- The rows stand in the order of their first bytes, with no first byte in two of them (R167). -/
theorem utf8Rows_pairwise : utf8Rows.Pairwise fun r r' => ∀ x ∈ r.head?, ∀ y ∈ r'.head?, x.2 < y.1 := by
  simp [utf8Rows]

theorem utf8Rows_head : ∀ r ∈ utf8Rows, r.head?.isSome := by decide

/-- At most one row matches: of two rows, the earlier one's first bytes are all below the later one's. -/
theorem not_rowMatches_of_rowMatches {r r' : List (Byte × Byte)} {p : List Byte} (hr : r.head?.isSome)
    (hr' : r'.head?.isSome) (hlt : ∀ x ∈ r.head?, ∀ y ∈ r'.head?, x.2 < y.1) (h : rowMatches r' p = true) :
    rowMatches r p = false := by
  match r, r', p with
  | x :: r, y :: r', b :: p =>
    have hxy : x.2 < y.1 := hlt x rfl y rfl
    simp only [rowMatches, Bool.and_eq_true, decide_eq_true_eq] at h
    obtain ⟨⟨hyb, -⟩, -⟩ := h
    have hb : ¬ b ≤ x.2 := by bv_omega
    simp [rowMatches, hb]
  | _ :: _, _ :: _, [] => rfl

theorem utf8Length_of_rowMatches {r : List (Byte × Byte)} {p : List Byte} (hr : r ∈ utf8Rows)
    (h : rowMatches r p = true) : utf8Length p = r.length := by
  obtain ⟨before, after, hsplit⟩ := List.append_of_mem hr
  have hpair := utf8Rows_pairwise
  rw [hsplit, List.pairwise_append] at hpair
  obtain ⟨-, -, hbefore⟩ := hpair
  have hfirst : utf8Rows.find? (rowMatches · p) = some r := by
    refine List.find?_eq_some_iff_append.2 ⟨h, before, after, hsplit, fun r' hr' => ?_⟩
    have hmem : r' ∈ utf8Rows := hsplit ▸ List.mem_append_left _ hr'
    simp [not_rowMatches_of_rowMatches (utf8Rows_head r' hmem) (utf8Rows_head r hr)
      (hbefore r' hr' r List.mem_cons_self) h]
  rw [utf8Length, hfirst]

theorem eq_iff_between (b x : Byte) : b = x ↔ Between x x b :=
  ⟨fun h => h ▸ ⟨BitVec.le_refl _, BitVec.le_refl _⟩, fun h => BitVec.le_antisymm h.2 h.1⟩

/-- A well-formed sequence is what one row of the table matches whole (R167). -/
theorem utf8Sequence_iff_row (q : List Byte) :
    Utf8Sequence q ↔ ∃ r ∈ utf8Rows, r.length = q.length ∧ rowMatches r q = true := by
  simp only [utf8Rows, List.mem_cons, List.not_mem_nil, or_false, exists_eq_or_imp, exists_eq_left]
  match q with
  | [] => simp [Utf8Sequence]
  | [a] => simp [Utf8Sequence, rowMatches, BitVec.le_def]
  | [a, b] => simp [Utf8Sequence, rowMatches, and_assoc]
  | [a, b, c] => simp [Utf8Sequence, rowMatches, eq_iff_between, or_and_right, and_assoc]
  | [a, b, c, d] => simp [Utf8Sequence, rowMatches, eq_iff_between, or_and_right, and_assoc]
  | _ :: _ :: _ :: _ :: _ :: _ => simp [Utf8Sequence]

theorem utf8Length_of_utf8Sequence {q : List Byte} (hq : Utf8Sequence q) (rest : List Byte) :
    utf8Length (q ++ rest) = q.length := by
  obtain ⟨r, hr, hlen, hmatch⟩ := (utf8Sequence_iff_row q).1 hq
  rw [← hlen]
  exact utf8Length_of_rowMatches hr (by rwa [rowMatches_append hlen.le])

/-- The bytes still to be kept are kept, and the scan goes on after them. -/
theorem utf8Scan_append (p rest : List Byte) : utf8Scan p.length (p ++ rest) = p ++ utf8Scan 0 rest := by
  induction p with
  | nil => rfl
  | cons b p ih => rw [List.length_cons, List.cons_append, utf8Scan, ih, List.cons_append]

theorem utf8Filter_append {q : List Byte} (hq : Utf8Sequence q) (rest : List Byte) :
    utf8Filter (q ++ rest) = q ++ utf8Filter rest := by
  cases q with
  | nil => exact hq.elim
  | cons b q =>
    have hlen := utf8Length_of_utf8Sequence hq rest
    rw [List.cons_append] at hlen ⊢
    rw [utf8Filter, utf8Scan, hlen]
    exact congrArg (b :: ·) (utf8Scan_append q rest)

/-- Well-formed UTF-8 passes the filter whole. -/
theorem utf8Filter_of_wellFormed {p : List Byte} (h : WellFormedUtf8 p) : utf8Filter p = p := by
  obtain ⟨seqs, rfl, hseqs⟩ := h
  induction seqs with
  | nil => rfl
  | cons q seqs ih =>
    obtain ⟨hq, hseqs⟩ := List.forall_mem_cons.1 hseqs
    rw [List.flatten_cons, utf8Filter_append hq, ih hseqs]

end Sys2Proof.Machine
end

