-- ==== Sys2Proof/Proofs/LsbRoundTrip.lean ====
section
/-! PROOF. R170 on the machine: 16-bit samples stored at SMP_DST are the carrier read from there, so LSB.EXTRACT reads back the
frame that LSB.EMBED packed. -/

namespace Sys2Proof.Machine

open Sys2Proof.Safety

/-! ### Stored samples as a carrier -/

theorem length_sampleBytesOf (xs : List Half) : (sampleBytesOf xs).length = 2 * xs.length :=
  length_flatMap_blocks (fun _ => length_leBytes ..) xs

/-- A slice inside a stored string is that part of the string. -/
theorem bufSlice_of_stored {s t : State} {a j n : Nat} {out : List Byte} (hbuf : t.buf = memWriteBytes s.buf a out)
    (h : j + n ≤ out.length) : bufSlice t (a + j) n = (out.drop j).take n := by
  refine List.ext_getElem (by simp; omega) fun i hi _ => ?_
  have hi : i < n := by simpa using hi
  rw [getElem_bufSlice, Nat.add_assoc, bufByte_stored_inside hbuf (by omega), List.getElem_take, List.getElem_drop]

/-- Carrier(i) over stored 16-bit samples is sample i (R64, R68, R160). -/
theorem carriers_of_stored {s t : State} {xs : List Half} {n : Nat}
    (hbuf : t.buf = memWriteBytes s.buf t.params.smpSrc.toNat (sampleBytesOf xs)) (hfmt : t.params.sfmt = 0)
    (hn : xs.length = n) : carriers t n = xs := by
  refine List.ext_getElem (by simp [carriers, hn]) fun i _ hi => ?_
  have hslice : bufSlice t (t.params.smpSrc.toNat + 2 * i) 2 = leBytes 2 xs[i].toNat :=
    (bufSlice_of_stored hbuf (by rw [length_sampleBytesOf]; omega)).trans
      (take_drop_flatMap_blocks (fun _ => length_leBytes ..) xs hi)
  have hvalue : BitVec.ofNat 16 (xs[i].toNat % 256 ^ 2) = xs[i] := by
    rw [Nat.mod_eq_of_lt (show _ < 256 ^ 2 from xs[i].isLt), BitVec.ofNat_toNat, BitVec.setWidth_eq]
  rw [← hvalue, ← leValue_leBytes, ← hslice]
  simp [carriers, carrier, hfmt, memRead]

/-! ### LSB.EXTRACT -/

/-- When LSB.EXTRACT's checks all pass (R169, R214), it succeeds with the payload's text. -/
theorem exec_lsbExtract_of_ready {raw : Bool} {s : State} {x : Extracted} (hready : ExtractReady s)
    (hframe : extractFrame s = .ok x) (hcap : (payloadText raw x.payload).length ≤ s.params.dstCap.toNat) :
    ∃ t, exec (.lsbExtract raw) s = .next t ∧
      Succeeds s t s.params.dstAddr.toNat (payloadText raw x.payload)
        (frameResults (payloadText raw x.payload).length x.bits x.samples) s.matrix s.status.keyValid
        (dropped raw x.payload) := by
  have hrule : lsbExtractRule raw s = .ok
      { store := some (s.params.dstAddr.toNat, payloadText raw x.payload), matrix := none,
        utf8Drop := some (dropped raw x.payload),
        results := some (frameResults (payloadText raw x.payload).length x.bits x.samples) } := by
    rw [lsbExtractRule, afterChecks_of_none _ ((preCheck_lsbExtract_iff raw s).2 hready)]
    simp [hframe, dstCommit, hcap]
  have hdone := succeeds_commit_store s s.params.dstAddr.toNat (payloadText raw x.payload) none
    (some (dropped raw x.payload)) (frameResults (payloadText raw x.payload).length x.bits x.samples)
  simp only [Option.isSome_none, Bool.or_false] at hdone
  exact ⟨_, by rw [exec_eq_complete, ruleOf, hrule, complete_ok], hdone⟩

/-- UTF8_DROP is set exactly when the text lost bytes of the payload, which RAW = 1 keeps whole (R29, R169). -/
theorem dropped_eq (raw : Bool) (p : List Byte) :
    dropped raw p = decide (raw = false ∧ (payloadText raw p).length < p.length) := by
  cases raw <;> simp [dropped, payloadText]

theorem payloadText_of_wellFormed {p : List Byte} (h : WellFormedUtf8 p) (raw : Bool) : payloadText raw p = p := by
  rw [payloadText, utf8Filter_of_wellFormed h, ite_self]

/-- A message in a legal source region has fewer than 2^32 bits (R7, R71). -/
theorem srcBytes_bits_lt {s : State} (h : SrcInRange s) : 8 * (srcBytes s).length < 2 ^ 32 := by
  have := bufBytes_le s
  rw [length_srcBytes]
  rcases h with h | h <;> omega

/-- LSB.EXTRACT over stored samples of an embed of `m`, with the embed's depth and sample count, succeeds with `m`'s text and
`m`'s frame in the result registers (R169, R170). -/
theorem exec_lsbExtract_of_embedSamples {raw : Bool} {s u : State} {m : List Byte} {xs : List Half} (hready : ExtractReady u)
    (hbuf : u.buf = memWriteBytes s.buf u.params.smpSrc.toNat (sampleBytesOf (embedSamples m u.params.depth.toNat xs)))
    (hfmt : u.params.sfmt = 0) (hxs : xs.length = u.params.smpCount.toNat) (hlen : 8 * m.length < 2 ^ 32)
    (hK : samplesFor (8 * m.length) u.params.depth.toNat ≤ u.params.smpCount.toNat)
    (hcap : (payloadText raw m).length ≤ u.params.dstCap.toNat) :
    ∃ v, exec (.lsbExtract raw) u = .next v ∧
      Succeeds u v u.params.dstAddr.toNat (payloadText raw m)
        (frameResults (payloadText raw m).length (8 * m.length) (samplesFor (8 * m.length) u.params.depth.toNat))
        u.matrix u.status.keyValid (dropped raw m) := by
  have ⟨⟨_, hlow, hhigh⟩, _⟩ := hready
  have hcarrier := carriers_of_stored hbuf hfmt ((length_embedSamples ..).trans hxs)
  exact exec_lsbExtract_of_ready hready (extractFrame_of_embedSamples hlow hhigh hlen hK hcarrier) hcap

/-- Settles O56: the embed leaves its samples where the extract's carrier stands, so the frame read back is the message's,
and the extract stores its text. -/
theorem lsbRoundTrip : Obligations.LsbRoundTrip := by
  intro raw s t u dst cap q hembed _ hterr hu hdst hapart hq hcap
  obtain ⟨c, hrule, rfl⟩ := exec_commit hembed hterr
  obtain ⟨⟨⟨-, hlow, hhigh⟩, -, hsmpo, hsrc, -, -⟩, hcommit⟩ := lsbEmbedRule_ok hrule
  obtain ⟨hK, rfl⟩ := embedCommit_ok hcommit
  obtain rfl : q = payloadText raw (srcBytes s) := hq
  have hready : ExtractReady u := by
    subst hu
    exact ⟨⟨Nat.zero_le 1, hlow, hhigh⟩, hsmpo, hdst, hapart⟩
  subst hu
  obtain ⟨v, hexec, hdone⟩ := exec_lsbExtract_of_embedSamples (raw := raw) (s := s) hready rfl rfl
    (by simp [carriers]) (srcBytes_bits_lt hsrc) hK hcap
  rw [dropped_eq] at hdone
  exact ⟨v, hexec, hdone, fun hwf => payloadText_of_wellFormed hwf raw⟩

end Sys2Proof.Machine
end

