-- ==== Sys2Proof/Proofs/PipeCipher.lean ====
section
/-! PROOF. The ciphertext of PIPE.ENC (R191) as a byte string: it is a rearrangement of matrix letters, so it is ASCII and passes the
UTF-8 filter whole, it fits a 32-bit frame length, and the two decrypts undo the two encrypts. -/

namespace Sys2Proof.Machine

open Sys2Proof.Safety

/-- The transposition only moves bytes (R143). -/
theorem zzEncrypt_perm {R : Nat} (hR : 1 ≤ R) (t : List Byte) : (zzEncrypt t R).Perm t := by
  have hmoved := (railMajor_range_perm hR t.length).map (t.getD · 0)
  rwa [← zzEncrypt_map_range, map_range_getD] at hmoved

/-- ASCII is well-formed UTF-8, each byte a sequence of its own (R167). -/
theorem wellFormedUtf8_of_ascii {p : List Byte} (h : ∀ b ∈ p, b ≤ 0x7F#8) : WellFormedUtf8 p := by
  refine ⟨p.map fun b => [b], by simp [← List.flatMap_def], fun q hq => ?_⟩
  obtain ⟨b, hb, rfl⟩ := List.mem_map.1 hq
  exact h b hb

/-- Substitution encrypt gives letters of its matrix only. -/
theorem subEncrypt_subset_matrix (m : Vector Byte 25) (text : List Byte) : subEncrypt m text ⊆ m.toList := by
  obtain ⟨-, hletters⟩ := (checkCipherText_none_iff ..).1 (checkCipherText_subEncrypt m text)
  exact hletters

theorem length_pipeCipher {R : Nat} (hR : 1 ≤ R) (m : Vector Byte 25) (text : List Byte) :
    (pipeCipher m text R).length = 2 * (digraphs (normalise text)).length :=
  (zzEncrypt_perm hR _).length_eq.trans (length_subEncrypt m text)

/-- The pipeline's ciphertext is uppercase ASCII, hence well-formed UTF-8 (R196). -/
theorem wellFormedUtf8_pipeCipher {R : Nat} (hR : 1 ≤ R) {m : Vector Byte 25} (hm : MatrixOk m) (text : List Byte) :
    WellFormedUtf8 (pipeCipher m text R) := by
  refine wellFormedUtf8_of_ascii fun b hb => ?_
  obtain ⟨-, hletters⟩ := hm
  obtain ⟨-, hle, -⟩ := hletters b (subEncrypt_subset_matrix m text ((zzEncrypt_perm hR _).subset hb))
  bv_omega

/-- Normalising drops bytes and the digraphs at most double what is left, so the ciphertext of a message in a legal source region
has fewer than 2^32 bits (R7, R71, R120). -/
theorem pipeCipher_bits_lt {s : State} (h : SrcInRange s) {R : Nat} (hR : 1 ≤ R) (m : Vector Byte 25) :
    8 * (pipeCipher m (srcBytes s) R).length < 2 ^ 32 := by
  have hdigraphs := length_digraphs_le (normalise (srcBytes s))
  have hnormal : (normalise (srcBytes s)).length ≤ (srcBytes s).length := List.length_filterMap_le ..
  have hbuf := bufBytes_le s
  rw [length_srcBytes] at hnormal
  rw [length_pipeCipher hR]
  rcases h with h | h <;> omega

/-- Transposition decrypt of the pipeline's ciphertext is the text that substitution gave (R148). -/
theorem zzDecrypt_pipeCipher {R : Nat} (hR : 1 ≤ R) (m : Vector Byte 25) (text : List Byte) :
    zzDecrypt (pipeCipher m text R) R = subEncrypt m text :=
  zzDecrypt_zzEncrypt hR _

end Sys2Proof.Machine
end

