-- ==== Sys2Proof/Proofs/PipelineRoundTrip.lean ====
section
/-! PROOF. R196 on the machine: the samples that PIPE.ENC stores leave the key as it was and hold the ciphertext's frame, so that
PIPE.DEC builds the same matrix, reads the ciphertext back and undoes both encrypts. -/

namespace Sys2Proof.Machine

open Sys2Proof.Safety

/-! ### The key -/

/-- A key region apart from a stored string reads as before (R72). -/
theorem keyBytes_of_stored_apart {s t : State} {a : Nat} {out : List Byte} (hbuf : t.buf = memWriteBytes s.buf a out)
    (hresets : t.resets = s.resets) (haddr : t.params.keyAddr = s.params.keyAddr)
    (hlen : t.params.keyLen = s.params.keyLen)
    (hapart : Apart s.params.keyAddr.toNat s.params.keyLen.toNat a out.length) : keyBytes t = keyBytes s := by
  rw [keyBytes, keyBytes, haddr, hlen]
  rcases hapart with h | h | h
  · rw [h]
    rfl
  · have hnil : out = [] := List.length_eq_zero_iff.1 h
    exact bufSlice_congr fun i _ => bufByte_congr (by rw [hbuf, hnil, memWriteBytes_nil]) hresets _
  · exact bufSlice_congr fun i hi => bufByte_stored_outside hbuf hresets (by omega)

/-- A key with a letter passes the key checks (R117, R214 step 8). -/
theorem withKey_of_hasLetter {s : State} (h : KeyHasLetter s) (body : List Byte → Except Raised Commit) :
    withKey s body = body (normalise (keyBytes s)) := by
  have hlen : s.params.keyLen ≠ 0 := fun h0 => h <| by
    have hnil : keyBytes s = [] := List.length_eq_zero_iff.1 (by rw [length_keyBytes, h0]; rfl)
    rw [hnil]
    rfl
  rw [withKey, if_neg hlen, if_neg h]

theorem keyMatrix_ok (s : State) : MatrixOk (keyMatrix s) := buildMatrix_ok (normalise_subset_alphabet _)

/-! ### PIPE.DEC -/

/-- When PIPE.DEC's checks all pass (R192, R214), it succeeds with the substitution decrypt of the transposed payload, and commits
the key's matrix. -/
theorem exec_pipeDec_of_ready {raw : Bool} {s : State} {x : Extracted} {m : Vector Byte 25} {text out : List Byte}
    (hready : PipeDecReady s) (hm : keyMatrix s = m) (hframe : extractFrame s = .ok x)
    (htext : zzDecrypt (payloadText raw x.payload) s.params.rails.toNat = text) (hletters : checkCipherText m text = none)
    (hout : subDecrypt m text = out) (hcap : out.length ≤ s.params.dstCap.toNat) :
    ∃ t, exec (.pipeDec raw) s = .next t ∧
      Succeeds s t s.params.dstAddr.toNat out (frameResults out.length x.bits x.samples) m true (dropped raw x.payload) := by
  obtain ⟨hextract, hrails, hkey, hapart, hletter⟩ := hready
  have hm : buildMatrix (normalise (keyBytes s)) = m := hm
  have hrule : pipeDecRule raw s = .ok
      { store := some (s.params.dstAddr.toNat, out), matrix := some m, utf8Drop := some (dropped raw x.payload),
        results := some (frameResults out.length x.bits x.samples) } := by
    rw [pipeDecRule, afterChecks_of_none _ ((preCheck_pipeDec_iff raw s).2 ⟨hextract, hrails, hkey, hapart⟩),
      withKey_of_hasLetter hletter]
    simp [hframe, htext, hm, hletters, hout, dstCommit, hcap]
  have hdone := succeeds_commit_store s s.params.dstAddr.toNat out (some m) (some (dropped raw x.payload))
    (frameResults out.length x.bits x.samples)
  simp only [Option.isSome_some, Bool.or_true] at hdone
  exact ⟨_, by rw [exec_eq_complete, ruleOf, hrule, complete_ok], hdone⟩

/-- Well-formed UTF-8 passes with no byte dropped (R29). -/
theorem dropped_of_wellFormed {p : List Byte} (h : WellFormedUtf8 p) (raw : Bool) : dropped raw p = false := by
  simp [dropped_eq, payloadText_of_wellFormed h]

/-- PIPE.DEC on a carrier whose frame holds the ciphertext of `message` under the key's matrix succeeds with the digraphs of the
normalised message and no byte dropped (R192, R196). -/
theorem exec_pipeDec_of_pipeCipher {raw : Bool} {s : State} {m : Vector Byte 25} {message : List Byte} {L K : Nat}
    (hready : PipeDecReady s) (hm : keyMatrix s = m)
    (hframe : extractFrame s = .ok { payload := pipeCipher m message s.params.rails.toNat, bits := L, samples := K })
    (hcap : (pipeCipher m message s.params.rails.toNat).length ≤ s.params.dstCap.toNat) :
    ∃ t, exec (.pipeDec raw) s = .next t ∧
      Succeeds s t s.params.dstAddr.toNat (concatPairs (digraphs (normalise message)))
        (frameResults (pipeCipher m message s.params.rails.toNat).length L K) m true false := by
  have ⟨_, hrails, _⟩ := hready
  have hR : 1 ≤ s.params.rails.toNat := Nat.pos_of_ne_zero (BitVec.toNat_ne.1 hrails)
  have hok : MatrixOk m := hm ▸ keyMatrix_ok s
  have hwf := wellFormedUtf8_pipeCipher hR hok message
  have htext : zzDecrypt (payloadText raw (pipeCipher m message s.params.rails.toNat)) s.params.rails.toNat =
      subEncrypt m message := by
    rw [payloadText_of_wellFormed hwf, zzDecrypt_pipeCipher hR]
  have hlen : (pipeCipher m message s.params.rails.toNat).length =
      (concatPairs (digraphs (normalise message))).length := by
    rw [length_pipeCipher hR, length_concatPairs]
  rw [hlen] at hcap ⊢
  rw [← dropped_of_wellFormed hwf raw]
  exact exec_pipeDec_of_ready hready hm hframe htext (checkCipherText_subEncrypt ..) (subDecrypt_subEncrypt hok message) hcap

/-! ### PIPE.ENC, then PIPE.DEC -/

/-- Settles O60: PIPE.ENC's samples stand apart from the key, so PIPE.DEC builds the committed matrix, and its carrier is those
samples, so the frame it reads is the ciphertext's. -/
theorem pipelineRoundTrip : Obligations.PipelineRoundTrip := by
  intro raw s t u dst cap henc _ hterr hu hdst hsmpoApart hkeyApart hcap
  obtain ⟨c, hrule, rfl⟩ := exec_commit henc hterr
  obtain ⟨⟨⟨⟨-, hlow, hhigh⟩, -, hsmpo, hsrc, -, -⟩, hrails, hkey, hkeySmpo, hletter⟩, hcommit⟩ := pipeEncRule_ok hrule
  obtain ⟨hK, rfl⟩ := embedCommit_ok hcommit
  have hbits := pipeCipher_bits_lt hsrc (Nat.pos_of_ne_zero (BitVec.toNat_ne.1 hrails)) (keyMatrix s)
  have hsamples : (carriers s s.params.smpCount.toNat).length = s.params.smpCount.toNat := by simp [carriers]
  have hkeyBytes : keyBytes u = keyBytes s := by
    subst hu
    exact keyBytes_of_stored_apart (s := s) rfl rfl rfl rfl
      (by rwa [length_sampleBytesOf, length_embedSamples, hsamples])
  have hmatrix : keyMatrix u = keyMatrix s := congrArg (buildMatrix <| normalise ·) hkeyBytes
  have hready : PipeDecReady u := by
    rw [PipeDecReady, KeyHasLetter, hkeyBytes]
    subst hu
    exact ⟨⟨⟨Nat.zero_le 1, hlow, hhigh⟩, hsmpo, hdst, hsmpoApart⟩, hrails, hkey, hkeyApart, hletter⟩
  have hlen : (word (pipeCipher (keyMatrix s) (srcBytes s) s.params.rails.toNat).length).toNat =
      (pipeCipher (keyMatrix s) (srcBytes s) s.params.rails.toNat).length := Nat.mod_eq_of_lt (by omega)
  subst hu
  refine exec_pipeDec_of_pipeCipher hready hmatrix ?_ (hlen.symm.trans_le hcap)
  exact extractFrame_of_embedSamples (xs := carriers s s.params.smpCount.toNat) hlow hhigh hbits hK
    (carriers_of_stored (s := s) rfl rfl ((length_embedSamples ..).trans hsamples))

end Sys2Proof.Machine
end

