-- ==== Sys2Proof/Proofs/Nop.lean ====
section
/-! PROOF. NOP (R190): its commit writes nothing, so that only DONE and the phase change. -/

namespace Sys2Proof.Machine

/-- The commit of no writes sets DONE and ends the run (R218). -/
theorem commit_nothing (s : State) :
    commit { store := none, matrix := none, utf8Drop := none, results := none } s =
      { s with phase := .idle, status := { s.status with done := true } } := by
  simp [commit, commitFlags, doneFlags]

theorem exec_nop (s : State) :
    exec .nop s = .next { s with phase := .idle, status := { s.status with done := true } } := by
  rw [exec_eq_complete, ruleOf, nopRule, complete_ok, commit_nothing]

/-- Settles O29: NOP's exact next state, whose DONE asserts the enabled interrupt (R219), and the one word that decodes to it. -/
theorem nopOnlySetsDone : Obligations.NopOnlySetsDone := by
  refine ⟨exec_nop, fun s t hexec henabled => ?_, fun w => decode_eq_ok_iff w .nop⟩
  rw [exec_nop] at hexec
  cases hexec
  simp [irq, henabled]

end Sys2Proof.Machine
end

