-- ==== Sys2Proof/Proofs/ErrorCompletion.lean ====
section
/-! PROOF. The error completion (R215): the error codes of each command's rule, from those of the shared parts of the rules, and the
report it leaves. -/

namespace Sys2Proof.Machine

open Sys2Proof.Safety

/-- Every error that `r` can be has one of `codes`. -/
def RaisesOnly (codes : List ErrorCode) (r : Except Raised α) : Prop := ∀ e, r = .error e → e.code ∈ codes

@[simp] theorem raisesOnly_ok (codes : List ErrorCode) (x : α) : RaisesOnly codes (.ok x) := by
  simp [RaisesOnly]

@[simp] theorem raisesOnly_error_iff (codes : List ErrorCode) (e : Raised) :
    RaisesOnly codes (.error e : Except Raised α) ↔ e.code ∈ codes := by
  simp [RaisesOnly]

/-- The shared checks raise only errors of the command whose uses they check (R210, R214). -/
theorem preCheck_raisable {i : Instr} {s : State} {e : Raised} (h : preCheck (uses i) s = some e) :
    e.code ∈ raisable i := by
  rcases preCheck_code h with ⟨hcfg, hcode | hcode⟩ | ⟨hrails, hcode⟩ | ⟨hsmp, hcode⟩ | ⟨hregions, hcode⟩ |
      ⟨⟨p, hp, -⟩, hcode⟩ <;> rw [hcode]
  case inl.inl | inl.inr => cases i <;> simp [uses, raisable] at hcfg ⊢
  case inr.inl => cases i <;> simp [uses, raisable] at hrails ⊢
  case inr.inr.inl => cases i <;> simp [uses, raisable] at hsmp ⊢
  case inr.inr.inr.inl => cases i <;> simp [uses, raisable] at hregions ⊢
  case inr.inr.inr.inr => cases i <;> simp [uses, raisable, orderedPairs] at hp ⊢

theorem raisesOnly_afterChecks {i : Instr} {s : State} {body : Unit → Except Raised Commit}
    (hbody : RaisesOnly (raisable i) (body ())) : RaisesOnly (raisable i) (afterChecks i s body) := by
  intro e he
  rcases afterChecks_error he with hpre | ⟨-, he⟩
  · exact preCheck_raisable hpre
  · exact hbody e he

theorem raisesOnly_withKey {codes : List ErrorCode} (hcode : .invalidKey ∈ codes) {s : State}
    {body : List Byte → Except Raised Commit} (hbody : ∀ k, RaisesOnly codes (body k)) :
    RaisesOnly codes (withKey s body) := by
  rcases withKey_cases s body with ⟨-, h⟩ | ⟨-, -, h⟩ | ⟨-, -, h⟩ <;> rw [h]
  · simpa
  · simpa
  · exact hbody _

theorem raisesOnly_dstCommit {codes : List ErrorCode} (hcode : .dstCap ∈ codes) {s : State} {out : List Byte}
    {m : Option (Vector Byte 25)} {d : Option Bool} {r : Results} : RaisesOnly codes (dstCommit s out m d r) := by
  rcases dstCommit_cases s out m d r with ⟨-, h⟩ | ⟨-, h⟩ <;> rw [h]
  · simpa
  · simp

theorem raisesOnly_embedCommit {codes : List ErrorCode} (hcode : .capacity ∈ codes) {s : State} {message : List Byte}
    {m : Option (Vector Byte 25)} : RaisesOnly codes (embedCommit s message m) := by
  rcases embedCommit_cases s message m with ⟨-, h⟩ | ⟨-, h⟩ <;> rw [h]
  · simpa
  · simp

/-- The errors of reading a frame back (R169). -/
theorem extractFrame_code {s : State} {e : Raised} (h : extractFrame s = .error e) :
    e.code = .capacity ∨ e.code = .frame := by
  rcases extractFrame_cases s with ⟨-, hx⟩ | ⟨-, -, hx⟩ | ⟨-, -, -, hx⟩ | ⟨-, -, -, hx⟩ <;> rw [hx] at h <;> cases h
  · exact .inl rfl
  · exact .inr rfl
  · exact .inl rfl

/-- The errors of substitution decrypt's input checks (R119). -/
theorem checkCipherText_code {m : Vector Byte 25} {c : List Byte} {e : Raised} (h : checkCipherText m c = some e) :
    e.code = .inputOdd ∨ e.code = .inputChar := by
  rcases checkCipherText_some h with ⟨-, rfl⟩ | ⟨-, _, -, rfl⟩
  · exact .inl rfl
  · exact .inr rfl

/-- The errors of every command are those of R210's table. -/
theorem ruleOf_raisesOnly (i : Instr) (s : State) : RaisesOnly (raisable i) (ruleOf i s) := by
  cases i with
  | nop => exact raisesOnly_ok _ _
  | subKey =>
    rw [ruleOf, subKeyRule]
    exact raisesOnly_afterChecks (raisesOnly_withKey (by simp [raisable]) fun _ => raisesOnly_ok _ _)
  | subEnc =>
    rw [ruleOf, subEncRule]
    refine raisesOnly_afterChecks ?_
    split
    · simp [raisable]
    · exact raisesOnly_dstCommit (by simp [raisable])
  | subDec =>
    rw [ruleOf, subDecRule]
    refine raisesOnly_afterChecks ?_
    split
    · simp [raisable]
    split
    · next e he =>
      rcases checkCipherText_code he with h | h <;> simp [raisable, h]
    · exact raisesOnly_dstCommit (by simp [raisable])
  | zzEnc =>
    rw [ruleOf, zzEncRule]
    exact raisesOnly_afterChecks (raisesOnly_dstCommit (by simp [raisable]))
  | zzDec =>
    rw [ruleOf, zzDecRule]
    exact raisesOnly_afterChecks (raisesOnly_dstCommit (by simp [raisable]))
  | lsbEmbed =>
    rw [ruleOf, lsbEmbedRule]
    exact raisesOnly_afterChecks (raisesOnly_embedCommit (by simp [raisable]))
  | lsbExtract raw =>
    rw [ruleOf, lsbExtractRule]
    refine raisesOnly_afterChecks ?_
    split
    · next e he =>
      rcases extractFrame_code he with h | h <;> simp [raisable, h]
    · exact raisesOnly_dstCommit (by simp [raisable])
  | pipeEnc =>
    rw [ruleOf, pipeEncRule]
    exact raisesOnly_afterChecks
      (raisesOnly_withKey (by simp [raisable]) fun _ => raisesOnly_embedCommit (by simp [raisable]))
  | pipeDec raw =>
    rw [ruleOf, pipeDecRule]
    refine raisesOnly_afterChecks (raisesOnly_withKey (by simp [raisable]) fun k => ?_)
    split
    · next e he =>
      rcases extractFrame_code he with h | h <;> simp [raisable, h]
    dsimp only
    split
    · next e he =>
      rcases checkCipherText_code he with h | h <;> simp [raisable, h]
    · exact raisesOnly_dstCommit (by simp [raisable])

/-- No command raises the code that means no error (R210). -/
theorem none_notMem_raisable (i : Instr) : ErrorCode.none ∉ raisable i := by
  cases i <;> simp [raisable]

/-- The error completion leaves exactly its report (R215). -/
theorem fails_raise (e : Raised) (s : State) : Fails s (raise e s) e.code e.info.toNat := by
  rw [Fails, BitVec.ofNat_toNat, BitVec.setWidth_eq]
  rfl

/-- A completion that set ERR is the error completion of the rule's error: a commit leaves ERR as it was (R215, R218). -/
theorem exec_raise {i : Instr} {s t : State} (h : exec i s = .next t) (hs : s.status.err = false)
    (ht : t.status.err = true) : ∃ e, ruleOf i s = .error e ∧ t = raise e s := by
  rcases exec_cases h with he | ⟨c, -, rfl⟩
  · exact he
  · simp [hs] at ht

/-- Settles O23: the completion is an error completion, with a code that the command can raise. -/
theorem errorCompletionChangesOnlyTheReport : Obligations.ErrorCompletionChangesOnlyTheReport := by
  intro i s t hexec hs ht
  obtain ⟨e, he, rfl⟩ := exec_raise hexec hs ht
  have hcode : e.code ∈ raisable i := ruleOf_raisesOnly i s e he
  exact ⟨e.code, e.info.toNat, ne_of_mem_of_not_mem hcode (none_notMem_raisable i), fails_raise e s⟩

end Sys2Proof.Machine
end

