-- ==== Sys2Proof/Proofs/BusyCommandWrite.lean ====
section
/-! PROOF. A write of CMD while BUSY (R217): what a command reads of the state does not include HOSTCOLL, so the refused write
leaves the running command's completion as it was. -/

namespace Sys2Proof.Machine

/-- The inputs of the commands' rules are the parameters, MATRIX, KEY_VALID and BUF (R91). -/
theorem ruleOf_congr {s t : State} (hparams : t.params = s.params) (hmatrix : t.matrix = s.matrix)
    (hkey : t.status.keyValid = s.status.keyValid) (hlog : t.bufLog = s.bufLog) (hbuf : t.buf = s.buf)
    (hresets : t.resets = s.resets) (i : Instr) : ruleOf i t = ruleOf i s := by
  obtain ⟨_, _, ⟨_, _, _, _, _, _⟩, _, _, _, _, _, _, _, _, _, _⟩ := s
  obtain ⟨_, _, ⟨_, _, _, _, _, _⟩, _, _, _, _, _, _, _, _, _, _⟩ := t
  cases hparams; cases hmatrix; cases hkey; cases hlog; cases hbuf; cases hresets
  cases i <;> rfl

/-- A completion, in error or not, keeps HOSTCOLL and does not look at it (R30, R215, R218). -/
theorem complete_collide (r : Except Raised Commit) (s : State) : complete r (collide s) = collide (complete r s) := by
  cases r <;> rfl

theorem exec_collide {i : Instr} {s u : State} (h : exec i s = .next u) : exec i (collide s) = .next (collide u) := by
  rw [exec_eq_complete] at h ⊢
  cases h
  rw [ruleOf_congr (collide_params s) (collide_matrix s) (by simp) (collide_bufLog s) (collide_buf s) (collide_resets s),
    complete_collide]

/-- The running command completes alike when a host access has collided with it, HOSTCOLL apart (R217). -/
theorem engineStep_collide {s u : State} (h : engineStep s = .next u) : engineStep (collide s) = .next (collide u) := by
  rcases engineStep_cases h with ⟨i, hi, hexec⟩ | ⟨e, he, rfl⟩
  · simp only [engineStep, fetch, collide_cmd, hi]
    exact exec_collide hexec
  · simp only [engineStep, fetch, collide_cmd, he]
    rfl

/-- Settles O15: the refused write only collides, and a collision does not disturb the running command. -/
theorem busyDiscardsCommandWrites : Obligations.BusyDiscardsCommandWrites := by
  intro s v hbusy
  have hwrite : busAccess s (.write 0x004 .w32 v) = .ok (collide s, .written) := by
    rw [← unlessBusy_of_busy hbusy (accept v s)]
    exact busAccess_write_reg s v .cmd
  exact ⟨collide s, hwrite, rfl, rfl, rfl, fun _ hstep => engineStep_collide hstep⟩

end Sys2Proof.Machine
end

