-- ==== Sys2Proof/Proofs/Interrupt.lean ====
section
/-! PROOF. The interrupt line (R219), the enables it is gated by (R32), and its acknowledgement by writes of 1 to STATUS (R220, R225). -/

namespace Sys2Proof.Machine

/-- The interrupt line (R219). -/
theorem irq_eq_true_iff (s : State) :
    irq s = true ↔ (s.status.done = true ∧ s.irqEn.doneIe = true) ∨ (s.status.err = true ∧ s.irqEn.errIe = true) := by
  simp [irq]

/-- IRQ_EN reads back its two enables; its reserved bits read 0 (R32). -/
theorem irqEnWord_irqEnOf (v : Word) : irqEnWord (irqEnOf v) = v &&& 3 := by
  refine BitVec.eq_of_getLsbD_eq fun i hi => ?_
  have hmask : (3 : Word).getLsbD i = decide (i < 2) := by interval_cases i <;> rfl
  rw [BitVec.getLsbD_and, hmask, irqEnWord, BitVec.getLsbD_append, BitVec.getLsbD_append]
  match i with
  | 0 | 1 => simp [irqEnOf]
  | i + 2 => simp

/-- A write of 1 to W1C bits that are already 0 has no effect (R220). -/
theorem clearW1C_of_clear {v : Word} {f : Status} (hdone : f.done = true → v.getLsbD 1 = false)
    (herr : f.err = true → v.getLsbD 2 = false) (hdrop : f.utf8Drop = true → v.getLsbD 4 = false)
    (hcoll : f.hostColl = true → v.getLsbD 5 = false) : clearW1C v f = f := by
  have keep {b c : Bool} (h : b = true → c = false) : (b && !c) = b := by
    cases b
    · rfl
    · rw [h rfl]; rfl
  rw [clearW1C, keep hdone, keep herr, keep hdrop, keep hcoll]

theorem acknowledge_done (s : State) : (acknowledge s).status.done = false := by
  simp

theorem acknowledge_err (s : State) : (acknowledge s).status.err = false := by
  simp

/-- Acknowledgement deasserts the interrupt line, whatever is enabled (R220). -/
theorem irq_acknowledge (s : State) : irq (acknowledge s) = false := by
  simp [irq]

/-- Settles O18: the line, the write of IRQ_EN, and three writes of STATUS: of 0x06, of DONE alone, and of bits that are 0. -/
theorem acknowledgeDeassertsTheInterrupt : Obligations.AcknowledgeDeassertsTheInterrupt := by
  intro s
  refine ⟨irq_eq_true_iff s, fun v => ⟨_, busAccess_write_reg s v .irqEn, rfl, rfl, irqEnWord_irqEnOf v⟩,
    busAccess_write_reg s 0x06 .status, acknowledge_done s, acknowledge_err s, irq_acknowledge s, rfl, rfl,
    fun herr hie => ⟨_, busAccess_write_reg s 0x02 .status, ?_, ?_⟩, fun v hdone herr hdrop hcoll => ?_⟩
  · simp [writeReg]
  · exact (irq_eq_true_iff _).2 (.inr ⟨by simpa [writeReg] using herr, hie⟩)
  · have hsame : writeReg s v .status = s := by rw [writeReg, clearW1C_of_clear hdone herr hdrop hcoll]
    exact (busAccess_write_reg s v .status).trans (by rw [hsame])

end Sys2Proof.Machine
end

