-- ==== Sys2Proof/Proofs/Reset.lean ====
section
/-! PROOF. Reset (R240, R241): what each register reads in the reset state, that a platform reset leaves the same values, and that
an engine it leaves IDLE with an empty BUF completes nothing and holds only draws. -/

namespace Sys2Proof.Machine

/-- The readback words of 25 cells that hold 0x00 are 0 (R36, R241). -/
theorem matrixWord_zero (k : Nat) : matrixWord (Vector.replicate 25 0) k = 0 := by
  have hcell (i : Nat) : (Vector.replicate 25 (0 : Byte)).toList.getD i 0 = 0 := by
    rw [Vector.toList_replicate, List.getD_eq_getElem?_getD, List.getElem?_replicate]
    split <;> rfl
  simp only [matrixWord, hcell]
  rfl

theorem irqEnWord_resetOf (k : Fin 17) : irqEnWord (State.resetOf k).irqEn = 0 := by
  revert k; decide

theorem cfgWord_resetOf (k : Fin 17) : cfgWord (State.resetOf k).params = 0 := by
  revert k; decide

/-- R241's table of register values. -/
theorem readReg_resetOf (k : Fin 17) (r : Reg) :
    readReg (State.resetOf k) r =
      if r = .id then 0x43430007 else if r = .bufSize then BitVec.ofNat 32 (2 ^ (8 + k.val)) else 0 := by
  cases r with
  | status => exact statusWord_resetOf k
  | irqEn => exact irqEnWord_resetOf k
  | cfg => exact cfgWord_resetOf k
  | matrix j => exact matrixWord_zero j.val
  | _ => rfl

/-- What survives a platform reset is no register (R240). -/
theorem readReg_platformReset (s : State) (r : Reg) :
    readReg (platformReset s) r = readReg (State.resetOf s.bufLog) r := by
  cases r <;> rfl

/-- Without DONE and ERR nothing requests an interrupt, whatever is enabled (R219). -/
theorem irq_of_flags_clear {s : State} (hdone : s.status.done = false) (herr : s.status.err = false) : irq s = false := by
  simp [irq, hdone, herr]

/-- Where nothing has been written since reset, BUF holds the draw of that reset (R82, R241). -/
theorem bufByte_unwritten {s : State} (h : s.buf = []) (a : Nat) : bufByte s a = Config.bufDraw s.resets a := by
  rw [bufByte, h]
  rfl

/-- An IDLE engine has nothing to complete (R41). -/
theorem engineTurn_idle {s : State} (h : s.phase = .idle) : engineTurn s = .next s := by
  rw [engineTurn, h]

/-- The reset event, whatever the engine was doing (R240). -/
theorem step_reset {s : State} {es : List Event} (h : s.events = .reset :: es) :
    step s = .next (platformReset { s with events := es }) := by
  rw [step, nextStep, h]
  rfl

/-- Settles O6. -/
theorem resetLeavesEveryRegisterAtItsValue : Obligations.ResetLeavesEveryRegisterAtItsValue := by
  intro k
  have hcells (j : Nat) (h : j < 25) : (State.resetOf k).matrix[j] = 0x00 := Vector.getElem_replicate h
  exact ⟨readReg_resetOf k, rfl, irq_of_flags_clear rfl rfl, rfl, hcells, _, bufByte_unwritten rfl⟩

/-- Settles O7: the step is a platform reset, so nothing of the running command is left to complete; the draw of BUF is the next
one, and so not the one from before. -/
theorem platformResetAbandonsTheCommand : Obligations.PlatformResetAbandonsTheCommand := by
  intro s es hevents
  have hregs (r : Reg) := (readReg_platformReset { s with events := es } r).trans (readReg_resetOf s.bufLog r)
  exact ⟨_, step_reset hevents, rfl, rfl, rfl, hregs, rfl, rfl, irq_of_flags_clear rfl rfl, engineTurn_idle rfl,
    s.resets + 1, Nat.succ_ne_self s.resets, bufByte_unwritten rfl⟩

end Sys2Proof.Machine
end

