-- ==== Sys2Proof/Proofs/CommitShape.lean ====
section
/-! PROOF. What the commit of any command can hold, for all ten rules at once: where it stores (R70, R71), which matrix it writes
(R28, R112), and which results it leaves (R39). -/

namespace Sys2Proof.Machine

open Sys2Proof.Safety

/-! ### The store -/

/-- The store of an embed is the N output samples, two bytes each, at SMP_DST (R68, R168). -/
theorem embedCommit_store {s : State} {m : List Byte} {x : Option (Vector Byte 25)} {c : Commit} {a : Nat} {out : List Byte}
    (h : embedCommit s m x = .ok c) (hstore : c.store = some (a, out)) :
    a = s.params.smpDst.toNat ∧ out.length = 2 * s.params.smpCount.toNat := by
  obtain ⟨-, rfl⟩ := embedCommit_ok h
  cases hstore
  exact ⟨rfl, by rw [length_sampleBytesOf, length_embedSamples, carriers, List.length_map, List.length_range]⟩

/-- A command stores at the base of its written region, not beyond its end, and that region is in range (R70, R71). -/
theorem ruleOf_store {i : Instr} {s : State} {c : Commit} {a : Nat} {out : List Byte} (h : ruleOf i s = .ok c)
    (hstore : c.store = some (a, out)) : ∃ n, writtenRegion i s = some (a, n) ∧ out.length ≤ n ∧ InRange s a n := by
  cases i with
  | nop => cases h; cases hstore
  | subKey => obtain ⟨-, -, rfl⟩ := subKeyRule_ok h; cases hstore
  | subEnc =>
    obtain ⟨⟨-, hdst, -⟩, -, hcap, rfl⟩ := subEncRule_ok h
    cases hstore
    exact ⟨_, rfl, hcap, hdst⟩
  | subDec =>
    obtain ⟨⟨-, hdst, -⟩, -, -, hcap, rfl⟩ := subDecRule_ok h
    cases hstore
    exact ⟨_, rfl, hcap, hdst⟩
  | zzEnc =>
    obtain ⟨-, ⟨-, hdst, -⟩, hcap, rfl⟩ := zzEncRule_ok h
    cases hstore
    exact ⟨_, rfl, hcap, hdst⟩
  | zzDec =>
    obtain ⟨-, ⟨-, hdst, -⟩, hcap, rfl⟩ := zzDecRule_ok h
    cases hstore
    exact ⟨_, rfl, hcap, hdst⟩
  | lsbEmbed =>
    obtain ⟨⟨-, -, ⟨-, hsmpo⟩, -⟩, hcommit⟩ := lsbEmbedRule_ok h
    obtain ⟨rfl, hlen⟩ := embedCommit_store hcommit hstore
    exact ⟨_, rfl, hlen.le, hsmpo⟩
  | lsbExtract raw =>
    obtain ⟨⟨-, -, hdst, -⟩, x, -, hcap, rfl⟩ := lsbExtractRule_ok h
    cases hstore
    exact ⟨_, rfl, hcap, hdst⟩
  | pipeEnc =>
    obtain ⟨⟨⟨-, -, ⟨-, hsmpo⟩, -⟩, -⟩, hcommit⟩ := pipeEncRule_ok h
    obtain ⟨rfl, hlen⟩ := embedCommit_store hcommit hstore
    exact ⟨_, rfl, hlen.le, hsmpo⟩
  | pipeDec raw =>
    obtain ⟨⟨⟨-, -, hdst, -⟩, -⟩, x, -, -, hcap, rfl⟩ := pipeDecRule_ok h
    cases hstore
    exact ⟨_, rfl, hcap, hdst⟩

/-! ### The matrix -/

/-- The commands that write MATRIX (R28, R246). -/
def WritesMatrix (i : Instr) : Prop := i = .subKey ∨ i = .pipeEnc ∨ ∃ raw, i = .pipeDec raw

/-- A commit writes MATRIX only for SUB.KEY, PIPE.ENC and PIPE.DEC, and it writes the matrix of the key in BUF (R117, R191,
R192). -/
theorem ruleOf_matrix {i : Instr} {s : State} {c : Commit} {m : Vector Byte 25} (h : ruleOf i s = .ok c)
    (hm : c.matrix = some m) : WritesMatrix i ∧ m = keyMatrix s := by
  cases i with
  | nop => cases h; cases hm
  | subKey => obtain ⟨-, -, rfl⟩ := subKeyRule_ok h; cases hm; exact ⟨.inl rfl, rfl⟩
  | subEnc => obtain ⟨-, -, -, rfl⟩ := subEncRule_ok h; cases hm
  | subDec => obtain ⟨-, -, -, -, rfl⟩ := subDecRule_ok h; cases hm
  | zzEnc => obtain ⟨-, -, -, rfl⟩ := zzEncRule_ok h; cases hm
  | zzDec => obtain ⟨-, -, -, rfl⟩ := zzDecRule_ok h; cases hm
  | lsbEmbed =>
    obtain ⟨-, hcommit⟩ := lsbEmbedRule_ok h
    obtain ⟨-, rfl⟩ := embedCommit_ok hcommit
    cases hm
  | lsbExtract raw => obtain ⟨-, x, -, -, rfl⟩ := lsbExtractRule_ok h; cases hm
  | pipeEnc =>
    obtain ⟨-, hcommit⟩ := pipeEncRule_ok h
    obtain ⟨-, rfl⟩ := embedCommit_ok hcommit
    cases hm
    exact ⟨.inr (.inl rfl), rfl⟩
  | pipeDec raw => obtain ⟨-, x, -, -, -, rfl⟩ := pipeDecRule_ok h; cases hm; exact ⟨.inr (.inr ⟨raw, rfl⟩), rfl⟩

/-! ### The results -/

/-- R39 of four result values: no frame, or a frame of whole bytes with BITCOUNT = 32 + L of at most 2^26 bits. -/
def FrameConsistent (r : Results) : Prop :=
  (r.frameLen = 0 ∧ r.bitCount = 0 ∧ r.samplesUsed = 0) ∨
  (r.bitCount.toNat = 32 + r.frameLen.toNat ∧ r.frameLen.toNat % 8 = 0 ∧ r.bitCount.toNat ≤ 2 ^ 26 ∧ 0 < r.samplesUsed.toNat)

theorem resultsInv_iff (s : State) : ResultsInv s ↔ FrameConsistent s.results := Iff.rfl

theorem lengthResults_consistent (n : Nat) : FrameConsistent (lengthResults n) := .inl ⟨rfl, rfl, rfl⟩

/-- Samples of at least two bytes in a region in range are at most 2^23 (R7, R71). -/
theorem samples_le_of_inRange {s : State} {base w N : Nat} (hw : 2 ≤ w) (h : InRange s base (w * N)) : N ≤ 2 ^ 23 := by
  have hbuf := bufBytes_le s
  have hN : 2 * N ≤ w * N := Nat.mul_le_mul_right N hw
  rcases h with h | h <;> omega

theorem two_le_sampleWidth (s : State) : 2 ≤ sampleWidth s := by
  unfold sampleWidth; split <;> decide

/-- A frame of whole bytes that a legal carrier holds has at most 2^26 bits (R39, R164). -/
theorem frameResults_consistent {len L d N : Nat} (hlow : 1 ≤ d) (hhigh : d ≤ 8) (hL : L % 8 = 0) (hN : N ≤ 2 ^ 23)
    (hK : samplesFor L d ≤ N) : FrameConsistent (frameResults len L (samplesFor L d)) := by
  have hbits : 32 + L ≤ samplesFor L d * d := le_ceilDiv_mul (32 + L) hlow
  have hcarrier : samplesFor L d * d ≤ N * 8 := Nat.mul_le_mul hK hhigh
  have hpos : 0 < samplesFor L d := Nat.pos_of_ne_zero fun h0 => by rw [h0] at hbits; omega
  have hfit {n : Nat} (h : n ≤ 2 ^ 26) : (word n).toNat = n := Nat.mod_eq_of_lt (h.trans_lt (by decide))
  refine .inr ⟨?_, ?_, ?_, ?_⟩ <;> simp only [frameResults] <;> rw [hfit (by omega)]
  · rw [hfit (by omega)]
  · exact hL
  · omega
  · exact hpos

theorem embedCommit_results {s : State} {m : List Byte} {x : Option (Vector Byte 25)} {c : Commit} {r : Results}
    (hready : EmbedReady s) (h : embedCommit s m x = .ok c) (hr : c.results = some r) : FrameConsistent r := by
  obtain ⟨⟨-, hlow, hhigh⟩, -, ⟨-, hsmpo⟩, -⟩ := hready
  obtain ⟨hK, rfl⟩ := embedCommit_ok h
  cases hr
  exact frameResults_consistent hlow hhigh (Nat.mul_mod_right 8 _) (samples_le_of_inRange le_rfl hsmpo) hK

theorem extractFrame_results {s : State} {x : Extracted} (hready : ExtractReady s) (h : extractFrame s = .ok x) (len : Nat) :
    FrameConsistent (frameResults len x.bits x.samples) := by
  obtain ⟨⟨-, hlow, hhigh⟩, ⟨-, hsmpi⟩, -⟩ := hready
  rcases extractFrame_cases s with ⟨-, hx⟩ | ⟨-, -, hx⟩ | ⟨-, -, -, hx⟩ | ⟨-, hL, hK, hx⟩ <;> rw [hx] at h <;> cases h
  exact frameResults_consistent hlow hhigh hL (samples_le_of_inRange (two_le_sampleWidth s) hsmpi) hK

/-- Every command leaves consistent results (R39). -/
theorem ruleOf_results {i : Instr} {s : State} {c : Commit} {r : Results} (h : ruleOf i s = .ok c)
    (hr : c.results = some r) : FrameConsistent r := by
  cases i with
  | nop => cases h; cases hr
  | subKey => obtain ⟨-, -, rfl⟩ := subKeyRule_ok h; cases hr; exact lengthResults_consistent _
  | subEnc => obtain ⟨-, -, -, rfl⟩ := subEncRule_ok h; cases hr; exact lengthResults_consistent _
  | subDec => obtain ⟨-, -, -, -, rfl⟩ := subDecRule_ok h; cases hr; exact lengthResults_consistent _
  | zzEnc => obtain ⟨-, -, -, rfl⟩ := zzEncRule_ok h; cases hr; exact lengthResults_consistent _
  | zzDec => obtain ⟨-, -, -, rfl⟩ := zzDecRule_ok h; cases hr; exact lengthResults_consistent _
  | lsbEmbed =>
    obtain ⟨hready, hcommit⟩ := lsbEmbedRule_ok h
    exact embedCommit_results hready hcommit hr
  | lsbExtract raw =>
    obtain ⟨hready, x, hx, -, rfl⟩ := lsbExtractRule_ok h
    cases hr
    exact extractFrame_results hready hx _
  | pipeEnc =>
    obtain ⟨⟨hready, -⟩, hcommit⟩ := pipeEncRule_ok h
    exact embedCommit_results hready hcommit hr
  | pipeDec raw =>
    obtain ⟨⟨hready, -⟩, x, hx, -, -, rfl⟩ := pipeDecRule_ok h
    cases hr
    exact extractFrame_results hready hx _

end Sys2Proof.Machine
end

