-- ==== Sys2Proof/Proofs/Invariant.lean ====
section
/-! PROOF. The invariant (R35, R39, R45): each operation on the state keeps it, so every step does. -/

namespace Sys2Proof.Machine

open Sys2Proof.Safety

/-! ### The state's operations -/

/-- The invariant says nothing of the model's own lists. -/
theorem inv_events_iff (s : State) (es : List Event) : Inv { s with events := es } ↔ Inv s := Iff.rfl

theorem inv_reply_iff (r : Reply) (s : State) : Inv (reply r s) ↔ Inv s := Iff.rfl

/-- A state after reset has an empty BUF, no key, no report and no results (R241). -/
theorem inv_resetOf (k : Fin 17) : Inv (State.resetOf k) :=
  ⟨List.Pairwise.nil, fun c hc => absurd hc List.not_mem_nil, rfl, (fun h => by cases h), fun _ => ⟨rfl, rfl⟩,
    .inl ⟨rfl, rfl, rfl⟩⟩

theorem inv_platformReset (s : State) : Inv (platformReset s) := inv_resetOf s.bufLog

theorem inv_collide {s : State} (h : Inv s) : Inv (collide s) := h

theorem inv_accept {s : State} (h : Inv s) (v : Word) : Inv (accept v s) := by
  obtain ⟨hwf, hbelow, hmatrix, -, -, hresults⟩ := h
  exact ⟨hwf, hbelow, hmatrix, fun _ => ⟨rfl, rfl, rfl, rfl, rfl⟩, fun _ => ⟨rfl, rfl⟩, hresults⟩

/-- A write of STATUS clears flags, and a flag that is clear stays so. -/
theorem inv_clearW1C {s : State} (h : Inv s) (v : Word) : Inv { s with status := clearW1C v s.status } := by
  obtain ⟨hwf, hbelow, hmatrix, hbusy, hreport, hresults⟩ := h
  refine ⟨hwf, hbelow, hmatrix, fun hp => ?_, fun hcode => ?_, hresults⟩
  · obtain ⟨hdone, herr, hdrop, hcode, hinfo⟩ := hbusy hp
    exact ⟨by simp [hdone], by simp [herr], by simp [hdrop], hcode, hinfo⟩
  · obtain ⟨herr, hinfo⟩ := hreport hcode
    exact ⟨by simp [herr], hinfo⟩

theorem inv_writeBuf {s : State} (h : Inv s) {b : Nat} {bs : List Byte} (hfit : b + bs.length ≤ bufBytes s) :
    Inv (writeBuf b bs s) := by
  obtain ⟨hwf, hbelow, hrest⟩ := h
  exact ⟨memWriteBytes_wf hwf b bs, memWriteBytes_below hbelow b bs (.inr hfit), hrest⟩

/-- An error completion reports a code (R215). -/
theorem inv_raise {s : State} (h : Inv s) {e : Raised} (hcode : e.code ≠ .none) : Inv (raise e s) := by
  obtain ⟨hwf, hbelow, hmatrix, -, -, hresults⟩ := h
  exact ⟨hwf, hbelow, hmatrix, fun hp => (nomatch hp), fun hnone => absurd hnone hcode, hresults⟩

/-- A commit stores inside BUF, writes a CipherMatrix together with KEY_VALID, and leaves consistent results. -/
theorem inv_commit {i : Instr} {s : State} {c : Commit} (h : Inv s) (hrule : ruleOf i s = .ok c) : Inv (commit c s) := by
  obtain ⟨hwf, hbelow, hmatrix, -, hreport, hresults⟩ := h
  have hbuf : Memory.wf (storedBuf c.store s.buf) ∧ Memory.below (bufBytes s) (storedBuf c.store s.buf) := by
    cases hstore : c.store with
    | none => exact ⟨hwf, hbelow⟩
    | some p =>
      obtain ⟨n, -, hlen, hrange⟩ := ruleOf_store (out := p.2) hrule hstore
      refine ⟨memWriteBytes_wf hwf _ _, memWriteBytes_below hbelow _ _ ?_⟩
      rcases hrange with hn | hn
      · exact .inl (List.length_eq_zero_iff.1 (by omega))
      · exact .inr (by omega)
  have hkey : MatrixInv (commit c s) := by
    cases hm : c.matrix with
    | none => simpa [MatrixInv, hm] using hmatrix
    | some m =>
      obtain ⟨-, rfl⟩ := ruleOf_matrix hrule hm
      simpa [MatrixInv, hm] using keyMatrix_ok s
  have hres : FrameConsistent (c.results.getD s.results) := by
    cases hr : c.results with
    | none => exact hresults
    | some r => exact ruleOf_results hrule hr
  exact ⟨hbuf.1, hbuf.2, hkey, fun hp => (nomatch hp), hreport, (resultsInv_iff _).2 hres⟩

/-! ### The step -/

theorem inv_busAccess {s t : State} {a : Access} {r : Reply} (h : Inv s) (hacc : busAccess s a = .ok (t, r)) : Inv t := by
  rcases busAccess_cases hacc with rfl | ⟨-, rfl⟩ | ⟨-, v, rfl⟩ | ⟨v, rfl⟩ | ⟨v, rfl⟩ | ⟨-, p, rfl⟩ | ⟨-, b, bs, -, hfit, rfl⟩
  · exact h
  · exact inv_collide h
  · exact inv_accept h v
  · exact inv_clearW1C h v
  · exact h
  · exact h
  · exact inv_writeBuf h hfit

theorem inv_hostTurn {s t : State} {a : Access} (h : Inv s) (hturn : hostTurn a s = .next t) : Inv t := by
  rcases hostTurn_cases hturn with ⟨s', r, hacc, rfl⟩ | ⟨-, rfl⟩
  · exact (inv_reply_iff r s').2 (inv_busAccess h hacc)
  · exact h

theorem inv_engineTurn {s t : State} (h : Inv s) (hturn : engineTurn s = .next t) : Inv t := by
  rcases engineTurn_cases hturn with ⟨-, rfl⟩ | ⟨-, hstep⟩
  · exact h
  rcases engineStep_cases hstep with ⟨i, -, hexec⟩ | ⟨e, -, rfl⟩
  · rcases exec_cases hexec with ⟨e, he, rfl⟩ | ⟨c, hc, rfl⟩
    · exact inv_raise h (ne_of_mem_of_not_mem (ruleOf_raisesOnly i s e he) (none_notMem_raisable i))
    · exact inv_commit h hc
  · exact inv_raise h (by simp)

/-- Settles O9: each kind of event by the operations it performs. -/
theorem everyStepKeepsTheInvariant : Obligations.EveryStepKeepsTheInvariant := by
  intro s t h hstep
  rcases step_cases hstep with ⟨-, hturn⟩ | ⟨es, -, hturn⟩ | ⟨a, es, -, hturn⟩ | ⟨es, -, rfl⟩ | ⟨more, es, -, rfl⟩
  · exact inv_engineTurn h hturn
  · exact inv_engineTurn ((inv_events_iff s es).2 h) hturn
  · exact inv_hostTurn ((inv_events_iff s es).2 h) hturn
  · exact inv_platformReset _
  · exact (inv_reply_iff _ _).2 ((inv_events_iff s _).2 h)

/-- Settles O8. -/
theorem resetMeetsTheInvariant : Obligations.ResetMeetsTheInvariant := inv_resetOf

end Sys2Proof.Machine
end

