-- ==== Sys2Proof/Proofs/Latency.lean ====
section
/-! PROOF. Latency (R222, R251): what a host access while BUSY can change is HOSTCOLL and IRQ_EN, so states that differ only
there complete alike, and an induction along the accesses brings the completion to the front. -/

namespace Sys2Proof.Machine

open Sys2Proof.Safety

/-- The part of `t` that a running command reads and leaves is that of `s`: only HOSTCOLL, IRQ_EN and the model's two lists may
differ. -/
def SameRun (s t : State) : Prop :=
  t = { s with
        status := { s.status with hostColl := t.status.hostColl }
        irqEn := t.irqEn
        events := t.events
        replies := t.replies }

/-- `SameRun`, field by field. -/
theorem sameRun_iff (s t : State) :
    SameRun s t ↔ t.phase = s.phase ∧ t.cmd = s.cmd ∧ t.status = { s.status with hostColl := t.status.hostColl } ∧
      t.errInfo = s.errInfo ∧ t.params = s.params ∧ t.results = s.results ∧ t.matrix = s.matrix ∧ t.bufLog = s.bufLog ∧
      t.buf = s.buf ∧ t.resets = s.resets := by
  obtain ⟨_, _, ⟨_, _, _, _, _, _⟩, _, _, _, _, _, _, _, _, _, _⟩ := s
  obtain ⟨_, _, ⟨_, _, _, _, _, _⟩, _, _, _, _, _, _, _, _, _, _⟩ := t
  simp [SameRun]

theorem SameRun.trans {s t u : State} (hst : SameRun s t) (htu : SameRun t u) : SameRun s u := by
  rw [SameRun] at hst htu ⊢
  rw [htu, hst]

/-! ### A host access while BUSY -/

/-- While BUSY the report is clear, so a write of STATUS can clear nothing but HOSTCOLL (R44, R45). -/
theorem sameRun_clearW1C {s : State} (h : BusyInv s) (hbusy : s.phase = .busy) (v : Word) :
    SameRun s { s with status := clearW1C v s.status } := by
  obtain ⟨hdone, herr, hdrop, -, -⟩ := h hbusy
  rw [sameRun_iff]
  simp [clearW1C, hdone, herr, hdrop]

theorem sameRun_busAccess {s t : State} {a : Access} {r : Reply} (h : Inv s) (hbusy : s.phase = .busy)
    (hacc : busAccess s a = .ok (t, r)) : SameRun s t := by
  have hrunning : busy s = true := (busy_eq_true_iff s).2 hbusy
  obtain ⟨-, -, -, hreport, -⟩ := h
  rcases busAccess_cases hacc with rfl | ⟨-, rfl⟩ | ⟨hidle, -⟩ | ⟨v, rfl⟩ | ⟨v, rfl⟩ | ⟨hidle, -⟩ | ⟨hidle, -⟩
  · rfl
  · rfl
  · simp [hrunning] at hidle
  · exact sameRun_clearW1C hreport hbusy v
  · rfl
  · simp [hrunning] at hidle
  · simp [hrunning] at hidle

/-- A host access takes no event. -/
theorem busAccess_events {s t : State} {a : Access} {r : Reply} (h : busAccess s a = .ok (t, r)) : t.events = s.events := by
  rcases busAccess_cases h with rfl | ⟨-, rfl⟩ | ⟨-, v, rfl⟩ | ⟨v, rfl⟩ | ⟨v, rfl⟩ | ⟨-, p, rfl⟩ | ⟨-, b, bs, -, -, rfl⟩ <;> rfl

/-- A step that is a host access while BUSY leaves the running command as it is (R44, R75, R217, R231). -/
theorem sameRun_step_host {s t : State} {a : Access} {es : List Event} (h : Inv s) (hbusy : s.phase = .busy)
    (hevents : s.events = .host a :: es) (hstep : step s = .next t) : SameRun s t ∧ t.events = es := by
  rw [step, nextStep, hevents] at hstep
  rcases hostTurn_cases (s := { s with events := es }) hstep with ⟨s', r, hacc, rfl⟩ | ⟨-, rfl⟩
  · have hsame : SameRun { s with events := es } s' := sameRun_busAccess ((inv_events_iff s es).2 h) hbusy hacc
    exact ⟨(SameRun.trans (t := { s with events := es }) rfl hsame).trans rfl, busAccess_events hacc⟩
  · exact ⟨rfl, rfl⟩

/-! ### The completion -/

/-- What the running command's completion is: the rule of the command in CMD, or BADCMD (R94, R218). -/
def runningRule (s : State) : Except Raised Commit :=
  match decode s.cmd with
  | .ok i => ruleOf i s
  | .error _ => .error (badCommand s.cmd)

theorem engineStep_eq_complete (s : State) : engineStep s = .next (complete (runningRule s) s) := by
  cases hword : decode s.cmd with
  | ok i => simp [engineStep, fetch, runningRule, hword, exec_eq_complete]
  | error e => simp [engineStep, fetch, runningRule, hword]

theorem runningRule_congr {s t : State} (h : SameRun s t) : runningRule t = runningRule s := by
  obtain ⟨-, hcmd, hstatus, -, hparams, -, hmatrix, hlog, hbuf, hresets⟩ := (sameRun_iff s t).1 h
  have hrule (i : Instr) : ruleOf i t = ruleOf i s :=
    ruleOf_congr hparams hmatrix (by rw [hstatus]) hlog hbuf hresets i
  simp only [runningRule, hcmd, hrule]

/-- A completion, in error or not, neither reads nor writes what `SameRun` leaves open. -/
theorem sameRun_complete {s t : State} (h : SameRun s t) (r : Except Raised Commit) :
    SameRun (complete r s) (complete r t) := by
  rw [h]
  cases r <;> rfl

theorem complete_events (r : Except Raised Commit) (s : State) : (complete r s).events = s.events := by
  cases r <;> rfl

theorem step_completion {s : State} (hbusy : s.phase = .busy) (hevents : s.events = []) :
    step s = .next (complete (runningRule s) s) := by
  rw [step, nextStep, hevents, engineTurn, hbusy]
  exact engineStep_eq_complete s

/-! ### The accesses before the completion -/

/-- A run of `n + 1` steps that did not stop is a step and a run of `n`. -/
theorem core_run_succ {M : Host.Core} {n : Nat} {s u : M.State} (h : M.run (n + 1) s = .next u) :
    ∃ t, M.step s = .next t ∧ M.run n t = .next u := by
  rw [Host.Core.run] at h
  split at h
  · exact ⟨_, ‹_›, h⟩
  · cases h
  · cases h

/-- However many host accesses come first, the completion is the running command's own. -/
theorem sameRun_run (accesses : List Access) {s u : State} (h : Inv s) (hbusy : s.phase = .busy)
    (hevents : s.events = accesses.map .host) (hrun : Host.Core.run core (accesses.length + 1) s = .next u) :
    SameRun (complete (runningRule s) s) u ∧ u.events = [] := by
  induction accesses generalizing s with
  | nil =>
    obtain ⟨t, (hstep : step s = .next t), hlast⟩ := core_run_succ (M := core) hrun
    rw [step_completion hbusy hevents] at hstep
    cases hstep
    cases hlast
    exact ⟨rfl, (complete_events ..).trans hevents⟩
  | cons a accesses ih =>
    obtain ⟨t, (hstep : step s = .next t), hrest⟩ := core_run_succ (M := core) hrun
    obtain ⟨hsame, ht⟩ := sameRun_step_host h hbusy hevents hstep
    obtain ⟨hphase, -⟩ := (sameRun_iff s t).1 hsame
    obtain ⟨hlater, hu⟩ := ih (everyStepKeepsTheInvariant s t h hstep) (hphase.trans hbusy) ht hrest
    rw [runningRule_congr hsame] at hlater
    exact ⟨(sameRun_complete hsame _).trans hlater, hu⟩

/-- Settles O28: the completion at once and the one after the accesses are of the same rule on states that differ in HOSTCOLL,
IRQ_EN and the replies alone. -/
theorem latencyDoesNotChangeTheResult : Obligations.LatencyDoesNotChangeTheResult := by
  intro s t u accesses h hbusy hnone hstep hrun
  rw [step_completion hbusy hnone] at hstep
  cases hstep
  obtain ⟨hsame, hu⟩ := sameRun_run (s := { s with events := accesses.map .host }) accesses h hbusy rfl hrun
  have ht : SameRun (complete (runningRule s) s) u :=
    (sameRun_complete (s := s) (t := { s with events := accesses.map .host }) rfl _).trans hsame
  have hevents : u.events = (complete (runningRule s) s).events := by rw [hu, complete_events, hnone]
  rw [SameRun, hevents] at ht
  exact ht

end Sys2Proof.Machine
end

