-- ==== Sys2Proof/Proofs/CommandBytes.lean ====
section
/-! PROOF. The bytes of a command word (R64, R96): a word and its four little-endian bytes determine each other, so a byte string
decodes exactly when it is the bytes of a word that does. -/

namespace Sys2Proof

theorem Instr.wf_eq_true (i : Instr) : i.wf = true := by
  cases i <;> rfl

/-- The word of four bytes, least significant first (R64). -/
def wordOfBytes (b0 b1 b2 b3 : Byte) : Word := b3 ++ b2 ++ b1 ++ b0

theorem decodeBytes_four (b0 b1 b2 b3 : Byte) : decodeBytes [b0, b1, b2, b3] = decode (wordOfBytes b0 b1 b2 b3) := rfl

/-- A word's four bytes make up the word again. -/
theorem wordOfBytes_extract (w : Word) :
    wordOfBytes (w.extractLsb' 0 8) (w.extractLsb' 8 8) (w.extractLsb' 16 8) (w.extractLsb' 24 8) = w := by
  have h16 : w.extractLsb' 24 8 ++ w.extractLsb' 16 8 = w.extractLsb' 16 16 :=
    BitVec.extractLsb'_append_extractLsb'_eq_extractLsb' (by rfl)
  have h8 : w.extractLsb' 16 16 ++ w.extractLsb' 8 8 = w.extractLsb' 8 24 :=
    BitVec.extractLsb'_append_extractLsb'_eq_extractLsb' (by rfl)
  have h0 : w.extractLsb' 8 24 ++ w.extractLsb' 0 8 = w.extractLsb' 0 32 :=
    BitVec.extractLsb'_append_extractLsb'_eq_extractLsb' (by rfl)
  rw [wordOfBytes, h16, h8, h0, BitVec.extractLsb'_eq_self]

/-- The bytes of a word made of four bytes are those four. -/
theorem wordBytes_wordOfBytes (b0 b1 b2 b3 : Byte) : wordBytes (wordOfBytes b0 b1 b2 b3) = [b0, b1, b2, b3] := by
  have h0 : (wordOfBytes b0 b1 b2 b3).extractLsb' 0 8 = b0 := BitVec.extractLsb'_append_eq_right
  have h8 : (wordOfBytes b0 b1 b2 b3).extractLsb' 8 8 = b1 :=
    (BitVec.extractLsb'_append_eq_of_le (by decide)).trans BitVec.extractLsb'_append_eq_right
  have h16 : (wordOfBytes b0 b1 b2 b3).extractLsb' 16 8 = b2 :=
    (BitVec.extractLsb'_append_eq_of_le (by decide)).trans
      ((BitVec.extractLsb'_append_eq_of_le (by decide)).trans BitVec.extractLsb'_append_eq_right)
  have h24 : (wordOfBytes b0 b1 b2 b3).extractLsb' 24 8 = b3 :=
    (BitVec.extractLsb'_append_eq_of_le (by decide)).trans
      ((BitVec.extractLsb'_append_eq_of_le (by decide)).trans BitVec.extractLsb'_append_eq_left)
  rw [wordBytes, h0, h8, h16, h24]

/-- Decoding a word's bytes is decoding the word (R64). -/
@[simp] theorem decodeBytes_wordBytes (w : Word) : decodeBytes (wordBytes w) = decode w := by
  rw [wordBytes, decodeBytes_four, wordOfBytes_extract]

/-- Only the four bytes of a word decode (R90, R96). -/
theorem eq_wordBytes_of_decodeBytes_ok {bytes : List Byte} {i : Instr} (h : decodeBytes bytes = .ok i) :
    ∃ w, bytes = wordBytes w ∧ decode w = .ok i := by
  unfold decodeBytes at h
  split at h
  · next b0 b1 b2 b3 => exact ⟨wordOfBytes b0 b1 b2 b3, (wordBytes_wordOfBytes ..).symm, h⟩
  · cases h

/-- Settles O2: a byte string that decodes is the bytes of a word, and a word decodes to `i` exactly when it is `i`'s. -/
theorem bytesDecodeExactlyToTheirEncoding : Obligations.BytesDecodeExactlyToTheirEncoding := by
  intro bytes i
  constructor
  · rintro ⟨-, h⟩
    obtain ⟨w, rfl, hw⟩ := eq_wordBytes_of_decodeBytes_ok h
    rw [(decode_eq_ok_iff w i).1 hw]
  · rintro rfl
    exact ⟨i.wf_eq_true, by rw [decodeBytes_wordBytes, decode_eq_ok_iff]⟩

/-- Settles O4: each word is its command's encoding. -/
theorem spelledOutWordsDecode : Obligations.SpelledOutWordsDecode := by
  refine ⟨?_, ?_, ?_, ?_, ?_, ?_⟩ <;> rw [decode_eq_ok_iff] <;> rfl

end Sys2Proof

namespace Sys2Proof.Machine

/-- The table's bits decode as the word they spell. -/
theorem decodeTableWord_eq_some_iff (nbits w : Nat) (i : Instr) :
    decodeTableWord nbits w = some i ↔ decode (tableWord nbits w) = .ok i := by
  rw [decodeTableWord, decodeBytes_wordBytes]
  cases decode (tableWord nbits w) <;> simp

/-- A running command with a legal word completes by its meaning (R218). -/
theorem engineTurn_of_decode {s : State} {i : Instr} (hbusy : s.phase = .busy) (hi : decode s.cmd = .ok i) :
    engineTurn s = exec i s := by
  simp only [engineTurn, hbusy, engineStep, fetch, hi]

/-- Settles O5: each of the steps is the engine's turn on a state with the command running. -/
theorem stepRunsTheDecodedCommand : Obligations.StepRunsTheDecodedCommand := by
  refine ⟨fun s i es hbusy hi => ⟨fun hnone => ?_, fun hnext => ?_⟩, fun s nbits w i hi => ?_⟩
  · rw [step, nextStep, hnone]
    exact engineTurn_of_decode hbusy hi
  · rw [step, nextStep, hnext]
    exact engineTurn_of_decode (s := { s with events := es }) hbusy hi
  · exact engineTurn_of_decode (s := accept (tableWord nbits w) s) rfl ((decodeTableWord_eq_some_iff ..).1 hi)

/-- A write of CMD while IDLE is an acceptance (R216). -/
theorem busAccess_write_cmd_idle {s : State} (hidle : s.phase = .idle) (v : Word) :
    busAccess s (.write 0x004 .w32 v) = .ok (accept v s, .written) := by
  rw [← unlessBusy_of_idle hidle (accept v s)]
  exact busAccess_write_reg s v .cmd

/-- Settles O16. -/
theorem acceptanceWritesExactly : Obligations.AcceptanceWritesExactly := fun _ v hidle => busAccess_write_cmd_idle hidle v

end Sys2Proof.Machine
end

