-- ==== Sys2Proof/Proofs/RegisterSpace.lean ====
section
/-! PROOF. The register space (R22, R48, R62): the map written out is every register at its offset with its value; an access below
the window faults exactly when it is misaligned; an offset in no row is ignored. -/

namespace Sys2Proof

theorem Reg.mem_all (r : Reg) : r ∈ Reg.all := by
  cases r with
  | matrix k => revert k; decide
  | _ => decide

/-- Below the BUF window aligned means 32 bits wide at a multiple of 4 (R62). -/
theorem aligned_eq_true_iff_below {a : Access} (ho : a.offset < Config.windowBase) :
    a.aligned = true ↔ a.width = .w32 ∧ a.offset % 4 = 0 := by
  simp [Access.aligned, ho]

/-- No register stands between BUFSIZE and MATRIX0, or after MATRIX6 (R22). -/
theorem regAt_gap {o : Nat} (hlo : 0x50 < o) (hgap : o < 0x80 ∨ 0x98 < o) : regAt o = none := by
  refine Option.eq_none_iff_forall_not_mem.2 fun r hr => ?_
  rw [Option.mem_def, regAt_eq_some_iff] at hr
  subst hr
  cases r with
  | matrix k => have := k.isLt; simp only [Reg.offset] at hgap; omega
  | _ => simp [Reg.offset] at hlo

end Sys2Proof

namespace Sys2Proof.Machine

open Sys2Proof.Safety

/-- The map of R22 lists every register, at its offset, with its value. -/
theorem registerMap_eq (s : State) : registerMap s = Reg.all.map fun r => (word r.offset, r, readReg s r) := rfl

/-- Below the BUF window exactly the misaligned accesses fault (R62). -/
theorem busAccess_busError_iff_below (s : State) {a : Access} (ho : a.offset < Config.windowBase) :
    busAccess s a = .error .busError ↔ a.width ≠ .w32 ∨ a.offset % 4 ≠ 0 := by
  rw [← not_and_or, ← aligned_eq_true_iff_below ho, Bool.not_eq_true]
  constructor
  · exact aligned_of_busError
  · exact busAccess_misaligned s (ho.trans (by decide))

/-- A register access at an unlisted offset reads 0 and ignores writes (R48). -/
theorem regAccess_unlisted (s : State) {a : Access} (h : regAt a.offset = none) : regAccess s a = unusedAccess s a := by
  cases a with
  | read o w => have h : regAt o.toNat = none := h; simp [regAccess, unusedAccess, h]
  | write o w v => have h : regAt o.toNat = none := h; simp [regAccess, unusedAccess, h]

/-- A step whose host access is a bus error only records it (R231; log 7). -/
theorem step_busError {s : State} {a : Access} {es : List Event} (hevents : s.events = .host a :: es)
    (herr : busAccess { s with events := es } a = .error .busError) :
    step s = .next { s with events := es, replies := .fault .busError :: s.replies } := by
  rw [step, nextStep, hevents]
  simp only [deliver, hostTurn, herr]
  rfl

/-- Settles O10: the rows of the map are the registers' reads; below the window an access is misaligned, unlisted, or one of
these. -/
theorem registerSpaceAccesses : Obligations.RegisterSpaceAccesses := by
  refine ⟨fun s => ⟨fun r => ?_, fun row hrow => ?_⟩, fun s a ho => ⟨?_, fun es hmis hevents => ?_, fun hw h4 hlo hgap => ?_⟩⟩
  · exact ⟨_, registerMap_eq s ▸ List.mem_map_of_mem r.mem_all, rfl⟩
  · rw [registerMap_eq] at hrow
    obtain ⟨r, -, rfl⟩ := List.mem_map.1 hrow
    exact ⟨r.toNat_word_offset.symm, rfl, busAccess_read_reg s r⟩
  · exact (busAccess_busError_iff_below s ho).symm
  · exact step_busError hevents ((busAccess_busError_iff_below _ ho).2 hmis)
  · have hacc : busAccess s a = .ok (unusedAccess s a) := by
      rw [busAccess_below_window s ((aligned_eq_true_iff_below ho).2 ⟨hw, h4⟩) ho, regAccess_unlisted s (regAt_gap hlo hgap)]
    refine ⟨(unusedAccess s a).2, ?_, ?_, ?_⟩
    · cases a <;> exact hacc
    · rintro ⟨o, rfl⟩; rfl
    · rintro ⟨o, v, rfl⟩; rfl

end Sys2Proof.Machine
end

