-- ==== Sys2Proof/Proofs/ParameterWrites.lean ====
section
/-! PROOF. The parameter registers and CFG while IDLE (R34, R38, R43): a write changes the one register alone, and what it stores
is read back. -/

namespace Sys2Proof.Machine

/-- A write of a parameter register while IDLE changes the parameters alone (R34). -/
theorem writeReg_param_idle {r : Reg} (h : r ∈ paramRegs) {s : State} (hidle : s.phase = .idle) (v : Word) :
    ∃ p, writeReg s v r = { s with params := p } := by
  obtain ⟨p, hp⟩ := writeReg_param h s v
  exact ⟨p, hp.trans (unlessBusy_of_idle hidle _)⟩

/-- What the host reads outside the parameter registers does not depend on them. -/
theorem readReg_params_frame {q : Reg} (h : q ∉ paramRegs) (s : State) (p : Params) :
    readReg { s with params := p } q = readReg s q := by
  rcases reg_groups q with rfl | rfl | rfl | hparam | ⟨hro | ⟨k, rfl⟩, -⟩
  · rfl
  · rfl
  · rfl
  · exact absurd hparam h
  · simp only [List.mem_cons, List.not_mem_nil, or_false] at hro
    rcases hro with rfl | rfl | rfl | rfl | rfl | rfl | rfl <;> rfl
  · rfl

/-- The parameter registers are separate (R34). -/
theorem readReg_writeReg_other {r q : Reg} (hr : r ∈ paramRegs) (hq : q ≠ r) {s : State} (hidle : s.phase = .idle) (v : Word) :
    readReg (writeReg s v r) q = readReg s q := by
  by_cases hparam : q ∈ paramRegs
  · have hwrite (p : Params) : writeParams s p = { s with params := p } := unlessBusy_of_idle hidle _
    simp only [paramRegs, List.mem_cons, List.not_mem_nil, or_false] at hr hparam
    rcases hr with rfl | rfl | rfl | rfl | rfl | rfl | rfl | rfl | rfl | rfl | rfl <;>
      rcases hparam with rfl | rfl | rfl | rfl | rfl | rfl | rfl | rfl | rfl | rfl | rfl <;>
      simp [writeReg, hwrite, readReg, cfgWord] at hq ⊢
  · obtain ⟨p, hp⟩ := writeReg_param_idle hr hidle v
    rw [hp, readReg_params_frame hparam]

/-- A parameter register reads back what is written (R34). -/
theorem readReg_writeReg_same {r : Reg} (hr : r ∈ paramRegs) (hcfg : r ≠ .cfg) {s : State} (hidle : s.phase = .idle) (v : Word) :
    readReg (writeReg s v r) r = v := by
  have hwrite (p : Params) : writeParams s p = { s with params := p } := unlessBusy_of_idle hidle _
  simp only [paramRegs, List.mem_cons, List.not_mem_nil, or_false] at hr
  rcases hr with rfl | rfl | rfl | rfl | rfl | rfl | rfl | rfl | rfl | rfl | rfl
  case inr.inr.inr.inr.inr.inr.inr.inr.inr.inl => exact absurd rfl hcfg
  all_goals simp only [writeReg, hwrite, readReg]

/-- CFG as read is the low six bits of what was written (R38, R43). -/
theorem cfgWord_of_write (v : Word) (p : Params) :
    cfgWord { p with depth := v.extractLsb' 0 4, sfmt := v.extractLsb' 4 2 } = v &&& 0x3F := by
  refine BitVec.eq_of_getLsbD_eq fun i hi => ?_
  have hmask : (0x3F : Word).getLsbD i = decide (i < 6) := by interval_cases i <;> rfl
  rw [BitVec.getLsbD_and, hmask, cfgWord, BitVec.getLsbD_append, BitVec.getLsbD_append]
  simp only [BitVec.getLsbD_extractLsb', BitVec.getLsbD_zero]
  obtain h | h | h : i < 4 ∨ (4 ≤ i ∧ i < 6) ∨ 6 ≤ i := by omega
  · simp [h, show i < 6 by omega]
  · simp [h.2, show ¬ i < 4 by omega, show i - 4 < 2 by omega, show 4 + (i - 4) = i by omega]
  · simp [show ¬ i < 4 by omega, show ¬ i - 4 < 2 by omega, show ¬ i < 6 by omega]

/-- What a write to a parameter register while IDLE does, for every one of them. -/
theorem paramWrite_idle {r : Reg} (hr : r ∈ paramRegs) {s : State} (hidle : s.phase = .idle) (v : Word) :
    busAccess s (.write (BitVec.ofNat 32 r.offset) .w32 v) = .ok (writeReg s v r, .written) ∧
    writeReg s v r = { s with params := (writeReg s v r).params } ∧
    ∀ q, q ≠ r → readReg (writeReg s v r) q = readReg s q := by
  obtain ⟨p, hp⟩ := writeReg_param_idle hr hidle v
  exact ⟨busAccess_write_reg s v r, by rw [hp], fun q hq => readReg_writeReg_other hr hq hidle v⟩

/-- Settles O13: a write of a parameter register is one of the group; CFG reads back its two fields. -/
theorem parameterRegistersReadBack : Obligations.ParameterRegistersReadBack := by
  intro s v r hidle
  constructor
  · intro hr
    have hparam : r ∈ paramRegs := List.Sublist.subset (by decide) hr
    have hcfg : r ≠ .cfg := by rintro rfl; exact absurd hr (by decide)
    obtain ⟨hacc, hframe, hother⟩ := paramWrite_idle hparam hidle v
    exact ⟨_, hacc, readReg_writeReg_same hparam hcfg hidle v, hframe, hother⟩
  · obtain ⟨hacc, hframe, hother⟩ := paramWrite_idle (r := .cfg) (by decide) hidle v
    have hwrite : (writeReg s v .cfg).params = { s.params with depth := v.extractLsb' 0 4, sfmt := v.extractLsb' 4 2 } := by
      rw [writeReg, writeParams, unlessBusy_of_idle hidle]
    refine ⟨_, hacc, ?_, by rw [hwrite], by rw [hwrite], hframe, hother⟩
    rw [readReg, hwrite, cfgWord_of_write]

end Sys2Proof.Machine
end

