-- ==== Sys2Proof/Proofs/MatrixAndPhase.lean ====
section
/-! PROOF. When MATRIX (R28, R246) and PHASE (R25, R41, R218) change: each kind of event by what its step does to them. -/

namespace Sys2Proof.Machine

/-! ### MATRIX and KEY_VALID -/

/-- No host access reaches MATRIX or KEY_VALID. -/
theorem hostTurn_matrix {s t : State} {a : Access} (h : hostTurn a s = .next t) :
    t.matrix = s.matrix ∧ t.status.keyValid = s.status.keyValid := by
  rcases hostTurn_cases h with ⟨s', r, hacc, rfl⟩ | ⟨-, rfl⟩
  · rcases busAccess_cases hacc with rfl | ⟨-, rfl⟩ | ⟨-, v, rfl⟩ | ⟨v, rfl⟩ | ⟨v, rfl⟩ | ⟨-, p, rfl⟩ | ⟨-, b, bs, -, -, rfl⟩ <;>
      exact ⟨rfl, rfl⟩
  · exact ⟨rfl, rfl⟩

/-- An engine's turn changes MATRIX and KEY_VALID only by the commit of a command that writes MATRIX. -/
theorem engineTurn_matrix {s t : State} (h : engineTurn s = .next t) :
    (t.matrix = s.matrix ∧ t.status.keyValid = s.status.keyValid) ∨
    (s.phase = .busy ∧ t.phase = .idle ∧ t.status.keyValid = true ∧ t.status.err = s.status.err ∧
      ∃ i, decode s.cmd = .ok i ∧ WritesMatrix i) := by
  rcases engineTurn_cases h with ⟨-, rfl⟩ | ⟨hbusy, h⟩
  · exact .inl ⟨rfl, rfl⟩
  rcases engineStep_cases h with ⟨i, hi, hexec⟩ | ⟨e, -, rfl⟩
  · rcases exec_cases hexec with ⟨e, -, rfl⟩ | ⟨c, hc, rfl⟩
    · exact .inl ⟨rfl, rfl⟩
    · cases hm : c.matrix with
      | none => exact .inl (by simp [hm])
      | some m => exact .inr ⟨hbusy, rfl, by simp [hm], rfl, i, hi, (ruleOf_matrix hc hm).1⟩
  · exact .inl ⟨rfl, rfl⟩

/-- Settles O21. -/
theorem matrixChangesOnlyAtAKeyCommit : Obligations.MatrixChangesOnlyAtAKeyCommit := by
  intro s t h
  rcases step_cases h with ⟨-, hturn⟩ | ⟨es, -, hturn⟩ | ⟨a, es, -, hturn⟩ | ⟨es, hes, -⟩ | ⟨more, es, -, rfl⟩
  · exact (engineTurn_matrix hturn).imp_right .inr
  · exact (engineTurn_matrix hturn).imp_right .inr
  · exact .inl (hostTurn_matrix (s := { s with events := es }) hturn)
  · exact .inr (.inl ⟨es, hes⟩)
  · exact .inl ⟨rfl, rfl⟩

/-! ### PHASE -/

/-- Only a write of CMD makes an IDLE engine BUSY (R25, R216). -/
theorem writeReg_starts {s : State} {v : Word} {r : Reg} (hidle : s.phase = .idle)
    (hbusy : (writeReg s v r).phase = .busy) : r = .cmd ∧ (writeReg s v r).cmd = v := by
  have hsame : s.phase ≠ .busy := by simp [hidle]
  rcases writeReg_cases s v r with h | ⟨hb, -⟩ | ⟨-, hr, h⟩ | ⟨-, h⟩ | ⟨-, h⟩ | ⟨-, p, h⟩
  case inr.inl => exact absurd ((busy_eq_true_iff s).1 hb) hsame
  case inr.inr.inl => exact ⟨hr, by rw [h]; rfl⟩
  all_goals
    rw [h] at hbusy
    exact absurd hbusy hsame

theorem regAccess_starts {s : State} {a : Access} (hal : a.aligned = true) (ho : a.offset < Config.windowBase)
    (hidle : s.phase = .idle) (hbusy : (regAccess s a).1.phase = .busy) :
    ∃ v, a = .write 0x004 .w32 v ∧ (regAccess s a).1.cmd = v := by
  obtain ⟨hw, -⟩ := (aligned_eq_true_iff_below ho).1 hal
  cases a with
  | read o w =>
    have hs : (regAccess s (.read o w)).1 = s := by simp only [regAccess]; split <;> rfl
    rw [hs, hidle] at hbusy
    cases hbusy
  | write o w v =>
    obtain rfl : w = .w32 := hw
    simp only [regAccess] at hbusy ⊢
    split at hbusy
    · next r hr =>
      obtain ⟨rfl, hcmd⟩ := writeReg_starts hidle hbusy
      have ho : o = 0x004 := BitVec.eq_of_toNat_eq ((regAt_eq_some_iff _ _).1 hr)
      exact ⟨v, by rw [ho], by simpa [hr] using hcmd⟩
    · rw [hidle] at hbusy
      cases hbusy

theorem bufAccess_phase (s : State) (b : Nat) (a : Access) : (bufAccess s b a).1.phase = s.phase := by
  cases a <;> cases hp : s.phase <;> simp [bufAccess, busy, hp]

/-- An access that makes an IDLE engine BUSY is a write of CMD, and CMD holds its value (R25, R216). -/
theorem busAccess_starts {s t : State} {a : Access} {r : Reply} (h : busAccess s a = .ok (t, r)) (hidle : s.phase = .idle)
    (hbusy : t.phase = .busy) : ∃ v, a = .write 0x004 .w32 v ∧ t.cmd = v := by
  unfold busAccess at h
  split at h
  · cases h
  split at h
  · cases h
  next _ hal =>
  split at h
  · next ho =>
    cases congrArg Prod.fst (Except.ok.inj h)
    exact regAccess_starts (by simpa using hal) ho hidle hbusy
  split at h <;> cases congrArg Prod.fst (Except.ok.inj h)
  · simp [bufAccess_phase, hidle] at hbusy
  · simp [unusedAccess_state, hidle] at hbusy

/-- No host access ends a running command. -/
theorem hostTurn_busy {s t : State} {a : Access} (h : hostTurn a s = .next t) (hbusy : s.phase = .busy) : t.phase = .busy := by
  rcases hostTurn_cases h with ⟨s', r, hacc, rfl⟩ | ⟨-, rfl⟩
  · rcases busAccess_cases hacc with rfl | ⟨-, rfl⟩ | ⟨-, v, rfl⟩ | ⟨v, rfl⟩ | ⟨v, rfl⟩ | ⟨-, p, rfl⟩ | ⟨-, b, bs, -, -, rfl⟩
    case inr.inr.inl => rfl
    all_goals exact hbusy
  · exact hbusy

theorem hostTurn_starts {s t : State} {a : Access} (h : hostTurn a s = .next t) (hidle : s.phase = .idle)
    (hbusy : t.phase = .busy) : ∃ v, a = .write 0x004 .w32 v ∧ t.cmd = v := by
  rcases hostTurn_cases h with ⟨s', r, hacc, rfl⟩ | ⟨-, rfl⟩
  · exact busAccess_starts (t := s') hacc hidle hbusy
  · simp [hidle] at hbusy

/-- The engine's turn never starts a command, and what it ends has DONE set (R215, R218). -/
theorem engineTurn_phase {s t : State} (h : engineTurn s = .next t) :
    t.phase = .idle ∧ (s.phase = .busy → t.status.done = true) := by
  rcases engineTurn_cases h with ⟨hidle, rfl⟩ | ⟨-, h⟩
  · exact ⟨hidle, fun hbusy => by simp [hidle] at hbusy⟩
  rcases engineStep_cases h with ⟨i, -, hexec⟩ | ⟨e, -, rfl⟩
  · rcases exec_cases hexec with ⟨e, -, rfl⟩ | ⟨c, -, rfl⟩ <;> exact ⟨rfl, fun _ => rfl⟩
  · exact ⟨rfl, fun _ => rfl⟩

/-- The loop of `wait` leaves no event exactly when the word it read has bit 0 = 0 (R98). -/
theorem pollRest_append_eq_iff (v : Word) (more : Nat) (es : List Event) :
    pollRest v more ++ es = es ↔ v.getLsbD 0 = false := by
  rw [List.append_left_eq_self]
  unfold pollRest
  cases v.getLsbD 0 with
  | false => simp
  | true => cases more <;> simp

/-- Settles O22: each kind of event by what its step does to the phase. -/
theorem phaseChangesOnlyAtAcceptanceAndCompletion : Obligations.PhaseChangesOnlyAtAcceptanceAndCompletion := by
  intro s t h
  rcases step_cases h with ⟨hes, hturn⟩ | ⟨es, hes, hturn⟩ | ⟨a, es, hes, hturn⟩ | ⟨es, hes, rfl⟩ | ⟨more, es, hes, rfl⟩
  · obtain ⟨hidle, hdone⟩ := engineTurn_phase hturn
    exact ⟨fun _ hb => by simp [hidle] at hb, fun _ _ => .inl hes, fun hb _ _ => hdone hb, fun n es' h' => by simp [hes] at h'⟩
  · obtain ⟨hidle, hdone⟩ := engineTurn_phase hturn
    exact ⟨fun _ hb => by simp [hidle] at hb, fun _ _ => .inr (.inl ⟨es, hes⟩), fun hb _ _ => hdone hb,
      fun n es' h' => by simp [hes] at h'⟩
  · refine ⟨fun hidle hb => ?_, fun hb hidle => ?_, fun hb hidle => ?_, fun n es' h' => by simp [hes] at h'⟩
    · obtain ⟨v, rfl, hcmd⟩ := hostTurn_starts hturn hidle hb
      exact ⟨v, es, hes, hcmd⟩
    · simp [hostTurn_busy hturn hb] at hidle
    · simp [hostTurn_busy hturn hb] at hidle
  · exact ⟨fun _ hb => (nomatch hb), fun _ _ => .inr (.inr ⟨es, hes⟩), fun _ _ hno => absurd hes (hno es),
      fun n es' h' => by simp [hes] at h'⟩
  · have hphase {p q : Phase} (hp : s.phase = p) (hq : s.phase = q) (hne : p ≠ q) : False := hne (hp.symm.trans hq)
    refine ⟨fun hi hb => (hphase hi hb (by decide)).elim, fun hb hi => (hphase hb hi (by decide)).elim,
      fun hb hi => (hphase hb hi (by decide)).elim, fun n es' h' => ?_⟩
    rw [hes] at h'
    cases h'
    exact ⟨rfl, pollRest_append_eq_iff _ _ _⟩

end Sys2Proof.Machine
end

