-- ==== Sys2Proof/Proofs/ErrorCodes.lean ====
section
/-! PROOF. The error table (R210, R211): which command raises which error, and one code for each. -/

namespace Sys2Proof.Machine

open Sys2Proof.Safety

/-- Looking an error's code up in R210's table finds that error. -/
theorem find?_errorCodes (e : ErrorCode) : errorCodes.find? (·.2 == e.code) = some (e, e.code) := by
  cases e <;> rfl

theorem code_le (e : ErrorCode) : e.code.toNat ≤ 0x0D := by
  cases e <;> decide

/-- No two errors share a code (R211). -/
theorem code_injective : Function.Injective ErrorCode.code := by
  intro e f h
  have hfind := find?_errorCodes e
  rw [h, find?_errorCodes f] at hfind
  cases hfind
  rfl

/-- Settles O24: an error completion reports what the rule raised. -/
theorem commandsRaiseOnlyTheirErrors : Obligations.CommandsRaiseOnlyTheirErrors := by
  refine ⟨fun i s t hexec hs ht => ?_, fun e => List.mem_of_find?_eq_some (find?_errorCodes e), code_le,
    fun _ _ h => code_injective h⟩
  obtain ⟨e, he, rfl⟩ := exec_raise hexec hs ht
  exact ruleOf_raisesOnly i s e he

end Sys2Proof.Machine
end

