-- ==== Sys2Proof/Proofs/WrittenRegion.lean ====
section
/-! PROOF. What a command writes of BUF (R70): its store lies inside its written region. -/

namespace Sys2Proof.Machine

/-- A commit leaves every byte alone that its store does not cover. -/
theorem bufByte_commit_outside {c : Commit} {s : State} {a : Nat}
    (h : ∀ base out, c.store = some (base, out) → a < base ∨ base + out.length ≤ a) :
    bufByte (commit c s) a = bufByte s a := by
  cases hstore : c.store with
  | none => exact bufByte_congr (by simp [hstore]) (commit_resets c s) a
  | some p => exact bufByte_stored_outside (by rw [commit_buf, hstore]; rfl) (commit_resets c s) (h p.1 p.2 hstore)

/-- Settles O25. -/
theorem commandsWriteOnlyTheirRegion : Obligations.CommandsWriteOnlyTheirRegion := by
  intro i s t hexec a hout
  rcases exec_cases hexec with ⟨e, -, rfl⟩ | ⟨c, hc, rfl⟩
  · rfl
  · refine bufByte_commit_outside fun base out hstore => ?_
    obtain ⟨n, hregion, hlen, -⟩ := ruleOf_store hc hstore
    have := hout (base, n) hregion
    simp only [Safety.Inside] at this
    omega

end Sys2Proof.Machine
end

