-- ==== Sys2Proof/Proofs/RuleInputs.lean ====
section
/-! PROOF. The inputs of a command (R70, R91): its rule gives the same on two states that agree on the parameter registers it
lists, on the bytes of its read regions and, for SUB.ENC and SUB.DEC, on MATRIX and KEY_VALID. -/

namespace Sys2Proof.Machine

open Sys2Proof.Safety

/-! ### The shared checks -/

/-- The registers that place region `r` agree. -/
def RegionAgrees (s t : State) (r : Region) : Prop :=
  regionBase t r = regionBase s r ∧ regionLen t r = regionLen s r ∧
    (r = .smpi → t.params.smpSrc = s.params.smpSrc ∧ t.params.sfmt = s.params.sfmt) ∧
    (r = .smpo → t.params.smpDst = s.params.smpDst)

/-- The registers that the shared checks of a use read agree (R214, steps 2 to 7). -/
structure UsesAgree (u : Uses) (s t : State) : Prop where
  bufLog : t.bufLog = s.bufLog
  cfg : u.cfg = true → t.params.sfmt = s.params.sfmt ∧ t.params.depth = s.params.depth
  rails : u.rails = true → t.params.rails = s.params.rails
  regions : ∀ r ∈ u.regions, RegionAgrees s t r

theorem mem_of_mem_orderedPairs {rs : List Region} {p : Region × Region} (h : p ∈ orderedPairs rs) : p.1 ∈ rs ∧ p.2 ∈ rs := by
  induction rs with
  | nil => simp [orderedPairs] at h
  | cons r rs ih =>
    rcases List.mem_append.1 h with h | h
    · obtain ⟨q, hq, rfl⟩ := List.mem_map.1 h
      exact ⟨List.mem_cons_self, List.mem_cons_of_mem _ hq⟩
    · obtain ⟨h1, h2⟩ := ih h
      exact ⟨List.mem_cons_of_mem _ h1, List.mem_cons_of_mem _ h2⟩

theorem inPlace_congr {s t : State} {a b : Region} (ha : RegionAgrees s t a) (hb : RegionAgrees s t b) :
    inPlace t a b = inPlace s a b := by
  obtain ⟨-, -, hsmpi, -⟩ := ha
  obtain ⟨-, -, -, hsmpo⟩ := hb
  by_cases h1 : a = .smpi
  · by_cases h2 : b = .smpo
    · obtain ⟨hsrc, hfmt⟩ := hsmpi h1
      rw [inPlace, inPlace, hsrc, hfmt, hsmpo h2]
    · rw [inPlace_eq_false' h2, inPlace_eq_false' h2]
  · rw [inPlace_eq_false h1, inPlace_eq_false h1]

theorem overlaps_congr {s t : State} {p : Region × Region} (h1 : RegionAgrees s t p.1) (h2 : RegionAgrees s t p.2) :
    overlaps t p = overlaps s p := by
  have hplace := inPlace_congr h1 h2
  obtain ⟨hbase1, hlen1, -⟩ := h1
  obtain ⟨hbase2, hlen2, -⟩ := h2
  simp only [overlaps, intersects, hbase1, hbase2, hlen1, hlen2, hplace]

theorem inRange_congr {s t : State} {r : Region} (hlog : t.bufLog = s.bufLog) (h : RegionAgrees s t r) :
    inRange t r = inRange s r := by
  obtain ⟨hbase, hlen, -⟩ := h
  simp only [inRange, hbase, hlen, bufBytes_congr hlog]

theorem preCheck_congr {u : Uses} {s t : State} (h : UsesAgree u s t) : preCheck u t = preCheck u s := by
  have hformat : checkFormat u t = checkFormat u s := by
    cases hc : u.cfg <;> simp [checkFormat, hc, h.cfg]
  have hdepth : checkDepth u t = checkDepth u s := by
    cases hc : u.cfg <;> simp [checkDepth, depthLegal, hc, h.cfg]
  have hrails : checkRails u t = checkRails u s := by
    cases hc : u.rails <;> simp [checkRails, hc, h.rails]
  have hsrc : checkAlignSrc u t = checkAlignSrc u s := by
    by_cases hr : Region.smpi ∈ u.regions
    · obtain ⟨-, -, hsmpi, -⟩ := h.regions _ hr
      simp [checkAlignSrc, sampleBytes, hsmpi]
    · simp [checkAlignSrc, hr]
  have hdst : checkAlignDst u t = checkAlignDst u s := by
    by_cases hr : Region.smpo ∈ u.regions
    · obtain ⟨-, -, -, hsmpo⟩ := h.regions _ hr
      simp [checkAlignDst, hsmpo]
    · simp [checkAlignDst, hr]
  have hrange : checkRange u t = checkRange u s := by
    rw [checkRange, checkRange, List.find?_congr fun r hr => by rw [inRange_congr h.bufLog (h.regions r hr)]]
  have hoverlap : checkOverlap u t = checkOverlap u s := by
    rw [checkOverlap, checkOverlap, List.find?_congr fun p hp => ?_]
    obtain ⟨h1, h2⟩ := mem_of_mem_orderedPairs hp
    exact overlaps_congr (h.regions _ h1) (h.regions _ h2)
  rw [preCheck, preCheck, hformat, hdepth, hrails, hsrc, hdst, hrange, hoverlap]

/-! ### What a rule reads of BUF -/

/-- `t` holds the bytes of `s` in a region. -/
def ReadsSame (s t : State) (r : Nat × Nat) : Prop := ∀ a, Inside a r → bufByte t a = bufByte s a

theorem bufSlice_of_readsSame {s t : State} {base len a n : Nat} (h : ReadsSame s t (base, len)) (hlo : base ≤ a)
    (hhi : a + n ≤ base + len) : bufSlice t a n = bufSlice s a n :=
  bufSlice_congr fun i hi => h (a + i) ⟨by simp only; omega, by simp only; omega⟩

theorem srcBytes_congr {s t : State} (haddr : t.params.srcAddr = s.params.srcAddr) (hlen : t.params.srcLen = s.params.srcLen)
    (h : ReadsSame s t (readRegions.src s)) : srcBytes t = srcBytes s := by
  rw [srcBytes, srcBytes, haddr, hlen]
  exact bufSlice_of_readsSame h le_rfl le_rfl

theorem keyBytes_congr {s t : State} (haddr : t.params.keyAddr = s.params.keyAddr) (hlen : t.params.keyLen = s.params.keyLen)
    (h : ReadsSame s t (readRegions.key s)) : keyBytes t = keyBytes s := by
  rw [keyBytes, keyBytes, haddr, hlen]
  exact bufSlice_of_readsSame h le_rfl le_rfl

/-- The samples of the carrier's region are read from that region (R160). -/
theorem carriers_congr {s t : State} {n : Nat} (hsrc : t.params.smpSrc = s.params.smpSrc)
    (hfmt : t.params.sfmt = s.params.sfmt) (hn : n ≤ s.params.smpCount.toNat) (h : ReadsSame s t (readRegions.smpi s)) :
    carriers t n = carriers s n := by
  refine List.map_congr_left fun i hi => ?_
  have hi : i < s.params.smpCount.toNat := (List.mem_range.1 hi).trans_le hn
  simp only [readRegions.smpi, sampleWidth] at h
  rw [carrier, carrier, hsrc, hfmt]
  split
  · next h0 =>
    rw [if_pos h0] at h
    rw [memRead, memRead, bufSlice_of_readsSame h (by omega) (by omega)]
  · next h0 =>
    rw [if_neg h0] at h
    rw [memRead, memRead, bufSlice_of_readsSame h (by omega) (by omega)]

/-! ### The parts of the rules -/

theorem afterChecks_congr {i : Instr} {s t : State} {f g : Unit → Except Raised Commit} (hchecks : UsesAgree (uses i) s t)
    (hbody : f () = g ()) : afterChecks i t f = afterChecks i s g := by
  rw [afterChecks, afterChecks, preCheck_congr hchecks, hbody]

theorem withKey_congr {s t : State} {f g : List Byte → Except Raised Commit} (hlen : t.params.keyLen = s.params.keyLen)
    (hkey : keyBytes t = keyBytes s) (hbody : ∀ k, f k = g k) : withKey t f = withKey s g := by
  rw [withKey, withKey, hlen, hkey, hbody]

theorem dstCommit_congr {s t : State} (haddr : t.params.dstAddr = s.params.dstAddr) (hcap : t.params.dstCap = s.params.dstCap)
    (out : List Byte) (m : Option (Vector Byte 25)) (d : Option Bool) (r : Results) :
    dstCommit t out m d r = dstCommit s out m d r := by
  rw [dstCommit, dstCommit, haddr, hcap]

theorem embedCommit_congr {s t : State} (hdepth : t.params.depth = s.params.depth)
    (hcount : t.params.smpCount = s.params.smpCount) (hdst : t.params.smpDst = s.params.smpDst)
    (hcarrier : carriers t s.params.smpCount.toNat = carriers s s.params.smpCount.toNat) (m : List Byte)
    (x : Option (Vector Byte 25)) : embedCommit t m x = embedCommit s m x := by
  rw [embedCommit, embedCommit, hdepth, hcount, hdst, hcarrier]

/-- Reading a frame back reads no sample beyond the N of the carrier (R169). -/
theorem extractFrame_congr {s t : State} (hdepth : t.params.depth = s.params.depth)
    (hcount : t.params.smpCount = s.params.smpCount)
    (hcarrier : ∀ n ≤ s.params.smpCount.toNat, carriers t n = carriers s n) : extractFrame t = extractFrame s := by
  unfold extractFrame
  simp only [hdepth, hcount]
  split
  · rfl
  next hH =>
  rw [hcarrier _ (not_lt.1 hH)]
  split
  · rfl
  split
  · rfl
  next hK =>
  rw [hcarrier _ (not_lt.1 hK)]

/-! ### The rules -/

/-- Everything a command's rule depends on agrees: the operands of R91 and the bytes of the read regions of R70. -/
structure InputsAgree (i : Instr) (s t : State) : Prop where
  bufLog : t.bufLog = s.bufLog
  operands : operandsAgree i s.params t.params
  reads : ∀ r ∈ readRegions i s, ReadsSame s t r
  key : i = .subEnc ∨ i = .subDec → t.matrix = s.matrix ∧ t.status.keyValid = s.status.keyValid

theorem regionAgrees_key {s t : State} (h : operandsAgree.key s.params t.params) : RegionAgrees s t .key := by
  obtain ⟨haddr, hlen⟩ := h
  simp [RegionAgrees, regionBase, regionLen, haddr, hlen]

theorem regionAgrees_src {s t : State} (h : operandsAgree.src s.params t.params) : RegionAgrees s t .src := by
  obtain ⟨haddr, hlen⟩ := h
  simp [RegionAgrees, regionBase, regionLen, haddr, hlen]

theorem regionAgrees_dst {s t : State} (h : operandsAgree.dst s.params t.params) : RegionAgrees s t .dst := by
  obtain ⟨haddr, hcap⟩ := h
  simp [RegionAgrees, regionBase, regionLen, haddr, hcap]

theorem regionAgrees_smpi {s t : State} (h : operandsAgree.smpi s.params t.params) : RegionAgrees s t .smpi := by
  obtain ⟨hsrc, hcount, -, hfmt⟩ := h
  simp [RegionAgrees, regionBase, regionLen, sampleBytes, hsrc, hcount, hfmt]

theorem regionAgrees_smpo {s t : State} (h : operandsAgree.smpi s.params t.params) (hdst : s.params.smpDst = t.params.smpDst) :
    RegionAgrees s t .smpo := by
  obtain ⟨-, hcount, -⟩ := h
  simp [RegionAgrees, regionBase, regionLen, hcount, hdst]

theorem cfgAgrees {s t : State} (h : operandsAgree.smpi s.params t.params) :
    t.params.sfmt = s.params.sfmt ∧ t.params.depth = s.params.depth := by
  obtain ⟨-, -, hdepth, hfmt⟩ := h
  exact ⟨hfmt.symm, hdepth.symm⟩

/-- A command's shared checks read none but its own operands (R91, R214). -/
theorem usesAgree_of_operandsAgree {i : Instr} {s t : State} (hlog : t.bufLog = s.bufLog)
    (h : operandsAgree i s.params t.params) : UsesAgree (uses i) s t := by
  cases i with
  | nop => exact ⟨hlog, by simp [uses], by simp [uses], by simp [uses]⟩
  | subKey => exact ⟨hlog, by simp [uses], by simp [uses], by simpa [uses] using regionAgrees_key h⟩
  | subEnc | subDec =>
    obtain ⟨hsrc, hdst⟩ := h
    exact ⟨hlog, by simp [uses], by simp [uses], by simpa [uses] using ⟨regionAgrees_src hsrc, regionAgrees_dst hdst⟩⟩
  | zzEnc | zzDec =>
    obtain ⟨hsrc, hdst, hrails⟩ := h
    exact ⟨hlog, by simp [uses], fun _ => hrails.symm,
      by simpa [uses] using ⟨regionAgrees_src hsrc, regionAgrees_dst hdst⟩⟩
  | lsbEmbed =>
    obtain ⟨hsrc, hsmpi, hsmpo⟩ := h
    exact ⟨hlog, fun _ => cfgAgrees hsmpi, by simp [uses],
      by simpa [uses] using ⟨regionAgrees_src hsrc, regionAgrees_smpi hsmpi, regionAgrees_smpo hsmpi hsmpo⟩⟩
  | lsbExtract raw =>
    obtain ⟨hsmpi, hdst⟩ := h
    exact ⟨hlog, fun _ => cfgAgrees hsmpi, by simp [uses],
      by simpa [uses] using ⟨regionAgrees_dst hdst, regionAgrees_smpi hsmpi⟩⟩
  | pipeEnc =>
    obtain ⟨hkey, hsrc, hsmpi, hsmpo, hrails⟩ := h
    exact ⟨hlog, fun _ => cfgAgrees hsmpi, fun _ => hrails.symm, by
      simpa [uses] using
        ⟨regionAgrees_key hkey, regionAgrees_src hsrc, regionAgrees_smpi hsmpi, regionAgrees_smpo hsmpi hsmpo⟩⟩
  | pipeDec raw =>
    obtain ⟨hkey, hsmpi, hdst, hrails⟩ := h
    exact ⟨hlog, fun _ => cfgAgrees hsmpi, fun _ => hrails.symm,
      by simpa [uses] using ⟨regionAgrees_key hkey, regionAgrees_dst hdst, regionAgrees_smpi hsmpi⟩⟩

/-- A command's rule depends on its operands and read regions alone. -/
theorem ruleOf_congr_inputs {i : Instr} {s t : State} (h : InputsAgree i s t) : ruleOf i t = ruleOf i s := by
  obtain ⟨hlog, hops, hreads, hmatrix⟩ := h
  have hchecks := usesAgree_of_operandsAgree hlog hops
  cases i with
  | nop => rfl
  | subKey =>
    obtain ⟨haddr, hlen⟩ := hops
    have hkey := keyBytes_congr haddr.symm hlen.symm (hreads _ (by simp [readRegions]))
    rw [ruleOf, ruleOf, subKeyRule, subKeyRule]
    exact afterChecks_congr hchecks <| withKey_congr hlen.symm hkey fun _ => rfl
  | subEnc =>
    obtain ⟨⟨haddr, hlen⟩, hdst, hcap⟩ := hops
    obtain ⟨hm, hvalid⟩ := hmatrix (.inl rfl)
    have hsrc := srcBytes_congr haddr.symm hlen.symm (hreads _ (by simp [readRegions]))
    rw [ruleOf, ruleOf, subEncRule, subEncRule]
    refine afterChecks_congr hchecks ?_
    simp only [hsrc, hm, hvalid, dstCommit_congr hdst.symm hcap.symm]
  | subDec =>
    obtain ⟨⟨haddr, hlen⟩, hdst, hcap⟩ := hops
    obtain ⟨hm, hvalid⟩ := hmatrix (.inr rfl)
    have hsrc := srcBytes_congr haddr.symm hlen.symm (hreads _ (by simp [readRegions]))
    rw [ruleOf, ruleOf, subDecRule, subDecRule]
    refine afterChecks_congr hchecks ?_
    simp only [hsrc, hm, hvalid, dstCommit_congr hdst.symm hcap.symm]
  | zzEnc =>
    obtain ⟨⟨haddr, hlen⟩, ⟨hdst, hcap⟩, hrails⟩ := hops
    have hsrc := srcBytes_congr haddr.symm hlen.symm (hreads _ (by simp [readRegions]))
    rw [ruleOf, ruleOf, zzEncRule, zzEncRule]
    refine afterChecks_congr hchecks ?_
    simp only [hsrc, hrails, dstCommit_congr hdst.symm hcap.symm]
  | zzDec =>
    obtain ⟨⟨haddr, hlen⟩, ⟨hdst, hcap⟩, hrails⟩ := hops
    have hsrc := srcBytes_congr haddr.symm hlen.symm (hreads _ (by simp [readRegions]))
    rw [ruleOf, ruleOf, zzDecRule, zzDecRule]
    refine afterChecks_congr hchecks ?_
    simp only [hsrc, hrails, dstCommit_congr hdst.symm hcap.symm]
  | lsbEmbed =>
    obtain ⟨⟨haddr, hlen⟩, ⟨hsmpi, hcount, hdepth, hfmt⟩, hsmpo⟩ := hops
    have hsrc := srcBytes_congr haddr.symm hlen.symm (hreads _ (by simp [readRegions]))
    have hcarrier := carriers_congr hsmpi.symm hfmt.symm le_rfl (hreads _ (by simp [readRegions]))
    rw [ruleOf, ruleOf, lsbEmbedRule, lsbEmbedRule]
    refine afterChecks_congr hchecks ?_
    rw [hsrc, embedCommit_congr hdepth.symm hcount.symm hsmpo.symm hcarrier]
  | lsbExtract raw =>
    obtain ⟨⟨hsmpi, hcount, hdepth, hfmt⟩, hdst, hcap⟩ := hops
    have hframe := extractFrame_congr hdepth.symm hcount.symm fun _ hn =>
      carriers_congr hsmpi.symm hfmt.symm hn (hreads _ (by simp [readRegions]))
    rw [ruleOf, ruleOf, lsbExtractRule, lsbExtractRule]
    refine afterChecks_congr hchecks ?_
    simp only [hframe, dstCommit_congr hdst.symm hcap.symm]
  | pipeEnc =>
    obtain ⟨⟨hkaddr, hklen⟩, ⟨haddr, hlen⟩, ⟨hsmpi, hcount, hdepth, hfmt⟩, hsmpo, hrails⟩ := hops
    have hkey := keyBytes_congr hkaddr.symm hklen.symm (hreads _ (by simp [readRegions]))
    have hsrc := srcBytes_congr haddr.symm hlen.symm (hreads _ (by simp [readRegions]))
    have hcarrier := carriers_congr hsmpi.symm hfmt.symm le_rfl (hreads _ (by simp [readRegions]))
    rw [ruleOf, ruleOf, pipeEncRule, pipeEncRule]
    refine afterChecks_congr hchecks <| withKey_congr hklen.symm hkey fun k => ?_
    rw [hsrc, ← hrails, embedCommit_congr hdepth.symm hcount.symm hsmpo.symm hcarrier]
  | pipeDec raw =>
    obtain ⟨⟨hkaddr, hklen⟩, ⟨hsmpi, hcount, hdepth, hfmt⟩, ⟨hdst, hcap⟩, hrails⟩ := hops
    have hkey := keyBytes_congr hkaddr.symm hklen.symm (hreads _ (by simp [readRegions]))
    have hframe := extractFrame_congr hdepth.symm hcount.symm fun _ hn =>
      carriers_congr hsmpi.symm hfmt.symm hn (hreads _ (by simp [readRegions]))
    rw [ruleOf, ruleOf, pipeDecRule, pipeDecRule]
    refine afterChecks_congr hchecks <| withKey_congr hklen.symm hkey fun k => ?_
    simp only [hframe, hrails, dstCommit_congr hdst.symm hcap.symm]

end Sys2Proof.Machine
end

