-- ==== Sys2Proof/Proofs/Noninterference.lean ====
section
/-! PROOF. Noninterference (R70, R91): states that agree on a command's inputs complete by the same commit or error, so what else
they hold is neither read nor, but for the commit's writes, changed. -/

namespace Sys2Proof.Machine

open Sys2Proof.Safety

theorem operandsAgree_refl (i : Instr) (p : Params) : operandsAgree i p p := by
  cases i <;> simp [operandsAgree, operandsAgree.key, operandsAgree.src, operandsAgree.dst, operandsAgree.smpi]

/-! ### BUF outside the read regions -/

/-- The same completion on two states that differ in BUF alone leaves the same registers. -/
theorem complete_withBuf (r : Except Raised Commit) (s : State) (buf : Memory) :
    complete r { s with buf := buf } = { complete r s with buf := (complete r { s with buf := buf }).buf } := by
  cases r <;> rfl

/-- Each byte after the same completion is stored alike in both states, or left alone in both. -/
theorem complete_withBuf_byte (r : Except Raised Commit) (s : State) (buf : Memory) (a : Nat) :
    bufByte (complete r { s with buf := buf }) a = bufByte (complete r s) a ∨
    (bufByte (complete r s) a = bufByte s a ∧
      bufByte (complete r { s with buf := buf }) a = bufByte { s with buf := buf } a) := by
  cases r with
  | error e => exact .inr ⟨rfl, rfl⟩
  | ok c =>
    simp only [complete_ok]
    by_cases hout : ∀ base out, c.store = some (base, out) → a < base ∨ base + out.length ≤ a
    · exact .inr ⟨bufByte_commit_outside hout, bufByte_commit_outside hout⟩
    · push Not at hout
      obtain ⟨base, out, hstore, hlo, hhi⟩ := hout
      have hinside (t : State) : bufByte (commit c t) (base + (a - base)) = out[a - base] :=
        bufByte_stored_inside (s := t) (by rw [commit_buf, hstore]; rfl) (by omega)
      rw [Nat.add_sub_cancel' hlo] at hinside
      exact .inl ((hinside _).trans (hinside s).symm)

/-- Settles O26: both states complete by the same rule's outcome. -/
theorem commandsReadOnlyTheirRegions : Obligations.CommandsReadOnlyTheirRegions := by
  intro i s buf hreads t u ht hu
  have hrule : ruleOf i { s with buf := buf } = ruleOf i s :=
    ruleOf_congr_inputs ⟨rfl, operandsAgree_refl i _, hreads, fun _ => ⟨rfl, rfl⟩⟩
  rw [exec_eq_complete] at ht hu
  cases ht
  cases hu
  rw [hrule]
  exact ⟨complete_withBuf _ s buf, complete_withBuf_byte _ s buf⟩

/-! ### Registers that are no operand -/

theorem complete_withParams (r : Except Raised Commit) (s : State) (p : Params) :
    complete r { s with params := p } = { complete r s with params := p } := by
  cases r <;> rfl

/-- The same completion on two states that differ in MATRIX and KEY_VALID alone: it leaves both as they were, or replaces them by
the same values. -/
theorem complete_withKey (r : Except Raised Commit) (s : State) (m : Vector Byte 25) (v : Bool) :
    ∃ u, complete r { s with matrix := m, status := { s.status with keyValid := v } } = u ∧
      u = { complete r s with
            matrix := u.matrix, status := { (complete r s).status with keyValid := u.status.keyValid } } ∧
      (((complete r s).matrix = s.matrix ∧ (complete r s).status.keyValid = s.status.keyValid ∧ u.matrix = m ∧
          u.status.keyValid = v) ∨
        (u.matrix = (complete r s).matrix ∧ u.status.keyValid = true ∧ (complete r s).status.keyValid = true)) := by
  refine ⟨_, rfl, ?_⟩
  cases r with
  | error e => exact ⟨rfl, .inl ⟨rfl, rfl, rfl, rfl⟩⟩
  | ok c =>
    refine ⟨rfl, ?_⟩
    cases hm : c.matrix with
    | none => exact .inl (by simp [hm])
    | some m' => exact .inr (by simp [hm])

/-- Settles O27: the rule's outcome is the same, and its completion touches no parameter register, and MATRIX only to
replace it. -/
theorem unlistedRegistersCannotAffectACommand : Obligations.UnlistedRegistersCannotAffectACommand := by
  refine ⟨fun i s t p hops ht => ?_, fun i s t m v henc hdec ht => ?_⟩
  · have hrule : ruleOf i { s with params := p } = ruleOf i s :=
      ruleOf_congr_inputs ⟨rfl, hops, fun _ _ _ _ => rfl, fun _ => ⟨rfl, rfl⟩⟩
    rw [exec_eq_complete] at ht ⊢
    cases ht
    rw [hrule, complete_withParams]
  · have hrule : ruleOf i { s with matrix := m, status := { s.status with keyValid := v } } = ruleOf i s :=
      ruleOf_congr_inputs ⟨rfl, operandsAgree_refl i _, fun _ _ _ _ => rfl, fun h => (h.elim henc hdec).elim⟩
    rw [exec_eq_complete] at ht ⊢
    cases ht
    rw [hrule]
    obtain ⟨u, hu, hrest⟩ := complete_withKey (ruleOf i s) s m v
    exact ⟨u, by rw [hu], hrest⟩

end Sys2Proof.Machine
end

