-- ==== Sys2Proof/Proofs/CommandSuccess.lean ====
section
/-! PROOF. What each command does when it succeeds (R117 to R119, R145, R146, R168, R169, R191, R192): where its checks pass,
its rule gives a commit, and a commit's completion is a success. -/

namespace Sys2Proof.Machine

open Sys2Proof.Safety

/-- A rule that gives a commit with a store succeeds with that store. -/
theorem exec_of_rule_store {i : Instr} {s : State} {base : Nat} {out : List Byte} {m : Option (Vector Byte 25)}
    {d : Option Bool} {r : Results}
    (h : ruleOf i s = .ok { store := some (base, out), matrix := m, utf8Drop := d, results := some r }) :
    ∃ t, exec i s = .next t ∧
      Succeeds s t base out r (m.getD s.matrix) (s.status.keyValid || m.isSome) (d.getD s.status.utf8Drop) :=
  ⟨_, by rw [exec_eq_complete, h, complete_ok], succeeds_commit_store s base out m d r⟩

/-- A text command's rule that gives a commit succeeds and leaves the key and UTF8_DROP alone. -/
theorem exec_of_rule_text {i : Instr} {s : State} {base : Nat} {out : List Byte} {r : Results}
    (h : ruleOf i s = .ok { store := some (base, out), matrix := none, utf8Drop := none, results := some r }) :
    ∃ t, exec i s = .next t ∧ Succeeds s t base out r s.matrix s.status.keyValid s.status.utf8Drop := by
  have hdone := exec_of_rule_store h
  rwa [Option.isSome_none, Bool.or_false] at hdone

/-- A register's value is the word of its number. -/
theorem word_toNat (w : Word) : word w.toNat = w := by simp

/-! ### SUB.KEY, SUB.ENC, SUB.DEC -/

/-- Settles O30. -/
theorem subKeyBuildsTheMatrix : Obligations.SubKeyBuildsTheMatrix := by
  intro s hrange hletter
  have hrule : ruleOf .subKey s = .ok
      { store := none, matrix := some (buildMatrix (normalise (keyBytes s))), utf8Drop := none,
        results := some (lengthResults (keyLetters (normalise (keyBytes s))).length) } := by
    rw [ruleOf, subKeyRule, afterChecks_of_none _ ((preCheck_subKey_iff s).2 hrange), withKey_of_hasLetter hletter]
  refine ⟨commit _ s, by rw [exec_eq_complete, hrule, complete_ok], rfl, ?_, fun j hj => absurd hj (Nat.not_lt_zero j),
    fun _ _ => rfl⟩
  simp only [commit, commitFlags, doneFlags, Option.isSome_some, Bool.or_true]
  rfl

/-- Settles O31. -/
theorem subEncStoresTheEncryptedDigraphs : Obligations.SubEncStoresTheEncryptedDigraphs := by
  intro s out hready hkey hout hcap
  obtain rfl : out = subEncrypt s.matrix (srcBytes s) := hout
  have hchecks : preCheck (uses .subEnc) s = none := (preCheck_subText_iff s).2 hready
  refine exec_of_rule_text (r := lengthResults _) ?_
  rw [ruleOf, subEncRule, afterChecks_of_none _ hchecks]
  simp [hkey, dstCommit, hcap]

/-- The fixed-width pairs of an even number of bytes hold them all (R119). -/
theorem two_mul_length_fixedPairs (c : List Byte) (h : c.length % 2 = 0) : 2 * (fixedPairs c).length = c.length := by
  induction c using fixedPairs.induct with
  | case1 a b t ih =>
    rw [List.length_cons, List.length_cons] at h ⊢
    rw [fixedPairs, List.length_cons, Nat.mul_succ, ih (by omega)]
  | case2 c hshort =>
    match c with
    | [] => rfl
    | [a] => simp at h
    | a :: b :: t => exact absurd rfl (hshort a b t)

/-- Substitution decrypt gives as many bytes as it reads (R119). -/
theorem length_subDecrypt (m : Vector Byte 25) {c : List Byte} (h : c.length % 2 = 0) : (subDecrypt m c).length = c.length := by
  rw [subDecrypt, length_concatPairs, List.length_map, two_mul_length_fixedPairs c h]

/-- Settles O32. -/
theorem subDecStoresTheDecryptedPairs : Obligations.SubDecStoresTheDecryptedPairs := by
  intro s hready hkey heven hletters hcap
  rw [← length_srcBytes] at heven
  have hlen : (subDecrypt s.matrix (srcBytes s)).length = s.params.srcLen.toNat := by
    rw [length_subDecrypt _ heven, length_srcBytes]
  have hrule := subDecRule_of_ready hready hkey ((checkCipherText_none_iff ..).2 ⟨heven, hletters⟩) (hlen.trans_le hcap)
  rw [hlen, lengthResults, word_toNat] at hrule
  obtain ⟨t, hexec, hdone⟩ := exec_of_rule_text (i := .subDec) hrule
  exact ⟨t, hexec, hlen, hdone⟩

/-! ### ZZ.ENC and ZZ.DEC -/

theorem length_zzEncrypt {R : Nat} (hR : 1 ≤ R) (t : List Byte) : (zzEncrypt t R).length = t.length :=
  (zzEncrypt_perm hR t).length_eq

theorem length_zzDecrypt {R : Nat} (hR : 1 ≤ R) (c : List Byte) : (zzDecrypt c R).length = c.length := by
  rw [← length_zzEncrypt hR, zzEncrypt_zzDecrypt hR]

theorem one_le_rails {s : State} (h : s.params.rails ≠ 0) : 1 ≤ s.params.rails.toNat :=
  Nat.pos_of_ne_zero (BitVec.toNat_ne.1 h)

/-- A command with the checks of ZZ.ENC and ZZ.DEC, whose output is as long as its source, succeeds where they pass (R145,
R146). -/
theorem exec_zz_of_ready {i : Instr} {s : State} {out : List Byte}
    (hrule : ruleOf i s = afterChecks i s fun _ => dstCommit s out none none (lengthResults out.length))
    (huses : uses i = uses .zzEnc) (hlen : out.length = s.params.srcLen.toNat) (hready : TextReady s)
    (hrails : s.params.rails ≠ 0) (hcap : s.params.srcLen.toNat ≤ s.params.dstCap.toNat) :
    ∃ t, exec i s = .next t ∧
      Succeeds s t s.params.dstAddr.toNat out
        { resultLen := s.params.srcLen, frameLen := 0, bitCount := 0, samplesUsed := 0 } s.matrix s.status.keyValid
        s.status.utf8Drop := by
  have hchecks : preCheck (uses i) s = none := huses ▸ (preCheck_zzText_iff s).2 ⟨hrails, hready⟩
  refine exec_of_rule_text (hrule.trans ?_)
  rw [afterChecks_of_none _ hchecks]
  simp [hlen, dstCommit, hcap, lengthResults]

/-- Settles O33. -/
theorem zzEncStoresTheRailReadout : Obligations.ZzEncStoresTheRailReadout := by
  intro s hready hrails hcap
  have hlen : (zzEncrypt (srcBytes s) s.params.rails.toNat).length = s.params.srcLen.toNat := by
    rw [length_zzEncrypt (one_le_rails hrails), length_srcBytes]
  obtain ⟨t, hexec, hdone⟩ := exec_zz_of_ready (i := .zzEnc) rfl rfl hlen hready hrails hcap
  exact ⟨t, hexec, hlen, hdone⟩

/-- Settles O34. -/
theorem zzDecStoresThePathReadBack : Obligations.ZzDecStoresThePathReadBack := by
  intro s hready hrails hcap
  have hlen : (zzDecrypt (srcBytes s) s.params.rails.toNat).length = s.params.srcLen.toNat := by
    rw [length_zzDecrypt (one_le_rails hrails), length_srcBytes]
  obtain ⟨t, hexec, hdone⟩ := exec_zz_of_ready (i := .zzDec) rfl rfl hlen hready hrails hcap
  exact ⟨t, hexec, hlen, hdone⟩

/-! ### LSB.EMBED and PIPE.ENC -/

/-- The samples an embed stores, two bytes each (R68, R168). -/
theorem length_embedBytes (s : State) (m : List Byte) (d N : Nat) :
    (sampleBytesOf (embedSamples m d (carriers s N))).length = 2 * N := by
  rw [length_sampleBytesOf, length_embedSamples, carriers, List.length_map, List.length_range]

/-- An embed with room for its K samples commits (R168). -/
theorem embedCommit_of_fits {s : State} {m : List Byte}
    (h : samplesFor (8 * m.length) s.params.depth.toNat ≤ s.params.smpCount.toNat) (x : Option (Vector Byte 25)) :
    embedCommit s m x = .ok
      { store := some (s.params.smpDst.toNat,
          sampleBytesOf (embedSamples m s.params.depth.toNat (carriers s s.params.smpCount.toNat))),
        matrix := x, utf8Drop := none,
        results := some (frameResults m.length (8 * m.length) (samplesFor (8 * m.length) s.params.depth.toNat)) } := by
  rcases embedCommit_cases s m x with ⟨hlt, -⟩ | ⟨-, hok⟩
  · exact absurd h (not_le.2 hlt)
  · exact hok

/-- Where LSB.EMBED's register checks pass, its rule is the embed of the source (R168). -/
theorem ruleOf_lsbEmbed_of_ready {s : State} (h : EmbedReady s) : ruleOf .lsbEmbed s = embedCommit s (srcBytes s) none := by
  rw [ruleOf, lsbEmbedRule, afterChecks_of_none _ ((preCheck_lsbEmbed_iff s).2 h)]

/-- Settles O35. -/
theorem lsbEmbedStoresThePackedSamples : Obligations.LsbEmbedStoresThePackedSamples := by
  rintro s d N K hready rfl rfl hK hfit
  have hsamples : samplesFor (8 * (srcBytes s).length) s.params.depth.toNat = K := by
    rw [length_srcBytes]
    exact hK.symm
  obtain ⟨t, hexec, hdone⟩ :=
    exec_of_rule_text ((ruleOf_lsbEmbed_of_ready hready).trans (embedCommit_of_fits (hsamples.trans_le hfit) none))
  rw [hsamples, frameResults, length_srcBytes, word_toNat] at hdone
  exact ⟨t, hexec, length_embedBytes .., hdone⟩

/-- Settles O37. -/
theorem pipeEncEmbedsTheCiphertext : Obligations.PipeEncEmbedsTheCiphertext := by
  rintro s d N K m c ⟨hembed, hrails, hkey, hapart, hletter⟩ rfl rfl rfl hc rfl hfit
  have hrule : ruleOf .pipeEnc s = embedCommit s c (some (buildMatrix (normalise (keyBytes s)))) := by
    rw [ruleOf, pipeEncRule, afterChecks_of_none _ ((preCheck_pipeEnc_iff s).2 ⟨hembed, hrails, hkey, hapart⟩),
      withKey_of_hasLetter hletter, hc]
    rfl
  obtain ⟨t, hexec, hdone⟩ := exec_of_rule_store (hrule.trans (embedCommit_of_fits hfit _))
  rw [Option.isSome_some, Bool.or_true] at hdone
  exact ⟨t, hexec, length_embedBytes .., hdone⟩

/-! ### LSB.EXTRACT and PIPE.DEC -/

/-- A carrier that holds the 32 length bits and the whole frame they state reads back (R169). -/
theorem extractFrame_of_fits {s : State} {d N L K : Nat} (hd : d = s.params.depth.toNat) (hN : N = s.params.smpCount.toNat)
    (hH : ceilDiv 32 d ≤ N) (hL : L = prefixLength (streamBits d (carriers s (ceilDiv 32 d)))) (hwhole : L % 8 = 0)
    (hK : K = samplesFor L d) (hfit : K ≤ N) :
    extractFrame s = .ok { payload := payloadBytes (streamBits d (carriers s K)) L, bits := L, samples := K } := by
  subst hd hN hK hL
  rcases extractFrame_cases s with ⟨h, -⟩ | ⟨-, h, -⟩ | ⟨-, -, h, -⟩ | ⟨-, -, -, h⟩
  · exact absurd hH (not_le.2 h)
  · exact absurd hwhole h
  · exact absurd hfit (not_le.2 h)
  · exact h

/-- Settles O36. -/
theorem lsbExtractStoresThePayload : Obligations.LsbExtractStoresThePayload := by
  intro raw s d N L K p q hready hd hN hH hL hwhole hK hfit hp hq hcap
  have hframe := extractFrame_of_fits hd hN hH hL hwhole hK hfit
  rw [← hp] at hframe
  obtain rfl : q = payloadText raw p := hq
  obtain ⟨t, hexec, hdone⟩ := exec_lsbExtract_of_ready (raw := raw) hready hframe hcap
  rw [dropped_eq] at hdone
  exact ⟨t, hexec, hdone⟩

/-- Settles O38. -/
theorem pipeDecStoresThePlaintext : Obligations.PipeDecStoresThePlaintext := by
  intro raw s d N L K m p q c out hready hd hN hm hH hL hwhole hK hfit hp hq hc heven hletters hout hcap
  have hframe := extractFrame_of_fits hd hN hH hL hwhole hK hfit
  rw [← hp] at hframe
  obtain rfl : q = payloadText raw p := hq
  obtain ⟨t, hexec, hdone⟩ := exec_pipeDec_of_ready (raw := raw) hready hm.symm hframe hc.symm
    ((checkCipherText_none_iff m c).2 ⟨heven, hletters⟩) hout.symm hcap
  rw [dropped_eq] at hdone
  exact ⟨t, hexec, hdone⟩

end Sys2Proof.Machine
end

