-- ==== Sys2Proof/Proofs/FirstErrors.lean ====
section
/-! PROOF. First errors (R214): an ordered error table reports for a rule when the first entry that applies is the error the rule
raises. The tables of the shared checks, of the passphrase, of a frame and of a cipher text each report for their part of a
rule. -/

namespace Sys2Proof.Machine

open Sys2Proof.Safety

/-! ### Ordered error tables -/

@[simp] theorem firstError_nil : firstError [] = none := rfl

theorem firstError_cons (b : Bool) (e : ErrorCode × Nat) (rest : List (Bool × ErrorCode × Nat)) :
    firstError ((b, e) :: rest) = if b then some e else firstError rest := by
  cases b <;> rfl

theorem firstError_append (xs ys : List (Bool × ErrorCode × Nat)) :
    firstError (xs ++ ys) = (firstError xs <|> firstError ys) := by
  induction xs with
  | nil => rfl
  | cons x xs ih =>
    obtain ⟨b, e⟩ := x
    rw [List.cons_append, firstError_cons, firstError_cons, ih]
    cases b <;> rfl

/-- The error an entry of a table stands for. -/
def raisedOf (e : ErrorCode × Nat) : Raised := ⟨e.1, word e.2⟩

/-- When an entry of the table applies, the rule ends with the first one that does. -/
def Reports (errs : List (Bool × ErrorCode × Nat)) (r : Except Raised Commit) : Prop :=
  ∀ e, firstError errs = some e → r = .error (raisedOf e)

theorem reports_nil (r : Except Raised Commit) : Reports [] r := by
  intro e he
  cases he

/-- The first entry reports, or does not apply and the rest reports. -/
theorem reports_cons {p : Prop} [Decidable p] {code : ErrorCode} {info : Nat} {rest : List (Bool × ErrorCode × Nat)}
    {r : Except Raised Commit} (hfirst : p → r = .error ⟨code, word info⟩) (hrest : ¬ p → Reports rest r) :
    Reports ((decide p, code, info) :: rest) r := by
  intro e he
  rw [firstError_cons] at he
  by_cases hp : p
  · rw [if_pos (decide_eq_true hp)] at he
    cases he
    exact hfirst hp
  · rw [decide_eq_false hp] at he
    exact hrest hp e he

/-- A command whose table reports for its rule completes with the first error that applies, and changes only the report (R215). -/
theorem exec_of_reports {i : Instr} {s : State} {errs : List (Bool × ErrorCode × Nat)} {code : ErrorCode} {info : Nat}
    (h : Reports errs (ruleOf i s)) (hfirst : firstError errs = some (code, info)) :
    ∃ t, exec i s = .next t ∧ Fails s t code info :=
  ⟨raise (raisedOf (code, info)) s, by rw [exec_eq_complete, h _ hfirst, complete_error], rfl⟩

/-! ### The shared checks -/

/-- The pair must not overlap, unless it is the exempt one (R72). -/
theorem overlaps_eq (s : State) (p : Region × Region) :
    overlaps s p = decide ((p.1.written = true ∨ p.2.written = true) ∧
      ¬ (Apart (regionBase s p.1) (regionLen s p.1) (regionBase s p.2) (regionLen s p.2) ∨ inPlace s p.1 p.2 = true)) := by
  refine Bool.eq_iff_iff.2 ?_
  rw [decide_eq_true_iff, ← intersects_false_iff]
  simp [overlaps, and_assoc]

theorem not_inRange_eq (s : State) (r : Region) :
    (!inRange s r) = decide (¬ InRange s (regionBase s r) (regionLen s r)) := by
  rw [decide_not, Bool.not_inj_iff, Bool.eq_iff_iff, inRange_iff, decide_eq_true_iff]

/-- A search for the first bad item is the table of the items. -/
theorem firstError_map {α : Type} (bad : α → Bool) (err : α → ErrorCode × Nat) (xs : List α) :
    firstError (xs.map fun x => (bad x, err x)) = (xs.find? bad).map err := by
  induction xs with
  | nil => rfl
  | cons x xs ih =>
    rw [List.map_cons, firstError_cons, ih, List.find?_cons]
    cases bad x <;> rfl

theorem not_depthLegal_eq (s : State) : (!depthLegal s) = decide (depth s < 1 ∨ 8 < depth s) := by
  refine Bool.eq_iff_iff.2 ?_
  simp only [depthLegal, depth, decide_eq_true_iff, Bool.not_eq_true', Bool.and_eq_false_iff, decide_eq_false_iff_not]
  omega

theorem bne_zero_eq (n : Nat) : (n != 0) = decide (n ≠ 0) := by
  rw [decide_not]
  rfl

/-- The table of the shared checks of a use, in the order of R214, steps 2 to 7. -/
def checkErrors (u : Uses) (s : State) : List (Bool × ErrorCode × Nat) :=
  (u.cfg && decide (1 < s.params.sfmt.toNat), .unsupportedFormat, s.params.sfmt.toNat) ::
  (u.cfg && decide (depth s < 1 ∨ 8 < depth s), .param, depth s) ::
  (u.rails && decide (s.params.rails = 0), .invalidKey, 2) ::
  (u.regions.contains .smpi && decide (s.params.smpSrc.toNat % sampleWidth s ≠ 0), .align, s.params.smpSrc.toNat) ::
  (u.regions.contains .smpo && decide (s.params.smpDst.toNat % 2 ≠ 0), .align, s.params.smpDst.toNat) ::
  ((u.regions.map fun r => (!inRange s r, .range, r.id)) ++
    (orderedPairs u.regions).map fun p => (overlaps s p, .overlap, p.1.id ||| (p.2.id <<< 4)))

theorem map_raisedOf_orElse (a b : Option (ErrorCode × Nat)) :
    (a <|> b).map raisedOf = (a.map raisedOf <|> b.map raisedOf) := by
  cases a <;> rfl

theorem map_raisedOf_firstError_cons (b : Bool) (e : ErrorCode × Nat) (rest : List (Bool × ErrorCode × Nat)) :
    (firstError ((b, e) :: rest)).map raisedOf =
      ((if b then some (raisedOf e) else none) <|> (firstError rest).map raisedOf) := by
  cases b <;> rfl

theorem checkRange_eq_firstError (u : Uses) (s : State) :
    checkRange u s = (firstError (u.regions.map fun r => (!inRange s r, ErrorCode.range, r.id))).map raisedOf := by
  rw [firstError_map, Option.map_map]
  rfl

theorem checkOverlap_eq_firstError (u : Uses) (s : State) :
    checkOverlap u s = (firstError ((orderedPairs u.regions).map fun p =>
      (overlaps s p, ErrorCode.overlap, p.1.id ||| (p.2.id <<< 4)))).map raisedOf := by
  rw [firstError_map, Option.map_map]
  rfl

/-- The shared checks fail with the first error of their table. -/
theorem preCheck_eq_firstError (u : Uses) (s : State) : preCheck u s = (firstError (checkErrors u s)).map raisedOf := by
  rw [preCheck_eq, checkErrors]
  simp only [map_raisedOf_firstError_cons, firstError_append, map_raisedOf_orElse, ← checkRange_eq_firstError,
    ← checkOverlap_eq_firstError, ← not_depthLegal_eq, ← bne_zero_eq, raisedOf, word_toNat]
  rfl

/-- A table whose first part is that of the shared checks reports for a rule when its second part reports for the rule's body. -/
theorem reports_afterChecks {i : Instr} {s : State} {errs rest : List (Bool × ErrorCode × Nat)}
    {body : Unit → Except Raised Commit}
    (hsplit : firstError errs = (firstError (checkErrors (uses i) s) <|> firstError rest))
    (hbody : preCheck (uses i) s = none → Reports rest (body ())) : Reports errs (afterChecks i s body) := by
  intro e he
  rw [hsplit] at he
  have hpre := preCheck_eq_firstError (uses i) s
  cases hchecks : firstError (checkErrors (uses i) s) with
  | none =>
    rw [hchecks] at he hpre
    rw [afterChecks_of_none body hpre]
    exact hbody hpre e he
  | some f =>
    rw [hchecks] at he hpre
    cases he
    exact afterChecks_of_some body hpre

/-! ### The tables of the other parts -/

/-- The passphrase's table (R214 step 8), then the rest on a key with a letter. -/
theorem reports_withKey {s : State} {rest : List (Bool × ErrorCode × Nat)} {body : List Byte → Except Raised Commit}
    (hbody : KeyHasLetter s → Reports rest (body (normalise (keyBytes s)))) :
    Reports (passphraseErrors s ++ rest) (withKey s body) := by
  refine reports_cons (fun hempty => ?_) fun hlen => reports_cons (fun hnone => ?_) fun hletter => ?_
  · rw [withKey, if_pos hempty]
    rfl
  · rw [withKey, if_neg hlen, if_pos hnone]
    rfl
  · rw [withKey_of_hasLetter hletter]
    exact hbody hletter

/-- DSTCAP, the last entry of a text command's table (R214). -/
theorem reports_dstCommit (s : State) (out : List Byte) (m : Option (Vector Byte 25)) (d : Option Bool) (r : Results) :
    Reports [(decide (s.params.dstCap.toNat < out.length), .dstCap, out.length)] (dstCommit s out m d r) :=
  reports_cons (fun h => by rw [dstCommit, if_pos h]) fun _ => reports_nil _

/-- CAPACITY with K, the last entry of an embed's table (R168). -/
theorem reports_embedCommit (s : State) (message : List Byte) (m : Option (Vector Byte 25)) :
    Reports [(decide (samples s < frameSamples s (8 * message.length)), .capacity, frameSamples s (8 * message.length))]
      (embedCommit s message m) := by
  refine reports_cons (fun h => ?_) fun _ => reports_nil _
  rcases embedCommit_cases s message m with ⟨-, he⟩ | ⟨hfit, -⟩
  · exact he
  · exact absurd hfit (not_le.2 h)

/-- The frame's table (R169), then the rest on the frame read back. -/
theorem reports_extractFrame {s : State} {rest : List (Bool × ErrorCode × Nat)} {r : Except Raised Commit}
    (herr : ∀ e, extractFrame s = .error e → r = .error e) (hok : ∀ x, extractFrame s = .ok x → Reports rest r) :
    Reports (frameErrors s ++ rest) r := by
  rcases extractFrame_cases s with ⟨hH, hx⟩ | ⟨hH, hL, hx⟩ | ⟨hH, hL, hK, hx⟩ | ⟨hH, hL, hK, hx⟩
  · exact reports_cons (fun _ => herr _ hx) fun h => absurd hH h
  · exact reports_cons (fun h => absurd hH (not_le.2 h)) fun _ => reports_cons (fun _ => herr _ hx) fun h => absurd hL h
  · exact reports_cons (fun h => absurd hH (not_le.2 h)) fun _ => reports_cons (fun h => absurd hL h) fun _ =>
      reports_cons (fun _ => herr _ hx) fun h => absurd hK h
  · exact reports_cons (fun h => absurd hH (not_le.2 h)) fun _ => reports_cons (fun h => absurd hL h) fun _ =>
      reports_cons (fun h => absurd hK (not_le.2 h)) fun _ => hok _ hx

/-- What a frame's payload states as text is the text of the payload read back (R169). -/
theorem statedText_of_extractFrame {s : State} {x : Extracted} (h : extractFrame s = .ok x) (raw : Bool) :
    statedText raw s = payloadText raw x.payload := by
  rcases extractFrame_cases s with ⟨-, hx⟩ | ⟨-, -, hx⟩ | ⟨-, -, -, hx⟩ | ⟨-, -, -, hx⟩ <;> rw [hx] at h <;> cases h
  rfl

/-- Where no earlier byte is foreign, a foreign byte at `j` is the first one (R119). -/
theorem firstForeign_eq {ct : List Byte} {m : Vector Byte 25} {j : Nat} (hbefore : LettersBefore j ct m) (hj : j < ct.length)
    (hforeign : ct[j] ∉ m.toList) : firstForeign m ct = some j := by
  refine List.findIdx?_eq_some_iff_getElem.2 ⟨hj, by simpa using hforeign, fun k hk => ?_⟩
  have hmem : ct[k] ∈ ct.take j := List.mem_take_iff_getElem.2 ⟨k, by omega, rfl⟩
  simpa using hbefore _ hmem

/-- The table of substitution decrypt's input (R119, R214 step 9), with DSTCAP after it. -/
theorem reports_cipherText {ct : List Byte} {m : Vector Byte 25} {cap j : Nat} {r : Except Raised Commit}
    (hbefore : LettersBefore j ct m) (herr : ∀ e, checkCipherText m ct = some e → r = .error e)
    (hok : checkCipherText m ct = none → Reports [(decide (cap < ct.length), .dstCap, ct.length)] r) :
    Reports (cipherErrors ct m cap j) r := by
  refine reports_cons (fun hodd => herr _ ?_) fun heven => reports_cons (fun ⟨hj, hforeign⟩ => herr _ ?_) fun _ =>
    reports_cons (fun ⟨hletters, hcap⟩ => ?_) fun _ => reports_nil _
  · rw [checkCipherText, if_pos hodd]
  · rw [checkCipherText, if_neg heven, firstForeign_eq hbefore hj hforeign]
    rfl
  · have hpass : checkCipherText m ct = none := (checkCipherText_none_iff m ct).2 ⟨by omega, hletters⟩
    exact hok hpass (.dstCap, ct.length) (by rw [firstError_cons, if_pos (decide_eq_true hcap)])

end Sys2Proof.Machine
end

