-- ==== Sys2Proof/Proofs/CommandErrors.lean ====
section
/-! PROOF. The error each command reports (R214): its table is that of its shared checks, then those of its own parts, in
order. -/

namespace Sys2Proof.Machine

open Sys2Proof.Safety

/-! ### Each table begins with the shared checks -/

/-- SUB.KEY's table. -/
theorem firstError_subKeyErrors (s : State) :
    firstError (subKeyErrors s) = (firstError (checkErrors (uses .subKey) s) <|> firstError (passphraseErrors s ++ [])) := by
  rw [← firstError_append]
  simp [subKeyErrors, passphraseErrors, checkErrors, uses, orderedPairs, firstError_cons, not_inRange_eq, regionBase, regionLen,
    Region.id]

/-- The text commands' table, with what follows it. -/
theorem firstError_textErrors (s : State) (rest : List (Bool × ErrorCode × Nat)) :
    firstError ([(decide (¬ SrcInRange s), .range, 1), (decide (¬ DstInRange s), .range, 2),
      (decide (¬ SrcDstApart s), .overlap, 0x21)] ++ rest) =
      (firstError (checkErrors (uses .subEnc) s) <|> firstError rest) := by
  rw [firstError_append]
  congr 1
  simp [checkErrors, uses, orderedPairs, firstError_cons, not_inRange_eq, overlaps_eq, regionBase, regionLen,
    Region.id, Region.written, inPlace]

theorem firstError_zzErrors (s : State) :
    firstError (zzErrors s) = (firstError (checkErrors (uses .zzEnc) s) <|>
      firstError [(decide (s.params.dstCap.toNat < s.params.srcLen.toNat), .dstCap, s.params.srcLen.toNat)]) := by
  rw [← firstError_append]
  simp [zzErrors, checkErrors, uses, orderedPairs, firstError_cons, not_inRange_eq, overlaps_eq, regionBase, regionLen,
    Region.id, Region.written, inPlace]

theorem firstError_lsbEmbedErrors (s : State) :
    firstError (lsbEmbedErrors s) = (firstError (checkErrors (uses .lsbEmbed) s) <|>
      firstError [(decide (samples s < frameSamples s (8 * s.params.srcLen.toNat)), .capacity,
        frameSamples s (8 * s.params.srcLen.toNat))]) := by
  rw [← firstError_append]
  simp [lsbEmbedErrors, cfgErrors, alignSrcError, alignDstError, smpiRangeError, smpoRangeError, checkErrors, uses, orderedPairs,
    firstError_cons, not_inRange_eq, overlaps_eq, regionBase, regionLen, sampleBytes, Region.id, Region.written, inPlace]

theorem firstError_lsbExtractErrors (raw : Bool) (s : State) :
    firstError (lsbExtractErrors raw s) = (firstError (checkErrors (uses (.lsbExtract raw)) s) <|>
      firstError (frameErrors s ++
        [(decide (s.params.dstCap.toNat < (statedText raw s).length), .dstCap, (statedText raw s).length)])) := by
  rw [lsbExtractErrors, List.append_assoc, firstError_append]
  congr 1
  simp [cfgErrors, alignSrcError, smpiRangeError, dstSmpiError, checkErrors, uses, orderedPairs, firstError_cons, not_inRange_eq,
    overlaps_eq, regionBase, regionLen, sampleBytes, Region.id, Region.written, inPlace]

theorem firstError_pipeEncErrors (s : State) :
    firstError (pipeEncErrors s) = (firstError (checkErrors (uses .pipeEnc) s) <|>
      firstError (passphraseErrors s ++
        [(decide (samples s < frameSamples s (8 * (pipeCipher (keyMatrix s) (srcBytes s) s.params.rails.toNat).length)),
          .capacity, frameSamples s (8 * (pipeCipher (keyMatrix s) (srcBytes s) s.params.rails.toNat).length))])) := by
  rw [pipeEncErrors, List.append_assoc, firstError_append]
  congr 1
  simp [cfgErrors, alignSrcError, alignDstError, smpiRangeError, smpoRangeError, checkErrors, uses, orderedPairs, firstError_cons,
    not_inRange_eq, overlaps_eq, regionBase, regionLen, sampleBytes, Region.id, Region.written, inPlace]

theorem firstError_pipeDecErrors (raw : Bool) (s : State) (j : Nat) :
    firstError (pipeDecErrors raw s j) = (firstError (checkErrors (uses (.pipeDec raw)) s) <|>
      firstError (passphraseErrors s ++ (frameErrors s ++
        cipherErrors (pipePlain raw s) (keyMatrix s) s.params.dstCap.toNat j))) := by
  rw [pipeDecErrors, List.append_assoc, List.append_assoc, firstError_append]
  congr 1
  simp [cfgErrors, alignSrcError, smpiRangeError, dstSmpiError, checkErrors, uses, orderedPairs, firstError_cons, not_inRange_eq,
    overlaps_eq, regionBase, regionLen, sampleBytes, Region.id, Region.written, inPlace]

/-! ### Each table reports for its rule -/

/-- Settles O39. -/
theorem subKeyReportsItsFirstError : Obligations.SubKeyReportsItsFirstError := by
  intro s code info hfirst
  refine exec_of_reports ?_ hfirst
  rw [ruleOf, subKeyRule]
  exact reports_afterChecks (firstError_subKeyErrors s) fun _ => reports_withKey fun _ => reports_nil _

/-- NOKEY, then the rest of a command that needs a key (R118, R119). -/
theorem reports_noKey {s : State} {rest : List (Bool × ErrorCode × Nat)} {r : Except Raised Commit}
    (hno : s.status.keyValid = false → r = .error ⟨.noKey, 0⟩) (hkey : s.status.keyValid = true → Reports rest r) :
    Reports ((!s.status.keyValid, .noKey, 0) :: rest) r := by
  intro e he
  rw [firstError_cons] at he
  cases hv : s.status.keyValid with
  | false =>
    rw [hv] at he
    cases he
    exact hno hv
  | true =>
    rw [hv] at he
    exact hkey hv e he

/-- Settles O40. -/
theorem subEncReportsItsFirstError : Obligations.SubEncReportsItsFirstError := by
  intro s code info hfirst
  refine exec_of_reports ?_ hfirst
  rw [ruleOf, subEncRule]
  refine reports_afterChecks (firstError_textErrors s _) fun _ => ?_
  refine reports_noKey (fun hno => by simp [hno]) fun hkey => ?_
  rw [hkey]
  exact reports_dstCommit _ _ _ _ _

/-- Settles O41. -/
theorem subDecReportsItsFirstError : Obligations.SubDecReportsItsFirstError := by
  intro s code info j hbefore hfirst
  refine exec_of_reports ?_ hfirst
  rw [ruleOf, subDecRule]
  refine reports_afterChecks (firstError_textErrors s _) fun _ => ?_
  refine reports_noKey (fun hno => by simp [hno]) fun hkey => ?_
  simp only [hkey]
  refine reports_cipherText hbefore (fun e he => by simp [he]) fun hpass => ?_
  obtain ⟨heven, -⟩ := (checkCipherText_none_iff ..).1 hpass
  rw [hpass, ← length_subDecrypt s.matrix heven]
  exact reports_dstCommit _ _ _ _ _

/-- The table of ZZ.ENC and ZZ.DEC reports for a command with their checks whose output is as long as its source (R145, R146). -/
theorem reports_zz {i : Instr} {s : State} {out : List Byte} {r : Results} (huses : uses i = uses .zzEnc)
    (hlen : 1 ≤ s.params.rails.toNat → out.length = (srcBytes s).length) :
    Reports (zzErrors s) (afterChecks i s fun _ => dstCommit s out none none r) := by
  refine reports_afterChecks (huses ▸ firstError_zzErrors s) fun hchecks => ?_
  rw [huses] at hchecks
  obtain ⟨hrails, -⟩ := (preCheck_zzText_iff s).1 hchecks
  rw [← length_srcBytes, ← hlen (one_le_rails hrails)]
  exact reports_dstCommit _ _ _ _ _

/-- Settles O42. -/
theorem zzCommandsReportTheirFirstError : Obligations.ZzCommandsReportTheirFirstError := by
  intro i s code info hi hfirst
  refine exec_of_reports ?_ hfirst
  rcases hi with rfl | rfl
  · rw [ruleOf, zzEncRule]
    exact reports_zz rfl fun hR => length_zzEncrypt hR _
  · rw [ruleOf, zzDecRule]
    exact reports_zz rfl fun hR => length_zzDecrypt hR _

/-- Settles O43. -/
theorem lsbEmbedReportsItsFirstError : Obligations.LsbEmbedReportsItsFirstError := by
  intro s code info hfirst
  refine exec_of_reports ?_ hfirst
  rw [ruleOf, lsbEmbedRule]
  refine reports_afterChecks (firstError_lsbEmbedErrors s) fun _ => ?_
  rw [← length_srcBytes]
  exact reports_embedCommit _ _ _

/-- Settles O44. -/
theorem lsbExtractReportsItsFirstError : Obligations.LsbExtractReportsItsFirstError := by
  intro raw s code info hfirst
  refine exec_of_reports ?_ hfirst
  rw [ruleOf, lsbExtractRule]
  refine reports_afterChecks (firstError_lsbExtractErrors raw s) fun _ => ?_
  refine reports_extractFrame (fun e he => by simp [he]) fun x hx => ?_
  rw [statedText_of_extractFrame hx, hx]
  exact reports_dstCommit _ _ _ _ _

/-- Settles O45. -/
theorem pipeEncReportsItsFirstError : Obligations.PipeEncReportsItsFirstError := by
  intro s code info hfirst
  refine exec_of_reports ?_ hfirst
  rw [ruleOf, pipeEncRule]
  exact reports_afterChecks (firstError_pipeEncErrors s) fun _ => reports_withKey fun _ => reports_embedCommit _ _ _

/-- Settles O46. -/
theorem pipeDecReportsItsFirstError : Obligations.PipeDecReportsItsFirstError := by
  intro raw s code info j hbefore hfirst
  refine exec_of_reports ?_ hfirst
  rw [ruleOf, pipeDecRule]
  refine reports_afterChecks (firstError_pipeDecErrors raw s j) fun _ => reports_withKey fun _ => ?_
  refine reports_extractFrame (fun e he => by simp [he]) fun x hx => ?_
  have htext : pipePlain raw s = zzDecrypt (payloadText raw x.payload) s.params.rails.toNat := by
    rw [pipePlain, statedText_of_extractFrame hx]
  rw [htext] at hbefore ⊢
  simp only [hx]
  refine reports_cipherText hbefore (fun e he => ?_) fun hpass => ?_
  · rw [keyMatrix] at he
    simp [he]
  · obtain ⟨heven, -⟩ := (checkCipherText_none_iff ..).1 hpass
    rw [keyMatrix] at hpass
    rw [hpass, ← length_subDecrypt (buildMatrix (normalise (keyBytes s))) heven]
    exact reports_dstCommit _ _ _ _ _

end Sys2Proof.Machine
end

