-- ==== Sys2Proof/Proofs/CapacityBoundary.lean ====
section
/-! PROOF. R171: with its register checks passed LSB.EMBED turns on the one comparison of N with K. -/

namespace Sys2Proof.Machine

open Sys2Proof.Safety

/-- Settles O57. -/
theorem capacityBoundary : Obligations.CapacityBoundary := by
  intro s K hready hK
  have hsamples : samplesFor (8 * (srcBytes s).length) s.params.depth.toNat = K := by
    rw [length_srcBytes]
    exact hK.symm
  refine ⟨fun hless => ?_, fun hexact => ?_⟩
  · have hrule : ruleOf .lsbEmbed s = .error ⟨.capacity, word K⟩ := by
      rw [ruleOf_lsbEmbed_of_ready hready]
      rcases embedCommit_cases s (srcBytes s) none with ⟨-, he⟩ | ⟨hfit, -⟩
      · rw [he, hsamples]
      · omega
    exact ⟨raise _ s, by rw [exec_eq_complete, hrule, complete_error], rfl⟩
  · have hrule := (ruleOf_lsbEmbed_of_ready hready).trans (embedCommit_of_fits (hsamples.trans_le hexact.ge) none)
    refine ⟨commit _ s, by rw [exec_eq_complete, hrule, complete_ok], rfl, rfl, ?_⟩
    rw [← hsamples]
    rfl

end Sys2Proof.Machine
end

