-- ==== Sys2Proof/Proofs/FloatConversion.lean ====
section
/-! PROOF. The float conversion (R163): a finite pattern's value is its signed significand times a power of two, so an integer
product with 32767 is what `scaledProduct` computes, by a shift up or an exact division. -/

namespace Sys2Proof.Machine

open Sys2Proof.Safety

/-- The significand of a binary32 pattern as a whole number (R67). -/
def significand (x : Word) : Nat :=
  if (x.extractLsb' 23 8).toNat = 0 then (x.extractLsb' 0 23).toNat else 2 ^ 23 + (x.extractLsb' 0 23).toNat

/-- The exponent of the significand's unit, plus 150 (R67). -/
def exponent (x : Word) : Nat := if (x.extractLsb' 23 8).toNat = 0 then 1 else (x.extractLsb' 23 8).toNat

/-- A number with the pattern's sign. -/
def withSign {α : Type} [Neg α] (x : Word) (v : α) : α := if x.getLsbD 31 then -v else v

theorem withSign_withSign (x : Word) (v : Int) : withSign x (withSign x v) = v := by
  unfold withSign
  split <;> simp

theorem intCast_withSign (x : Word) (v : Int) : ((withSign x v : Int) : ℚ) = withSign x (v : ℚ) := by
  unfold withSign
  split <;> simp

theorem exponent_ne_of_finite {x : Word} (h : Binary32Finite x) : exponent x ≠ 255 := by
  have hfield : (x.extractLsb' 23 8).toNat ≠ 255 := fun h255 => h (BitVec.eq_of_toNat_eq h255)
  unfold exponent
  split <;> omega

theorem binary32Value_eq (x : Word) :
    binary32Value x = withSign x ((significand x : ℚ) * 2 ^ ((exponent x : ℤ) - 150)) := by
  unfold binary32Value withSign significand exponent
  generalize (x.extractLsb' 23 8).toNat = e
  generalize (x.extractLsb' 0 23).toNat = f
  by_cases he : e = 0
  · simp [he]
  · have hunit : (8388608 : ℚ) = 2 ^ 23 := by norm_num
    simp [he, hunit]

/-- The scaled product of a finite pattern, in terms of its significand and exponent. -/
theorem scaledProduct_eq {x : Word} (h : Binary32Finite x) :
    scaledProduct x =
      if 150 ≤ exponent x then some (withSign x ((significand x * 32767 * 2 ^ (exponent x - 150) : Nat) : Int))
      else if significand x * 32767 % 2 ^ (150 - exponent x) = 0 then
        some (withSign x ((significand x * 32767 / 2 ^ (150 - exponent x) : Nat) : Int))
      else none := by
  have h255 := exponent_ne_of_finite h
  exact if_neg h255

/-- An integer product is computed exactly (R163). -/
theorem scaledProduct_of_integer {x : Word} {v : Int} (h : Binary32Finite x) (hv : binary32Value x * 32767 = v) :
    scaledProduct x = some v := by
  set M := significand x * 32767
  set w := withSign x v with hw
  have hexact : (M : ℚ) * 2 ^ ((exponent x : ℤ) - 150) = w := by
    rw [hw, intCast_withSign, ← hv, binary32Value_eq]
    simp only [M, withSign]
    split <;> push_cast <;> ring
  rw [scaledProduct_eq h, ← withSign_withSign x v, ← hw]
  split
  · next hlarge =>
    rw [show (exponent x : ℤ) - 150 = ((exponent x - 150 : ℕ) : ℤ) by omega, zpow_natCast] at hexact
    have hM : ((M * 2 ^ (exponent x - 150) : ℕ) : ℤ) = w := by exact_mod_cast hexact
    rw [hM]
  · next hsmall =>
    rw [show (exponent x : ℤ) - 150 = -((150 - exponent x : ℕ) : ℤ) by omega, zpow_neg, zpow_natCast,
      ← div_eq_mul_inv, div_eq_iff (by positivity)] at hexact
    have hM : (M : ℤ) = w * (2 ^ (150 - exponent x) : ℕ) := by exact_mod_cast hexact
    have hdvd : 2 ^ (150 - exponent x) ∣ M := Int.natCast_dvd_natCast.1 ⟨w, by rw [hM, mul_comm]⟩
    have hquot : ((M / 2 ^ (150 - exponent x) : ℕ) : ℤ) = w := by
      rw [Int.natCast_div, hM, Int.mul_ediv_cancel _ (by positivity)]
    rw [if_pos (Nat.mod_eq_zero_of_dvd hdvd), hquot]

/-- Settles O58. -/
theorem conversionIsExactOnIntegerProducts : Obligations.ConversionIsExactOnIntegerProducts := by
  intro x v hfin hv hlow hhigh
  rw [convF2I, scaledProduct_of_integer hfin hv]
  exact if_pos ⟨hlow, hhigh⟩

end Sys2Proof.Machine
end

