-- ==== Sys2Proof/Proofs/Utf8Filter.lean ====
section
/-! PROOF. The lossy filter on any text (R167): either a well-formed sequence stands at the head and is kept, or one byte is
dropped, and induction along this scan. -/

namespace Sys2Proof.Machine

open Sys2Proof.Safety

/-- A row that matches at the head matches the bytes of its own length there whole. -/
theorem rowMatches_take {r : List (Byte × Byte)} {p : List Byte} (h : rowMatches r p = true) :
    r.length = (p.take r.length).length ∧ rowMatches r (p.take r.length) = true := by
  induction r generalizing p with
  | nil => simp [rowMatches]
  | cons x r ih =>
    cases p with
    | nil => simp [rowMatches] at h
    | cons b p =>
      rw [rowMatches, Bool.and_eq_true] at h
      obtain ⟨hb, hrest⟩ := h
      obtain ⟨hlen, hmatch⟩ := ih hrest
      rw [List.length_cons, List.take_succ_cons, List.length_cons, rowMatches, hb, hmatch]
      exact ⟨congrArg (· + 1) hlen, rfl⟩

/-- No well-formed sequence stands at the head of `p`. -/
def NoSequenceAtHead (p : List Byte) : Prop := ∀ q tail, p = q ++ tail → ¬ Utf8Sequence q

theorem utf8Length_of_noSequence {p : List Byte} (h : NoSequenceAtHead p) : utf8Length p = 0 := by
  unfold utf8Length
  split
  · next r hr =>
    obtain ⟨hlen, hmatch⟩ := rowMatches_take (List.find?_some (p := fun r => rowMatches r p) hr)
    exact absurd ((utf8Sequence_iff_row _).2 ⟨r, List.mem_of_find?_eq_some hr, hlen, hmatch⟩)
      (h _ _ (List.take_append_drop r.length p).symm)
  · rfl

/-- Where no sequence stands at the head, one byte is dropped (R167). -/
theorem utf8Filter_drop {b : Byte} {rest : List Byte} (h : NoSequenceAtHead (b :: rest)) :
    utf8Filter (b :: rest) = utf8Filter rest := by
  rw [utf8Filter, utf8Scan, utf8Length_of_noSequence h]
  rfl

theorem utf8Sequence_ne_nil {q : List Byte} (h : Utf8Sequence q) : q ≠ [] := by
  rintro rfl
  exact h

/-- Induction along the filter's scan. -/
theorem utf8_scan_induction {motive : List Byte → Prop} (nil : motive [])
    (keep : ∀ q rest, Utf8Sequence q → motive rest → motive (q ++ rest))
    (drop : ∀ b rest, NoSequenceAtHead (b :: rest) → motive rest → motive (b :: rest)) (p : List Byte) : motive p := by
  induction hn : p.length using Nat.strong_induction_on generalizing p with
  | _ n ih =>
    subst hn
    by_cases hseq : NoSequenceAtHead p
    · cases p with
      | nil => exact nil
      | cons b rest => exact drop b rest hseq (ih rest.length (Nat.lt_succ_self _) rest rfl)
    · simp only [NoSequenceAtHead, not_forall, not_not] at hseq
      obtain ⟨q, rest, rfl, hq⟩ := hseq
      have hpos : 0 < q.length := List.length_pos_iff.2 (utf8Sequence_ne_nil hq)
      exact keep q rest hq (ih rest.length (by rw [List.length_append]; omega) rest rfl)

/-- The filter only drops bytes (R167). -/
theorem utf8Filter_sublist (p : List Byte) : (utf8Filter p).Sublist p := by
  induction p using utf8_scan_induction with
  | nil => exact List.Sublist.refl _
  | keep q rest hq ih => rw [utf8Filter_append hq]; exact List.Sublist.append (List.Sublist.refl q) ih
  | drop b rest hno ih => rw [utf8Filter_drop hno]; exact ih.trans (List.sublist_cons_self b rest)

/-- What the filter keeps is well-formed (R167). -/
theorem wellFormedUtf8_utf8Filter (p : List Byte) : WellFormedUtf8 (utf8Filter p) := by
  induction p using utf8_scan_induction with
  | nil => exact ⟨[], rfl, fun q hq => absurd hq List.not_mem_nil⟩
  | keep q rest hq ih =>
    obtain ⟨seqs, heq, hseqs⟩ := ih
    exact ⟨q :: seqs, by rw [utf8Filter_append hq, heq, List.flatten_cons], List.forall_mem_cons.2 ⟨hq, hseqs⟩⟩
  | drop b rest hno ih => rwa [utf8Filter_drop hno]

/-- Settles O59. -/
theorem utf8FilterKeepsWellFormedText : Obligations.Utf8FilterKeepsWellFormedText :=
  ⟨rfl, fun _ rest hq => utf8Filter_append hq rest, fun _ _ hno => utf8Filter_drop hno, fun p =>
    ⟨utf8Filter_sublist p, wellFormedUtf8_utf8Filter p, utf8Filter_of_wellFormed, fun hascii =>
      wellFormedUtf8_of_ascii fun b hb => Nat.le_of_lt_succ (hascii b hb)⟩⟩

end Sys2Proof.Machine
end
